-- ==== Sys2Proof/Word.lean ====
section
/-! DEFINITION. The word types of the BIP39 BitPacker core: bytes, 32-bit host words, and the
8-byte slots of the dictionary ROM (00_scope.md R9, R14; 40_dictionary.md R150). -/

namespace Sys2Proof

/-- A byte of BUF, EXT, GRP or the ROM (00_scope.md R14, `UInt8`). -/
abbrev Byte := BitVec 8

/-- A host register or host data word: every one is 32 bits wide (00_scope.md R10). -/
abbrev Word := BitVec 32

/-- A host byte address: the block decodes 10 bits (20_memory.md R83). -/
abbrev HostAddr := BitVec 10

/-- A dictionary slot: 8 raw bytes (00_scope.md R17, 40_dictionary.md R150). -/
abbrev Slot := Vector Byte 8

/-- The dictionary ROM: 2048 slots (10_state.md R44). -/
abbrev Rom := Vector Slot 2048

end Sys2Proof
end

