-- ==== Sys2Proof/Syntax.lean ====
section
/-! DEFINITION. The commands of the core: one constructor per row of the opcode map
(30_encoding.md R121). The command word carries no register fields and no immediates (R120): the
operands are the latched registers ARGL0 to ARGL2, so only BITX has fields. -/

namespace Sys2Proof

/-- The numbering of the bits inside a byte (00_scope.md R15; CMD.ORD, 30_encoding.md R120). -/
inductive BitOrder where
  /-- Bit address `n` has weight `2^(7 - n % 8)`; ORD = 0. -/
  | msb
  /-- Bit address `n` has weight `2^(n % 8)`; ORD = 1. -/
  | lsb
  deriving DecidableEq, Repr

/-- A valid command (30_encoding.md R121, R122). -/
inductive Instr where
  /-- OP 0x00: do nothing (45_control.md R255). -/
  | nop
  /-- OP 0x01: zero a byte range of BUF (41_bitpacker.md R176). -/
  | clear
  /-- OP 0x02: extract and insert a bit range inside BUF, with RJ and ORD (41_bitpacker.md R173). -/
  | bitx (rj : Bool) (ord : BitOrder)
  /-- OP 0x03: reverse the bit order of each byte of a range (42_bitorder.md R191). -/
  | brev
  /-- OP 0x04: index to word (40_dictionary.md R154). -/
  | dword
  /-- OP 0x05: word to index (40_dictionary.md R156). -/
  | dindex
  /-- OP 0x06: key to words (43_codec_encode.md R203). -/
  | encode
  /-- OP 0x07: words to key (44_codec_decode.md R223). -/
  | decode
  /-- OP 0x08: word indices to key (44_codec_decode.md R225). -/
  | decidx
  /-- OP 0x09: rerun the ROM check (40_dictionary.md R158). -/
  | romchk
  deriving DecidableEq, Repr

/-- Why a command word is illegal (30_encoding.md R126). Every reason ends in the same BadOpcode. -/
inductive Illegal where
  /-- A nonzero bit in `[31:10]`. -/
  | reservedBits
  /-- RJ or ORD set for an opcode other than BITX. -/
  | modifierBits
  /-- An OP value from 0x0A to 0xFF. -/
  | reservedOpcode
  deriving DecidableEq, Repr

end Sys2Proof
end

