-- ==== Sys2Proof/WellFormed.lean ====
section
/-! DEFINITION. What is well-formed: a command word, by the predicate the spec gives
(30_encoding.md R122), and a command. A command's only fields are RJ and ORD of BITX, and their types
hold exactly the values the encoding has, so every command is well-formed; the match is written out so
that a command added later has to be judged here. -/

namespace Sys2Proof

/-- The opcodes other than BITX (30_encoding.md R122). -/
def plainOpcodes : List Byte :=
  [0x00#8, 0x01#8, 0x03#8, 0x04#8, 0x05#8, 0x06#8, 0x07#8, 0x08#8, 0x09#8]

/-- `valid(c)` of 30_encoding.md R122: BITX with `[31:10]` zero, or another opcode of the map with
`[31:8]` zero. -/
def validWord (c : Word) : Bool :=
  (c.extractLsb' 0 8 == 0x02#8 && c.extractLsb' 10 22 == 0#22)
    || (plainOpcodes.contains (c.extractLsb' 0 8) && c.extractLsb' 8 24 == 0#24)

/-- Every command the syntax can write is well-formed (see the file's header). -/
def Instr.wellFormed : Instr → Bool
  | .nop => true
  | .clear => true
  | .bitx _ _ => true
  | .brev => true
  | .dword => true
  | .dindex => true
  | .encode => true
  | .decode => true
  | .decidx => true
  | .romchk => true

end Sys2Proof
end

