-- ==== Sys2Proof/Decode.lean ====
section
/-! DEFINITION. The decoder of command words, total, rejecting by name (30_encoding.md R120, R121,
R126, R127), and the encoder written from the same format. -/

namespace Sys2Proof

/-- The ORD field (30_encoding.md R120): 0 is MSB-first, 1 is LSB-first. -/
def orderOfBit (b : Bool) : BitOrder := if b then .lsb else .msb

/-- The ORD bit of a bit order. -/
def bitOfOrder : BitOrder → Bool
  | .msb => false
  | .lsb => true

/-- The opcode map for a word whose RJ and ORD bits are 0 or whose OP is BITX's (30_encoding.md R121). -/
def decodeOpcode (op : Nat) (rj ord : Bool) : Except Illegal Instr :=
  match op with
  | 0x00 => .ok .nop
  | 0x01 => .ok .clear
  | 0x02 => .ok (.bitx rj (orderOfBit ord))
  | 0x03 => .ok .brev
  | 0x04 => .ok .dword
  | 0x05 => .ok .dindex
  | 0x06 => .ok .encode
  | 0x07 => .ok .decode
  | 0x08 => .ok .decidx
  | 0x09 => .ok .romchk
  | _ => .error .reservedOpcode

/-- Decode a command word: OP in `[7:0]`, RJ in `[8]`, ORD in `[9]`, `[31:10]` zero
(30_encoding.md R120, R126). -/
def decodeWord (c : Word) : Except Illegal Instr :=
  let op := (c.extractLsb' 0 8).toNat
  let rj := c.getLsbD 8
  let ord := c.getLsbD 9
  if c.extractLsb' 10 22 ≠ 0#22 then .error .reservedBits
  else if op ≠ 0x02 ∧ (rj || ord) = true then .error .modifierBits
  else decodeOpcode op rj ord

/-- The OP byte of a command (30_encoding.md R121). -/
def Instr.opcode : Instr → Byte
  | .nop => 0x00#8
  | .clear => 0x01#8
  | .bitx _ _ => 0x02#8
  | .brev => 0x03#8
  | .dword => 0x04#8
  | .dindex => 0x05#8
  | .encode => 0x06#8
  | .decode => 0x07#8
  | .decidx => 0x08#8
  | .romchk => 0x09#8

/-- The RJ bit of a command; 0 but for BITX (30_encoding.md R120). -/
def Instr.rjBit : Instr → Bool
  | .bitx rj _ => rj
  | _ => false

/-- The ORD bit of a command; 0 but for BITX (30_encoding.md R120). -/
def Instr.ordBit : Instr → Bool
  | .bitx _ ord => bitOfOrder ord
  | _ => false

/-- The one command word of a command: reserved `[31:10]`, ORD, RJ, OP (30_encoding.md R120). -/
def encodeWord (i : Instr) : Word :=
  0#22 ++ BitVec.ofBool i.ordBit ++ BitVec.ofBool i.rjBit ++ i.opcode

/-- The command my decoder reads from a row of the opcode table: every command is one 32-bit word
(30_encoding.md R125), with bit 0 its least significant bit. -/
def decodeTableWord (nbits w : Nat) : Option Instr :=
  if nbits ≤ 32 then
    match decodeWord (BitVec.ofNat 32 (w % 2 ^ nbits)) with
    | .ok i => some i
    | .error _ => none
  else none

end Sys2Proof
end

