-- ==== Sys2Proof/Config.lean ====
section
/-! DEFINITION. What an implementation of the core fixes, and the free values.
The sizes are the spec's (00_scope.md R9). `wordlist` and `hashD0` are the spec's open parameters
(R11, R12). `powerOnByte` and `freeByte` are values the spec leaves unspecified (U6, U7).
The opaque constants have no body that a proof can see, so a claim holds whatever they are. -/

namespace Sys2Proof

/-- Number of dictionary entries (R9, `DICT_SIZE`). -/
abbrev Config.dictSize : Nat := 2048

/-- Bytes of the buffer RAM (R9, `BUF_BYTES`). -/
abbrev Config.bufBytes : Nat := 512

/-- Bits of the buffer RAM (R9, `BUF_BITS`). -/
abbrev Config.bufBits : Nat := 4096

/-- The legal key lengths in bytes (R9, `KEY_LENS`). -/
abbrev Config.keyLens : List Nat := [16, 20, 24, 28, 32]

/-- The legal sentence lengths in words (R9, `WORD_COUNTS`). -/
abbrev Config.wordCounts : List Nat := [12, 15, 18, 21, 24]

/-- The most words a sentence has (R9, `MAX_WORDS`). -/
abbrev Config.maxWords : Nat := 24

/-- Bytes of the KEY region (R9, `MAX_KEY_BYTES`). -/
abbrev Config.maxKeyBytes : Nat := 32

/-- The ID register: DEVICE 0xB139, MAJOR 1, MINOR 0 (10_state.md R33). -/
def Config.idValue : Word := 0xB1390100#32

/-- The PARAM register (10_state.md R34). -/
def Config.paramValue : Word := 0x09B81820#32

/-- BUF byte where the KEY region starts (20_memory.md R85). -/
abbrev Config.keyBase : Nat := 0x000

/-- BUF byte where the IDX region starts (20_memory.md R85). -/
abbrev Config.idxBase : Nat := 0x020

/-- BUF byte of the WIN slot (20_memory.md R85). -/
abbrev Config.winBase : Nat := 0x050

/-- BUF byte of the WOUT slot (20_memory.md R85). -/
abbrev Config.woutBase : Nat := 0x058

/-- BUF byte where the WORDS region starts (20_memory.md R85). -/
abbrev Config.wordsBase : Nat := 0x100

/-- The word-list parameter WORDLIST: the raw content of the ROM, any value (R11, U2, D43; log 7). -/
opaque Config.wordlist : Rom

/-- The hash parameter HASH_D0: byte 0 of the digest of a message, any total function of the message
alone (R12, U1, D44; log 8). -/
opaque Config.hashD0 : List Byte → Byte

/-- The unspecified value that BUF byte `a` holds after power-on until something writes it
(10_state.md R43, U6; log 4). -/
opaque Config.powerOnByte : Nat → Byte

/-- The `n`-th byte drawn freely: a write-set byte of a command that a reset cut off
(70_reset_and_hazards.md R303, U7), or a BUF byte after a later power-on (R305); log 6, log 15. -/
opaque Config.freeByte : Nat → Byte

end Sys2Proof
end

