-- ==== Sys2Proof/Machine/State.lean ====
section
/-! DEFINITION. The state of the machine as plain data: everything 10_state.md R30 lists, and four
fields of the model's own (agenda, reply, freeCount, hashKnown: log 1, 9, 6, 8). -/

namespace Sys2Proof.Machine

/-- The command FSM's phase (10_state.md R45). It plays the part of the program counter. -/
inductive Phase where
  | check
  | idle
  | exec
  | hashWait
  deriving DecidableEq, Repr

/-- Where the FSM stands inside EXEC: before the command's hash request, or after its acknowledge
(45_control.md R254, 60_exceptions.md R277; DEDUCED, log 3). -/
inductive ExecPoint where
  | start
  | afterHash
  deriving DecidableEq, Repr

/-- The error names STATUS.ERRCODE stands for (60_exceptions.md R261). Their numbers are
`ErrCode.code`. -/
inductive ErrCode where
  | none
  | invalidKeyLength
  | invalidWordIndex
  | invalidWordCount
  | unknownWord
  | checksumMismatch
  | outOfRange
  | notFound
  | badOpcode
  | badArgument
  | romInvalid
  deriving DecidableEq, Repr

/-- The response of a bus transaction (20_memory.md R81). -/
inductive BusResp where
  | okay
  | slverr
  deriving DecidableEq, Repr

/-- What a bus transaction returns: a response and, for a read, a data word (20_memory.md R81). -/
structure Reply where
  resp : BusResp
  data : Option Word
  deriving DecidableEq, Repr

/-- A bus transaction: `R(a)` or `W(a, d)` (20_memory.md R81). -/
inductive Txn where
  | read (a : HostAddr)
  | write (a : HostAddr) (d : Word)
  deriving DecidableEq, Repr

/-- One step of an agent (45_control.md R250), as an entry of the agenda (log 1). -/
inductive Event where
  /-- The host performs one transaction. -/
  | host (t : Txn)
  /-- The command FSM takes its enabled step, if it has one. -/
  | fsm
  /-- The FSM takes an internal step that changes nothing the host can see (R254, R13). -/
  | internal
  /-- The hash unit acknowledges; ignored while `hash_req` is 0 (60_exceptions.md R277). -/
  | hashAck
  /-- The hash unit acknowledges an ABANDONED request (70_reset_and_hazards.md R302, U26): ignored
  while `hash_req` is 0, refused otherwise (log 12). -/
  | staleAck
  /-- `rst_n`: the hard reset (70_reset_and_hazards.md R300). -/
  | hardReset
  /-- The first reset after a power-on (70_reset_and_hazards.md R305; log 15). -/
  | powerOn
  /-- The host issues a transaction while `rst_n` is held low (70_reset_and_hazards.md R300, U25):
  refused (log 12). -/
  | hostInReset (t : Txn)
  deriving DecidableEq, Repr

/-- The buffer RAM (10_state.md R43): the bytes something has written since power-on, as a list of
(address, byte) cells with strictly rising addresses below 512 (`Memory.wf`, in Ops). An address that
is not listed holds its unspecified power-on byte (log 4). -/
structure Memory where
  cells : List Host.Cell
  deriving DecidableEq, Repr

/-- The state of the machine (10_state.md R30). -/
structure State where
  /-- CTRL.IRQ_EN (R35). -/
  irqEn : Bool
  /-- STATUS.DONE (R36). -/
  done : Bool
  /-- STATUS.ROM_OK (R36). -/
  romOk : Bool
  /-- STATUS.ROM_CHECKED (R36). -/
  romChecked : Bool
  /-- STATUS.CMD_OVR (R36). -/
  cmdOvr : Bool
  /-- STATUS.ACC_VIOL (R36). -/
  accViol : Bool
  /-- STATUS.ERRCODE (R36, R261). -/
  errCode : ErrCode
  /-- STATUS.LAST_OP (R36). -/
  lastOp : Byte
  /-- ARG0 (R38). -/
  arg0 : Word
  /-- ARG1 (R38). -/
  arg1 : Word
  /-- ARG2 (R38). -/
  arg2 : Word
  /-- RESULT0 (R39). -/
  result0 : Word
  /-- RESULT1 (R40). -/
  result1 : Word
  /-- The buffer RAM BUF (R43). -/
  buf : Memory
  /-- The dictionary ROM (R44); nothing writes it. -/
  rom : Rom
  /-- The phase of the command FSM (R45). -/
  phase : Phase
  /-- The place inside EXEC (log 3). -/
  point : ExecPoint
  /-- The group counter of the codec commands, 0 to 24 (R45; log 11). -/
  group : Fin 25
  /-- The latched command word (R46). -/
  cmdl : Word
  /-- The latched ARG0 (R46). -/
  argl0 : Word
  /-- The latched ARG1 (R46). -/
  argl1 : Word
  /-- The latched ARG2 (R46). -/
  argl2 : Word
  /-- The working buffer EXT (R47). -/
  ext : Vector Byte 33
  /-- The scratch buffer GRP (R47). -/
  grp : Vector Byte 2
  /-- The hash port output `hash_req` (R48, R276). -/
  hashReq : Bool
  /-- The hash port output `hash_len` (R48, R276). -/
  hashLen : BitVec 6
  /-- The hash port output `hash_msg` (R48, R276). -/
  hashMsg : BitVec 256
  /-- The latched digest byte D0L (R48). -/
  d0l : Byte
  /-- MODEL'S OWN: the messages whose HASH_D0 answer the run fixes (log 8). -/
  hashKnown : List (List Byte × Byte)
  /-- MODEL'S OWN: how many free bytes have been drawn (log 6). -/
  freeCount : Nat
  /-- MODEL'S OWN: the events to come, oldest first (log 1). -/
  agenda : List Event
  /-- MODEL'S OWN: the reply to the last host transaction (log 9). -/
  reply : Option Reply
  deriving DecidableEq, Repr

/-- The machine right after the power-on reset (10_state.md R52, 70_reset_and_hazards.md R305): the ROM
check is about to start, nothing of BUF is listed, so that every byte is its power-on value (log 4),
the ROM holds WORDLIST (log 7). CMDL, ARGL0 to ARGL2, EXT, GRP, D0L and the group counter, which R52
leaves unspecified, are zero (DESIGN CHOICE, log 5). -/
def State.reset : State where
  irqEn := false
  done := false
  romOk := false
  romChecked := false
  cmdOvr := false
  accViol := false
  errCode := .none
  lastOp := 0#8
  arg0 := 0#32
  arg1 := 0#32
  arg2 := 0#32
  result0 := 0#32
  result1 := 0#32
  buf := ⟨[]⟩
  rom := Config.wordlist
  phase := .check
  point := .start
  group := 0
  cmdl := 0#32
  argl0 := 0#32
  argl1 := 0#32
  argl2 := 0#32
  ext := Vector.replicate 33 0#8
  grp := Vector.replicate 2 0#8
  hashReq := false
  hashLen := 0#6
  hashMsg := 0#256
  d0l := 0#8
  hashKnown := []
  freeCount := 0
  agenda := []
  reply := none

/-- Why the machine stops with a fault. It never does: the block has no trap (60_exceptions.md R260), a
failing command completes with an error code and a failing transaction answers SLVERR, so there is no
constructor and nobody raises one (safe; log 17). -/
inductive Fault where
  deriving DecidableEq, Repr

/-- Why the model has no run for a step. -/
inductive Refusal where
  /-- Raised by an arm of `exec` whose command has no meaning yet; no arm is left so (safe). -/
  | notModelled (mnemonic : String)
  /-- Raised by `Event.hostInReset`: a host transaction while `rst_n` is low, which "a model refuses"
  (70_reset_and_hazards.md R300, U25; safe, log 12). -/
  | hostDuringReset
  /-- Raised by `Event.staleAck` while a request is outstanding: a model assumes that an acknowledge
  never answers an abandoned request (70_reset_and_hazards.md R302, U26; unsafe only for a hash unit
  that does so, log 12). -/
  | staleAcknowledge
  deriving DecidableEq, Repr

end Sys2Proof.Machine
end

