-- ==== Sys2Proof/Machine/Ops.lean ====
section
/-! DEFINITION. The named operations: bit addresses, BUF, byte arrays, the BitPacker primitive, words
and the ROM, completion of a command (this block's form of an exception) and the hash request. -/

namespace Sys2Proof.Machine

/-! ### Bits inside bytes -/

/-- The weight exponent of a bit address inside its byte, `wpos` of 00_scope.md R15. -/
def wpos (n : Nat) : BitOrder → Nat
  | .msb => 7 - n % 8
  | .lsb => n % 8

/-- `BitGet(A, n, ord)` of 00_scope.md R15, for a byte array given by its reading function. -/
def bitGet (A : Nat → Byte) (n : Nat) (ord : BitOrder) : Bool :=
  (A (n / 8)).getLsbD (wpos n ord)

/-- The byte with only the bit of address `n` set, the `1 << wpos` of `BitSet` (00_scope.md R15). -/
def bitMask (n : Nat) (ord : BitOrder) : Byte := 1#8 <<< wpos n ord

/-- `rev8` of 42_bitorder.md R190: bit `j` of the result is bit `7 - j` of `v`. -/
def rev8 (v : Byte) : Byte :=
  BitVec.ofBool (v.getLsbD 0) ++ BitVec.ofBool (v.getLsbD 1) ++ BitVec.ofBool (v.getLsbD 2)
    ++ BitVec.ofBool (v.getLsbD 3) ++ BitVec.ofBool (v.getLsbD 4) ++ BitVec.ofBool (v.getLsbD 5)
    ++ BitVec.ofBool (v.getLsbD 6) ++ BitVec.ofBool (v.getLsbD 7)

/-! ### BUF -/

/-- The value listed for an address, if one is. What an unlisted address holds is `none` here: no
value has been written since power-on (10_state.md R43; log 4). -/
def lookupCell : List Host.Cell → Nat → Option Byte
  | [], _ => none
  | (a', b) :: rest, a => if a = a' then some b else lookupCell rest a

/-- The list with one cell put in at its place. -/
def insertCell (a : Nat) (b : Byte) : List Host.Cell → List Host.Cell
  | [] => [(a, b)]
  | (a', b') :: rest =>
    if a < a' then (a, b) :: (a', b') :: rest
    else if a = a' then (a, b) :: rest
    else (a', b') :: insertCell a b rest

/-- The canonical form of BUF: strictly rising addresses, each inside the 512 bytes (log 4). -/
abbrev Memory.wf (m : Memory) : Prop :=
  (m.cells.map Prod.fst).Pairwise (· < ·) ∧ ∀ c ∈ m.cells, c.1 < Config.bufBytes

/-- `BUF[a]`: the byte written last, or the power-on value (00_scope.md R16, 10_state.md R43). -/
def Memory.read (m : Memory) (a : Nat) : Byte :=
  (lookupCell m.cells a).getD (Config.powerOnByte a)

/-- `BUF[a] <- b` (00_scope.md R16). -/
def Memory.write (m : Memory) (a : Nat) (b : Byte) : Memory := ⟨insertCell a b m.cells⟩

/-- `MemRead(a, n)` of 00_scope.md R16. -/
def Memory.readBytes (m : Memory) (a n : Nat) : List Byte :=
  (List.range n).map fun k => m.read (a + k)

/-- `MemWrite(a, n, L)` of 00_scope.md R16, with `n` the length of `L`. -/
def Memory.writeBytes (m : Memory) (a : Nat) : List Byte → Memory
  | [] => m
  | b :: bs => (m.write a b).writeBytes (a + 1) bs

/-- `LE16(a)` of 00_scope.md R16. -/
def Memory.le16 (m : Memory) (a : Nat) : Nat := (m.read a).toNat + 256 * (m.read (a + 1)).toNat

/-- The two bytes of a 16-bit little-endian integer (20_memory.md R89). -/
def le16Bytes (v : Nat) : List Byte := [BitVec.ofNat 8 v, BitVec.ofNat 8 (v / 256)]

/-! ### The working buffers EXT and GRP -/

/-- Byte `i` of a working buffer. -/
def byteAt {n : Nat} (v : Vector Byte n) (i : Nat) : Byte := v.toList.getD i 0#8

/-- A working buffer with byte `i` replaced. -/
def setByte {n : Nat} (v : Vector Byte n) (i : Nat) (b : Byte) : Vector Byte n := v.setIfInBounds i b

/-! ### The BitPacker primitive (41_bitpacker.md R171, R172) -/

/-- The container size `C` for `n` copied bits (R172). -/
def containerBits (n : Nat) (rj : Bool) : Nat := if rj then 8 * ((n + 7) / 8) else n

/-- The padding `S = C - N` on the left of the copied bits (R171). -/
def padBits (n : Nat) (rj : Bool) : Nat := containerBits n rj - n

/-- `BitSet(D, n, ord)` of 00_scope.md R15, for a destination given by its reading and writing
functions. -/
def bitSet {D : Type} (get : D → Nat → Byte) (put : D → Nat → Byte → D) (d : D) (n : Nat)
    (ord : BitOrder) : D :=
  put d (n / 8) (get d (n / 8) ||| bitMask n ord)

/-- The loop of R171 over `n` bits: each source bit is tested and, if it is 1, set in the
destination. -/
def copyBits {D : Type} (get : D → Nat → Byte) (put : D → Nat → Byte → D) (A : Nat → Byte)
    (lo dst : Nat) (ord : BitOrder) : Nat → D → D
  | 0, d => d
  | n + 1, d =>
    let d' := copyBits get put A lo dst ord n d
    if bitGet A (lo + n) ord then bitSet get put d' (dst + n) ord else d'

/-- `BitExtract(D, dst, A, lo, hi, rj, ord)` of 41_bitpacker.md R171. -/
def bitExtract {D : Type} (get : D → Nat → Byte) (put : D → Nat → Byte → D) (d : D) (dst : Nat)
    (A : Nat → Byte) (lo hi : Nat) (rj : Bool) (ord : BitOrder) : D :=
  copyBits get put A lo (dst + padBits (hi - lo) rj) ord (hi - lo) d

/-- `BitExtract` into BUF. -/
def Memory.bitExtract (m : Memory) (dst : Nat) (A : Nat → Byte) (lo hi : Nat) (rj : Bool)
    (ord : BitOrder) : Memory :=
  Machine.bitExtract Memory.read Memory.write m dst A lo hi rj ord

/-- `BitExtract` into a working buffer. -/
def bufferExtract {n : Nat} (v : Vector Byte n) (dst : Nat) (A : Nat → Byte) (lo hi : Nat) (rj : Bool)
    (ord : BitOrder) : Vector Byte n :=
  Machine.bitExtract byteAt setByte v dst A lo hi rj ord

/-- `fix(g0, g1)` of 42_bitorder.md R192: the corrected 16-bit value, its low 11 bits. -/
def fixGroup (g0 g1 : Byte) : Nat := ((rev8 g0 ++ rev8 g1 : BitVec 16) &&& 0x7FF#16).toNat

/-- `unfix(v)` of 42_bitorder.md R192. -/
def unfixGroup (v : Nat) : Vector Byte 2 :=
  #v[rev8 (BitVec.ofNat 8 (v / 256)), rev8 (BitVec.ofNat 8 (v % 256))]

/-! ### Words and the dictionary ROM -/

/-- `word_of(slot)` of 00_scope.md R17: the bytes before the first 0x00. -/
def wordOf (slot : List Byte) : List Byte := slot.takeWhile (· != 0#8)

/-- `slot_of(w)` of 00_scope.md R17: the word and its zero padding to 8 bytes. -/
def slotOf (w : List Byte) : List Byte := w ++ List.replicate (8 - w.length) 0#8

/-- The order of words, `<strcmp`: unsigned, byte by byte, a word before its extensions
(00_scope.md R17). -/
def strLt : List Byte → List Byte → Bool
  | _, [] => false
  | [], _ :: _ => true
  | a :: as, b :: bs => decide (a < b) || (decide (a = b) && strLt as bs)

/-- Every word of a list comes strictly before the next (40_dictionary.md R151). -/
def strictlyAscending : List (List Byte) → Bool
  | a :: b :: rest => strLt a b && strictlyAscending (b :: rest)
  | _ => true

/-- One slot's part of `romValid`: canonical, and its word is not empty (40_dictionary.md R151). -/
def slotValid (slot : Slot) : Bool :=
  decide (slot.toList = slotOf (wordOf slot.toList)) && !(wordOf slot.toList).isEmpty

/-- `romValid` of 40_dictionary.md R151. -/
def romValid (rom : Rom) : Bool :=
  rom.toList.all slotValid && strictlyAscending (rom.toList.map fun slot => wordOf slot.toList)

/-- `ROM[i]` (40_dictionary.md R150), for an index below 2048. -/
def romSlot (rom : Rom) (i : Nat) : Slot := rom.toList.getD i (Vector.replicate 8 0#8)

/-- `lookup(w)` of 40_dictionary.md R155: the index of the slot that holds the word. Under `romValid`
at most one slot does; the first is taken (log 14). -/
def romLookup (rom : Rom) (w : List Byte) : Option Nat :=
  rom.toList.findIdx? fun slot => decide (wordOf slot.toList = w)

/-- Gather `f i, f (i+1), …` for `n` positions, or the first position where `f` gives nothing
("decoding aborts at first occurrence", 44_codec_decode.md R223, R225). -/
def collect (f : Nat → Option Nat) (i : Nat) : Nat → Except Nat (List Nat)
  | 0 => .ok []
  | n + 1 =>
    match f i with
    | none => .error i
    | some v =>
      match collect f (i + 1) n with
      | .ok vs => .ok (v :: vs)
      | .error p => .error p

/-! ### Completion: the block's only form of exception entry

The block has no trap, vector, saved program counter or mode (60_exceptions.md R260, R269). A command
that fails ends in the same completion step as one that succeeds, with another ERRCODE. -/

/-- The completion step of a command, steps 2 to 5 of 45_control.md R253: ERRCODE, DONE, `hash_req`
and the return to IDLE. -/
def State.complete (s : State) (e : ErrCode) : State :=
  { s with errCode := e, done := true, hashReq := false, phase := .idle }

/-- The fields of RESULT1 (10_state.md R40): FAIL_POS `[28:24]`, CS_LEN `[20:16]`, CS_EXP `[15:8]`,
CS_RECV `[7:0]`. -/
def result1Word (csRecv csExp : Byte) (csLen failPos : Nat) : Word :=
  0#3 ++ BitVec.ofNat 5 failPos ++ 0#3 ++ BitVec.ofNat 5 csLen ++ csExp ++ csRecv

/-- `raise E(FAIL_POS = p)` of 60_exceptions.md R262. -/
def State.raiseAt (s : State) (e : ErrCode) (p : Nat) : State :=
  { s with result1 := result1Word 0#8 0#8 0 p }.complete e

/-- The end of the record of a completion: the host clears DONE (60_exceptions.md R271). There is no
other return. -/
def State.clearDone (s : State) : State := { s with done := false }

/-! ### The hash port -/

/-- The integer whose byte `j` is byte `j` of the list. -/
def natOfBytes : List Byte → Nat
  | [] => 0
  | b :: bs => b.toNat + 256 * natOfBytes bs

/-- `HashRequest(m)`, the requesting step (60_exceptions.md R276, R277): byte `j` of the message is on
bits `[8j+7:8j]` of `hash_msg`, the rest of the port is 0. -/
def State.hashRequest (s : State) (m : List Byte) : State :=
  { s with hashLen := BitVec.ofNat 6 m.length, hashMsg := BitVec.ofNat 256 (natOfBytes m),
           hashReq := true, phase := .hashWait }

/-- The message the port presents (60_exceptions.md R276). -/
def State.portMessage (s : State) : List Byte :=
  (List.range s.hashLen.toNat).map fun j => s.hashMsg.extractLsb' (8 * j) 8

/-- The first answer a table of known answers gives for a message. -/
def lookupAnswer : List (List Byte × Byte) → List Byte → Option Byte
  | [], _ => none
  | (m', b) :: rest, m => if m = m' then some b else lookupAnswer rest m

/-- HASH_D0 of a message: a function of the message alone, over a whole run (00_scope.md R12,
60_exceptions.md R278; log 8). -/
def State.hashD0 (s : State) (m : List Byte) : Byte :=
  (lookupAnswer s.hashKnown m).getD (Config.hashD0 m)

/-- The hash unit's acknowledge (60_exceptions.md R277): it answers the message on the port, and is
ignored while `hash_req` is 0. -/
def State.hashAnswer (s : State) : State :=
  if s.hashReq then
    { s with d0l := s.hashD0 s.portMessage, hashReq := false, phase := .exec, point := .afterHash }
  else s

end Sys2Proof.Machine
end

