-- ==== Sys2Proof/Machine/Operands.lean ====
section
/-! DEFINITION. The operands of the commands: the full 32-bit latched registers as unbounded naturals
(00_scope.md R14, 30_encoding.md R123, R124), the checks on them, and the fixed BUF regions
(20_memory.md R85). -/

namespace Sys2Proof.Machine

/-- The first operand: BASE, FROM, INDEX, KEY_LEN or NR_WORDS (30_encoding.md R123). -/
abbrev State.op0 (s : State) : Nat := s.argl0.toNat

/-- The second operand: LEN or TO (30_encoding.md R123). -/
abbrev State.op1 (s : State) : Nat := s.argl1.toNat

/-- The third operand: DST (30_encoding.md R123). -/
abbrev State.op2 (s : State) : Nat := s.argl2.toNat

/-- The check of CLEAR and BREV: the range lies in BUF (41_bitpacker.md R176, 42_bitorder.md R191). -/
def byteRangeOk (base len : Nat) : Bool := decide (base + len ≤ Config.bufBytes)

/-- `overlap` of 41_bitpacker.md R174, for `n` bits from `lo` copied to `dst` on: they share a byte. -/
def spansOverlap (lo n dst : Nat) : Bool :=
  !(decide ((lo + n - 1) / 8 < dst / 8) || decide ((dst + n - 1) / 8 < lo / 8))

/-- The four checks of BITX, in order (41_bitpacker.md R173): they all raise BadArgument. -/
def bitxOk (lo hi dst : Nat) (rj : Bool) : Bool :=
  decide (lo < hi) && decide (hi ≤ Config.bufBits)
    && decide (dst + containerBits (hi - lo) rj ≤ Config.bufBits)
    && !spansOverlap lo (hi - lo) (dst + padBits (hi - lo) rj)

/-- `nr_words(L)` of 43_codec_encode.md R200. -/
def nrWords (keyLen : Nat) : Nat := (keyLen * 8 + 10) / 11

/-- `cs_len(L)` of 43_codec_encode.md R200. -/
def csLenOfKey (keyLen : Nat) : Nat := keyLen / 4

/-- `key_len(nw)` of 44_codec_decode.md R220. -/
def keyLenOfWords (nw : Nat) : Nat := (nw * 11 - 1) / 8

/-- `cs_len(nw)` of 44_codec_decode.md R220. -/
def csLenOfWords (nw : Nat) : Nat := nw * 11 - keyLenOfWords nw * 8

/-- `csmask(n)` of 43_codec_encode.md R201: the top `n` bits of a byte. -/
def csMask (n : Nat) : Byte := 0xFF#8 <<< (8 - n)

/-- The key, `KEY[0..L-1]` (43_codec_encode.md R203). -/
abbrev State.keyBytes (s : State) (keyLen : Nat) : List Byte := s.buf.readBytes Config.keyBase keyLen

/-- The word in the WIN slot (40_dictionary.md R156). -/
abbrev State.winWord (s : State) : List Byte := wordOf (s.buf.readBytes Config.winBase 8)

/-- The word in WORDS slot `i` (44_codec_decode.md R223). -/
abbrev State.sentenceWord (s : State) (i : Nat) : List Byte :=
  wordOf (s.buf.readBytes (Config.wordsBase + 8 * i) 8)

/-- IDX entry `i` (44_codec_decode.md R225, 20_memory.md R89). -/
abbrev State.idxEntry (s : State) (i : Nat) : Nat := s.buf.le16 (Config.idxBase + 2 * i)

end Sys2Proof.Machine
end

