-- ==== Sys2Proof/Machine/Flags.lean ====
section
/-! DEFINITION. The flags: STATUS is the block's only status register and its fields the only flags
(10_state.md R36, R42). Here are its numbers, its word, its W1C write and the interrupt output. -/

namespace Sys2Proof.Machine

/-- The number of an error name in STATUS.ERRCODE (60_exceptions.md R261). -/
def ErrCode.code : ErrCode → BitVec 4
  | .none => 0#4
  | .invalidKeyLength => 1#4
  | .invalidWordIndex => 2#4
  | .invalidWordCount => 3#4
  | .unknownWord => 4#4
  | .checksumMismatch => 5#4
  | .outOfRange => 6#4
  | .notFound => 7#4
  | .badOpcode => 8#4
  | .badArgument => 9#4
  | .romInvalid => 10#4

/-- STATUS.BUSY of a phase (10_state.md R45). -/
def Phase.isBusy : Phase → Bool
  | .check => true
  | .idle => false
  | .exec => true
  | .hashWait => true

/-- STATUS.HASH_WAIT of a phase (10_state.md R45). -/
def Phase.isHashWait : Phase → Bool
  | .check => false
  | .idle => false
  | .exec => false
  | .hashWait => true

/-- STATUS.BUSY. -/
def State.busy (s : State) : Bool := s.phase.isBusy

/-- STATUS.ERR, "equals `ERRCODE != 0` at all times" (10_state.md R36). -/
def State.err (s : State) : Bool := s.errCode.code != 0#4

/-- The STATUS word (10_state.md R36): LAST_OP `[23:16]`, ERRCODE `[11:8]`, HASH_WAIT `[7]`,
ACC_VIOL `[6]`, CMD_OVR `[5]`, ROM_CHECKED `[4]`, ROM_OK `[3]`, ERR `[2]`, DONE `[1]`, BUSY `[0]`. -/
def State.statusWord (s : State) : Word :=
  0#8 ++ s.lastOp ++ 0#4 ++ s.errCode.code
    ++ BitVec.ofBool s.phase.isHashWait ++ BitVec.ofBool s.accViol ++ BitVec.ofBool s.cmdOvr
    ++ BitVec.ofBool s.romChecked ++ BitVec.ofBool s.romOk ++ BitVec.ofBool s.err
    ++ BitVec.ofBool s.done ++ BitVec.ofBool s.busy

/-- The CTRL word: IRQ_EN `[0]`; SOFT_RST and the reserved bits read 0 (10_state.md R35). -/
def State.ctrlWord (s : State) : Word := 0#31 ++ BitVec.ofBool s.irqEn

/-- A host write to STATUS: only bits 1, 5 and 6 respond, and they clear where the written bit is 1
(10_state.md R36). -/
def State.writeStatus (s : State) (d : Word) : State :=
  let s' := if d.getLsbD 1 then s.clearDone else s
  { s' with cmdOvr := s.cmdOvr && !d.getLsbD 5, accViol := s.accViol && !d.getLsbD 6 }

/-- The interrupt output: `CTRL.IRQ_EN & STATUS.DONE` (60_exceptions.md R270, 10_state.md R51). -/
def State.irq (s : State) : Bool := s.irqEn && s.done

end Sys2Proof.Machine
end

