-- ==== Sys2Proof/Machine/Control.lean ====
section
/-! DEFINITION. The command life cycle: accept, CMD while BUSY, NOP and illegal words
(45_control.md R251, R252, R255, R256), and the end of the reset ROM check (40_dictionary.md R152). -/

namespace Sys2Proof.Machine

/-- The accept of a command word in IDLE, the host's step (45_control.md R251). -/
def State.accept (s : State) (c : Word) : State :=
  { s with cmdl := c, argl0 := s.arg0, argl1 := s.arg1, argl2 := s.arg2,
           result0 := 0#32, result1 := 0#32,
           done := false, errCode := .none, lastOp := c.extractLsb' 0 8,
           phase := .exec, point := .start }

/-- A host write to CMD: accepted in IDLE (45_control.md R251), otherwise dropped with CMD_OVR set
(45_control.md R252). -/
def State.writeCmd (s : State) (c : Word) : State :=
  if s.busy then { s with cmdOvr := true } else s.accept c

/-- The result of any ROM check, the reset one and ROMCHK's (40_dictionary.md R151). -/
def State.recordRomCheck (s : State) : State :=
  { s with romOk := romValid s.rom, romChecked := true }

/-- The last step of the reset ROM check (40_dictionary.md R152). -/
def finishRomCheck (s : State) : State := { s.recordRomCheck with phase := .idle }

/-- NOP (45_control.md R255). -/
def execNop (s : State) : Host.Outcome State Fault Refusal := .next (s.complete .none)

/-- An illegal command word completes with BadOpcode and touches nothing else (45_control.md R256). -/
def execIllegal (s : State) : Host.Outcome State Fault Refusal := .next (s.complete .badOpcode)

end Sys2Proof.Machine
end

