-- ==== Sys2Proof/Machine/Reset.lean ====
section
/-! DEFINITION. Hard, soft and power-on reset (70_reset_and_hazards.md R300 to R305) and the write sets
of the commands (R304). -/

namespace Sys2Proof.Machine

/-- The addresses of a byte range. -/
def byteRange (base len : Nat) : List Nat := List.range' base len

/-- BITX's write set: the bytes of the destination span, when the operands pass (R304). -/
def bitxWriteSet (lo hi dst : Nat) (rj : Bool) : List Nat :=
  if bitxOk lo hi dst rj then
    let first := (dst + padBits (hi - lo) rj) / 8
    let last := (dst + padBits (hi - lo) rj + (hi - lo) - 1) / 8
    byteRange first (last + 1 - first)
  else []

/-- The BUF bytes a command may write (70_reset_and_hazards.md R304; log 6). -/
def State.writeSetOf (s : State) : Instr → List Nat
  | .nop => []
  | .romchk => []
  | .clear => if byteRangeOk s.op0 s.op1 then byteRange s.op0 s.op1 else []
  | .brev => if byteRangeOk s.op0 s.op1 then byteRange s.op0 s.op1 else []
  | .bitx rj _ => bitxWriteSet s.op0 s.op1 s.op2 rj
  | .dword => byteRange Config.woutBase 8
  | .dindex =>
    if s.romOk && (romLookup s.rom s.winWord).isNone then [] else byteRange Config.woutBase 8
  | .encode => byteRange Config.idxBase 48 ++ byteRange Config.wordsBase 192
  | .decode => byteRange Config.keyBase 32
  | .decidx => byteRange Config.keyBase 32

/-- The write set of the command in progress: none for an illegal word (R304), and none in IDLE and in
CHECK, where no command is in progress (R303). -/
def State.writeSet (s : State) : List Nat :=
  match s.phase with
  | .check => []
  | .idle => []
  | .exec | .hashWait =>
    match decodeWord s.cmdl with
    | .ok i => s.writeSetOf i
    | .error _ => []

/-- Bytes replaced by freshly drawn free values, one draw per address (R303, "freely and independently
per byte"; log 6). -/
def Memory.drawBytes (m : Memory) (n : Nat) : List Nat → Memory
  | [] => m
  | a :: as => (m.write a (Config.freeByte n)).drawBytes (n + 1) as

/-- A reset that leaves the bytes of `as` in BUF unspecified: every register takes its value of
10_state.md R52, the other BUF bytes and the ROM are unchanged. The model's own fields stay. -/
def State.resetDrawing (s : State) (as : List Nat) : State :=
  { State.reset with
    buf := s.buf.drawBytes s.freeCount as, rom := s.rom, hashKnown := s.hashKnown,
    freeCount := s.freeCount + as.length, agenda := s.agenda, reply := s.reply }

/-- The reset of R300 and R301: the write set of a command in progress becomes unspecified (R303). -/
def State.doReset (s : State) : State := s.resetDrawing s.writeSet

/-- The first reset after a power-on: every BUF byte is unspecified (R305; log 15). -/
def State.doPowerOn (s : State) : State := s.resetDrawing (byteRange 0 Config.bufBytes)

end Sys2Proof.Machine
end

