-- ==== Sys2Proof/Machine/Bus.lean ====
section
/-! DEFINITION. The host bus (20_memory.md R81 to R90): address decode, register reads and writes, the
BUF window, and the reply of each transaction. -/

namespace Sys2Proof.Machine

/-- The host-visible registers (10_state.md R31). -/
inductive Reg where
  | id
  | param
  | ctrl
  | status
  | cmd
  | arg0
  | arg1
  | arg2
  | result0
  | result1
  deriving DecidableEq, Repr

/-- What a host address decodes to (20_memory.md R82, R83). -/
inductive Target where
  | misaligned
  | register (r : Reg)
  | reserved
  | window (w : Nat)
  deriving DecidableEq, Repr

/-- The host address decode (20_memory.md R82, R83, R84): registers 0x000 to 0x024, reserved 0x028 to
0x1FC, window word `w` at `0x200 + 4w`. -/
def decodeAddr (a : HostAddr) : Target :=
  if a.toNat % 4 ≠ 0 then .misaligned
  else
    match a.toNat / 4 with
    | 0 => .register .id
    | 1 => .register .param
    | 2 => .register .ctrl
    | 3 => .register .status
    | 4 => .register .cmd
    | 5 => .register .arg0
    | 6 => .register .arg1
    | 7 => .register .arg2
    | 8 => .register .result0
    | 9 => .register .result1
    | w => if w < 128 then .reserved else .window (w - 128)

/-- What a register reads as (10_state.md R32 to R40): CMD reads 0. -/
def State.readRegister (s : State) : Reg → Word
  | .id => Config.idValue
  | .param => Config.paramValue
  | .ctrl => s.ctrlWord
  | .status => s.statusWord
  | .cmd => 0#32
  | .arg0 => s.arg0
  | .arg1 => s.arg1
  | .arg2 => s.arg2
  | .result0 => s.result0
  | .result1 => s.result1

/-- A write to CTRL: SOFT_RST = 1 resets and discards the IRQ_EN bit, otherwise IRQ_EN is stored
(10_state.md R35, 70_reset_and_hazards.md R301). -/
def State.writeCtrl (s : State) (d : Word) : State :=
  if d.getLsbD 1 then s.doReset else { s with irqEn := d.getLsbD 0 }

/-- The effect of a register write, in every phase (10_state.md R32 to R40, 20_memory.md R87): the
read-only registers ignore it. -/
def State.writeRegister (s : State) (r : Reg) (d : Word) : State :=
  match r with
  | .id => s
  | .param => s
  | .ctrl => s.writeCtrl d
  | .status => s.writeStatus d
  | .cmd => s.writeCmd d
  | .arg0 => { s with arg0 := d }
  | .arg1 => { s with arg1 := d }
  | .arg2 => { s with arg2 := d }
  | .result0 => s
  | .result1 => s

/-- Window word `w`: BUF bytes `4w` to `4w+3`, `BUF[4w]` in bits `[7:0]` (20_memory.md R84). -/
def Memory.readLanes (m : Memory) (w : Nat) : Word :=
  m.read (4 * w + 3) ++ m.read (4 * w + 2) ++ m.read (4 * w + 1) ++ m.read (4 * w)

/-- Window word `w` written: `BUF[4w+j] <- d[8j+7:8j]` (20_memory.md R84). -/
def Memory.writeLanes (m : Memory) (w : Nat) (d : Word) : Memory :=
  m.writeBytes (4 * w)
    [d.extractLsb' 0 8, d.extractLsb' 8 8, d.extractLsb' 16 8, d.extractLsb' 24 8]

/-- The state with the reply of a transaction (20_memory.md R81; log 9). -/
def State.replyWith (s : State) (resp : BusResp) (data : Option Word) : State :=
  { s with reply := some ⟨resp, data⟩ }

/-- A host read `R(a)` (20_memory.md R81 to R88). -/
def hostRead (a : HostAddr) (s : State) : State :=
  match decodeAddr a with
  | .misaligned => s.replyWith .slverr (some 0#32)
  | .reserved => s.replyWith .slverr (some 0#32)
  | .register r => s.replyWith .okay (some (s.readRegister r))
  | .window w =>
    if s.busy then { s with accViol := true }.replyWith .slverr (some 0#32)
    else s.replyWith .okay (some (s.buf.readLanes w))

/-- A host write `W(a, d)` (20_memory.md R81 to R88). -/
def hostWrite (a : HostAddr) (d : Word) (s : State) : State :=
  match decodeAddr a with
  | .misaligned => s.replyWith .slverr none
  | .reserved => s.replyWith .slverr none
  | .register r => (s.writeRegister r d).replyWith .okay none
  | .window w =>
    if s.busy then { s with accViol := true }.replyWith .slverr none
    else { s with buf := s.buf.writeLanes w d }.replyWith .okay none

/-- One host transaction (20_memory.md R81). -/
def hostTxn (t : Txn) (s : State) : State :=
  match t with
  | .read a => hostRead a s
  | .write a d => hostWrite a d s

end Sys2Proof.Machine
end

