-- ==== Sys2Proof/Machine/BitPacker.lean ====
section
/-! DEFINITION. The BitPacker commands CLEAR and BITX (41_bitpacker.md R173, R174, R176) and the
bit-order transform BREV (42_bitorder.md R191). -/

namespace Sys2Proof.Machine

/-- CLEAR: zero a byte range of BUF (41_bitpacker.md R176). -/
def execClear (s : State) : Host.Outcome State Fault Refusal :=
  .next
    (if byteRangeOk s.op0 s.op1 then
      { s with buf := s.buf.writeBytes s.op0 (List.replicate s.op1 0#8) }.complete .none
    else s.complete .badArgument)

/-- BITX: OR the span `[FROM, TO)` of BUF into the span at DST (41_bitpacker.md R173). Source and
destination share no byte, so reading the source from BUF as it was is the in-place copy (R174). -/
def execBitx (rj : Bool) (ord : BitOrder) (s : State) : Host.Outcome State Fault Refusal :=
  .next
    (if bitxOk s.op0 s.op1 s.op2 rj then
      { s with buf := s.buf.bitExtract s.op2 s.buf.read s.op0 s.op1 rj ord }.complete .none
    else s.complete .badArgument)

/-- BREV: reverse the bit order of each byte of a BUF range (42_bitorder.md R191). -/
def execBrev (s : State) : Host.Outcome State Fault Refusal :=
  .next
    (if byteRangeOk s.op0 s.op1 then
      { s with buf := s.buf.writeBytes s.op0 ((s.buf.readBytes s.op0 s.op1).map rev8) }.complete .none
    else s.complete .badArgument)

end Sys2Proof.Machine
end

