-- ==== Sys2Proof/Machine/CodecDecode.lean ====
section
/-! DEFINITION. DECODE and DECIDX: words or word indices to key (44_codec_decode.md R220 to R228). The
FSM takes two steps: everything up to the hash request, and, after the acknowledge, the rest with the
completion (45_control.md R254; log 2). -/

namespace Sys2Proof.Machine

/-- Step 3 of `Reconstruct` (R222): the groups of the indices placed one after another, LSB-first, in
an EXT that was zero. -/
def placeGroups (idx : List Nat) : Vector Byte 33 :=
  idx.zipIdx.foldl
    (fun ext vi => bufferExtract ext (11 * vi.2) (byteAt (unfixGroup vi.1)) 5 16 false .lsb)
    (Vector.replicate 33 0#8)

/-- Step 4 of `Reconstruct` (R222): the bits of bytes 0 to `n - 1` reversed. -/
def reverseFirst (n : Nat) (ext : Vector Byte 33) : Vector Byte 33 :=
  Vector.ofFn fun j => if j.val < n then rev8 ext[j] else ext[j]

/-- EXT after steps 3 and 4 of `Reconstruct` (R222). -/
def decodeExt (idx : List Nat) (nw : Nat) : Vector Byte 33 :=
  reverseFirst (keyLenOfWords nw + 1) (placeGroups idx)

/-- `Reconstruct` up to its hash request (R222, steps 2 to 5): the working buffers, and the key on the
hash port. -/
def State.reconstructStart (s : State) (idx : List Nat) (nw : Nat) : State :=
  let ext := decodeExt idx nw
  { s with ext := ext, grp := unfixGroup (idx.getLastD 0), group := Fin.ofNat 25 nw }.hashRequest
    (ext.toList.take (keyLenOfWords nw))

/-- `exp` of R222: the recomputed checksum bits. -/
def State.expectedChecksum (s : State) (nw : Nat) : Byte := s.d0l &&& csMask (csLenOfWords nw)

/-- `recv` of R222: the checksum byte of the sentence, `EXT[L]`. -/
def State.receivedChecksum (s : State) (nw : Nat) : Byte := byteAt s.ext (keyLenOfWords nw)

/-- The decoded key of R222, `EXT[0..L-1]`. -/
def State.decodedKey (s : State) (nw : Nat) : List Byte := s.ext.toList.take (keyLenOfWords nw)

/-- `Reconstruct` from the acknowledge to the completion (R222, steps 5 to 7): KEY, RESULT0 and RESULT1
are written, with and without a ChecksumMismatch (R226; 90_conflicts.md C4). -/
def State.reconstructFinish (s : State) (nw : Nat) : State :=
  { s with
    buf := s.buf.writeBytes Config.keyBase
      (s.decodedKey nw ++ List.replicate (Config.maxKeyBytes - keyLenOfWords nw) 0#8),
    result0 := BitVec.ofNat 32 (keyLenOfWords nw),
    result1 := result1Word (s.receivedChecksum nw) (s.expectedChecksum nw) (csLenOfWords nw) 0 }.complete
    (if s.receivedChecksum nw = s.expectedChecksum nw then .none else .checksumMismatch)

/-- The index of sentence word `i`, if the dictionary has it (R223, 40_dictionary.md R155). -/
def State.wordIndex (s : State) (i : Nat) : Option Nat := romLookup s.rom (s.sentenceWord i)

/-- IDX entry `i`, if it has at most 11 significant bits (R225). -/
def State.entryIndex (s : State) (i : Nat) : Option Nat :=
  if s.idxEntry i < Config.dictSize then some (s.idxEntry i) else none

/-- DECODE up to its hash request (R223). -/
def decodeStart (s : State) : State :=
  if s.romOk = false then s.complete .romInvalid
  else if s.op0 ∈ Config.wordCounts then
    match collect s.wordIndex 0 s.op0 with
    | .ok idx => s.reconstructStart idx s.op0
    | .error p => s.raiseAt .unknownWord p
  else s.complete .invalidWordCount

/-- DECIDX up to its hash request (R225): it does not check the ROM (40_dictionary.md R153). -/
def decidxStart (s : State) : State :=
  if s.op0 ∈ Config.wordCounts then
    match collect s.entryIndex 0 s.op0 with
    | .ok idx => s.reconstructStart idx s.op0
    | .error p => s.raiseAt .outOfRange p
  else s.complete .invalidWordCount

/-- DECODE (44_codec_decode.md R223). -/
def execDecode (s : State) : Host.Outcome State Fault Refusal :=
  .next
    (match s.point with
    | .start => decodeStart s
    | .afterHash => s.reconstructFinish s.op0)

/-- DECIDX (44_codec_decode.md R225). -/
def execDecidx (s : State) : Host.Outcome State Fault Refusal :=
  .next
    (match s.point with
    | .start => decidxStart s
    | .afterHash => s.reconstructFinish s.op0)

end Sys2Proof.Machine
end

