-- ==== Sys2Proof/Machine/CodecEncode.lean ====
section
/-! DEFINITION. ENCODE: key to word indices and words (43_codec_encode.md R200 to R208), in the
source's pipeline with LSB-first extraction (90_conflicts.md C1). The FSM takes two steps: the checks
with the hash request, and, after the acknowledge, the rest with the completion (45_control.md R254;
log 2). -/

namespace Sys2Proof.Machine

/-- EXT after steps 2 and 3 of R203: `key ‖ d0`, the bits of each of these bytes reversed, zeros after
them (R202, R203). -/
def encodeExt (key : List Byte) (d0 : Byte) : Vector Byte 33 :=
  Vector.ofFn fun j => ((key ++ [d0]).map rev8).getD j.val 0#8

/-- GRP for group `i`: a fresh 2-byte buffer with stream bits `11i` to `11i+10` right-justified,
LSB-first (R203 step 5). -/
def encodeGroup (ext : Vector Byte 33) (i : Nat) : Vector Byte 2 :=
  bufferExtract (Vector.replicate 2 0#8) 0 (byteAt ext) (11 * i) (11 * i + 11) true .lsb

/-- The index of group `i` (R203 step 5, 42_bitorder.md R192). -/
def encodeIndex (ext : Vector Byte 33) (i : Nat) : Nat :=
  let grp := encodeGroup ext i
  fixGroup (byteAt grp 0) (byteAt grp 1)

/-- The indices of all `nw` groups. -/
def encodeIndices (ext : Vector Byte 33) (nw : Nat) : List Nat :=
  (List.range nw).map (encodeIndex ext)

/-- The 48 bytes of the IDX region: the indices little-endian, then zeros (R205). -/
def idxRegion (idx : List Nat) : List Byte :=
  (List.range Config.maxWords).flatMap fun i =>
    match idx[i]? with
    | some v => le16Bytes v
    | none => [0#8, 0#8]

/-- The 192 bytes of the WORDS region: the ROM slots of the indices, then zeros (R205). -/
def wordsRegion (rom : Rom) (idx : List Nat) : List Byte :=
  (List.range Config.maxWords).flatMap fun i =>
    match idx[i]? with
    | some v => (romSlot rom v).toList
    | none => List.replicate 8 0#8

/-- The outputs of ENCODE in BUF (R205). -/
def encodeOutputs (rom : Rom) (buf : Memory) (idx : List Nat) : Memory :=
  (buf.writeBytes Config.idxBase (idxRegion idx)).writeBytes Config.wordsBase (wordsRegion rom idx)

/-- ENCODE up to its hash request (R203, steps 1 and 2). -/
def encodeStart (s : State) : State :=
  if s.romOk = false then s.complete .romInvalid
  else if s.op0 ∈ Config.keyLens then s.hashRequest (s.keyBytes s.op0)
  else s.complete .invalidKeyLength

/-- ENCODE's working buffers after its group loop: EXT, the last GRP and the group counter (R203;
log 11). -/
def State.encodeWork (s : State) : State :=
  let ext := encodeExt (s.keyBytes s.op0) s.d0l
  let nw := nrWords s.op0
  { s with ext := ext, grp := encodeGroup ext (nw - 1), group := Fin.ofNat 25 nw }

/-- The word indices ENCODE computes (R203 step 5). -/
def State.encodeIdx (s : State) : List Nat :=
  encodeIndices (encodeExt (s.keyBytes s.op0) s.d0l) (nrWords s.op0)

/-- ENCODE from the acknowledge to its completion (R203, steps 2 to 6). KEY cannot have changed since
the request (20_memory.md R97; log 16). The InvalidWordIndex check stands as the rule has it, and never
fires (R206). -/
def encodeFinish (s : State) : State :=
  if s.encodeIdx.any (fun v => decide (Config.dictSize ≤ v)) then
    s.encodeWork.complete .invalidWordIndex
  else
    { s.encodeWork with
      buf := encodeOutputs s.rom s.buf s.encodeIdx,
      result0 := BitVec.ofNat 32 (nrWords s.op0),
      result1 := result1Word 0#8 (s.d0l &&& csMask (csLenOfKey s.op0)) (csLenOfKey s.op0) 0 }.complete
      .none

/-- ENCODE (43_codec_encode.md R203). -/
def execEncode (s : State) : Host.Outcome State Fault Refusal :=
  .next
    (match s.point with
    | .start => encodeStart s
    | .afterHash => encodeFinish s)

end Sys2Proof.Machine
end

