-- ==== Sys2Proof/Machine/Dictionary.lean ====
section
/-! DEFINITION. The dictionary commands DWORD, DINDEX and ROMCHK (40_dictionary.md R153 to R158). -/

namespace Sys2Proof.Machine

/-- A slot written to WOUT and its index to RESULT0 (40_dictionary.md R154, R156). -/
def State.deliverWord (s : State) (i : Nat) : State :=
  { s with buf := s.buf.writeBytes Config.woutBase (romSlot s.rom i).toList,
           result0 := BitVec.ofNat 32 i }

/-- DWORD: index to word (40_dictionary.md R154). -/
def execDword (s : State) : Host.Outcome State Fault Refusal :=
  .next
    (if s.romOk = false then s.complete .romInvalid
    else if Config.dictSize ≤ s.op0 then s.complete .outOfRange
    else (s.deliverWord s.op0).complete .none)

/-- DINDEX: word to index, and the canonical word (40_dictionary.md R156). -/
def execDindex (s : State) : Host.Outcome State Fault Refusal :=
  .next
    (if s.romOk = false then s.complete .romInvalid
    else
      match romLookup s.rom s.winWord with
      | none => s.complete .notFound
      | some i => (s.deliverWord i).complete .none)

/-- ROMCHK: rerun the ROM validation (40_dictionary.md R158). -/
def execRomchk (s : State) : Host.Outcome State Fault Refusal :=
  .next (s.recordRomCheck.complete (if romValid s.rom then .none else .romInvalid))

end Sys2Proof.Machine
end

