-- ==== Sys2Proof/Machine/Dispatch.lean ====
section
/-! DEFINITION. One arm per command of the opcode map (30_encoding.md R121). -/

namespace Sys2Proof.Machine

def exec (i : Instr) (s : State) : Host.Outcome State Fault Refusal :=
  match i with
  | .nop => Sys2Proof.Machine.execNop s
  | .clear => Sys2Proof.Machine.execClear s
  | .bitx rj ord => Sys2Proof.Machine.execBitx rj ord s
  | .brev => Sys2Proof.Machine.execBrev s
  | .dword => Sys2Proof.Machine.execDword s
  | .dindex => Sys2Proof.Machine.execDindex s
  | .encode => Sys2Proof.Machine.execEncode s
  | .decode => Sys2Proof.Machine.execDecode s
  | .decidx => Sys2Proof.Machine.execDecidx s
  | .romchk => Sys2Proof.Machine.execRomchk s

end Sys2Proof.Machine
end

