-- ==== Sys2Proof/Machine/Step.lean ====
section
/-! DEFINITION. One step of the machine: the next event of the agenda, or, with the agenda empty, the
FSM's own step (45_control.md R250, 20_memory.md R94; log 1). -/

namespace Sys2Proof.Machine

/-- The FSM's step (45_control.md R250): the end of the ROM check in CHECK, the command in CMDL in EXEC,
nothing in IDLE and HASH_WAIT, where the FSM has no enabled step (log 13). -/
def fsmStep (s : State) : Host.Outcome State Fault Refusal :=
  match s.phase with
  | .check => .next (finishRomCheck s)
  | .idle => .next s
  | .hashWait => .next s
  | .exec =>
    match decodeWord s.cmdl with
    | .ok i => exec i s
    | .error _ => execIllegal s

/-- The step of one event (45_control.md R250). -/
def eventStep (e : Event) (s : State) : Host.Outcome State Fault Refusal :=
  match e with
  | .host t => .next (hostTxn t s)
  | .fsm => fsmStep s
  | .internal => .next s
  | .hashAck => .next s.hashAnswer
  | .staleAck => if s.hashReq then .refused .staleAcknowledge else .next s
  | .hardReset => .next s.doReset
  | .powerOn => .next s.doPowerOn
  | .hostInReset _ => .refused .hostDuringReset

/-- One step: the oldest event of the agenda is taken off and performed; with none left the FSM
moves. -/
def step (s : State) : Host.Outcome State Fault Refusal :=
  match s.agenda with
  | [] => fsmStep s
  | e :: rest => eventStep e { s with agenda := rest }

/-- The state in which the very next step runs the command word `w`: the word is accepted as a host
write to CMD in IDLE accepts it (45_control.md R251), with no other agent's event before the FSM's step.
A command is loaded in no other way (log 10). -/
def State.withFetchWord (s : State) (nbits w : Nat) : State :=
  { s with agenda := [] }.accept (BitVec.ofNat 32 (w % 2 ^ nbits))

end Sys2Proof.Machine
end

