-- ==== Sys2Proof/Safety.lean ====
section
/-! DEFINITION. What counts as a safe run, and the terms the claims are stated in: the invariant of the
machine, the agendas the spec has runs for, and the closed forms of the codec. -/

namespace Sys2Proof.Machine

/-! ### The invariant -/

/-- What the codec commands hold while their hash request is outstanding or answered: the checks before
the request have passed (43_codec_encode.md R203, 44_codec_decode.md R223, R225). -/
def CodecReady (s : State) : Prop :=
  (decodeWord s.cmdl = .ok .encode ∧ s.romOk = true ∧ s.op0 ∈ Config.keyLens)
    ∨ (decodeWord s.cmdl = .ok .decode ∧ s.romOk = true ∧ s.op0 ∈ Config.wordCounts)
    ∨ (decodeWord s.cmdl = .ok .decidx ∧ s.op0 ∈ Config.wordCounts)

/-- The invariant every step keeps. -/
structure Inv (s : State) : Prop where
  /-- BUF is in canonical form: no cell past its 512 bytes, one cell per address (10_state.md R43). -/
  bufCanonical : s.buf.wf
  /-- `hash_req` is 1 exactly in HASH_WAIT (60_exceptions.md R277, 45_control.md R253). -/
  requestIffWaiting : s.hashReq = s.phase.isHashWait
  /-- The ROM has been checked exactly when the phase has left CHECK (40_dictionary.md R152). -/
  checkedIffLeftCheck : s.romChecked = true ↔ s.phase ≠ .check
  /-- ROM_OK is the answer of the check, once there is one (40_dictionary.md R151). -/
  romOkIsValidity : s.romOk = (s.romChecked && romValid s.rom)
  /-- While BUSY, RESULT0, RESULT1 and ERRCODE read 0 (70_reset_and_hazards.md R311) and DONE is 0. -/
  quietWhileBusy : s.busy = true →
    s.result0 = 0#32 ∧ s.result1 = 0#32 ∧ s.errCode = .none ∧ s.done = false
  /-- InvalidWordIndex is never produced (60_exceptions.md R261). -/
  noInvalidWordIndex : s.errCode ≠ .invalidWordIndex
  /-- LAST_OP is the opcode byte of the command in progress (10_state.md R36). -/
  lastOpIsOpcode : s.phase = .exec ∨ s.phase = .hashWait → s.lastOp = s.cmdl.extractLsb' 0 8
  /-- Only a codec command whose checks passed waits for the hash or goes on after it. -/
  waitingIsCodec : s.phase = .hashWait ∨ (s.phase = .exec ∧ s.point = .afterHash) → CodecReady s
  /-- The message on the port of an outstanding request has a legal key length (60_exceptions.md R276). -/
  portLength : s.phase = .hashWait → s.hashLen.toNat ∈ Config.keyLens

/-! ### The runs the spec has -/

/-- An event the spec has a run for in every state: no transaction while `rst_n` is low (U25) and no
acknowledge of an abandoned request (U26). -/
def Event.admitted : Event → Bool
  | .hostInReset _ => false
  | .staleAck => false
  | .host _ => true
  | .fsm => true
  | .internal => true
  | .hashAck => true
  | .hardReset => true
  | .powerOn => true

/-- A reset event: `rst_n`, power-on, or a write to CTRL with SOFT_RST = 1
(70_reset_and_hazards.md R300, R301, R305). -/
def Event.isReset : Event → Bool
  | .hardReset => true
  | .powerOn => true
  | .host (.write a d) => decide (decodeAddr a = .register .ctrl) && d.getLsbD 1
  | .host (.read _) => false
  | .fsm => false
  | .internal => false
  | .hashAck => false
  | .staleAck => false
  | .hostInReset _ => false

/-! ### The closed forms of the codec -/

/-- The bit of a natural at a weight, as 0 or 1. -/
def natBit (v w : Nat) : Nat := v / 2 ^ w % 2

/-- The bytes of a list as a byte array, zeros after it. -/
def listBytes (l : List Byte) (i : Nat) : Byte := l.getD i 0#8

/-- The WordIndex of group `i` of a byte string: bits `11i` to `11i+10` of its MSB-first stream, read
as an integer (43_codec_encode.md R204). -/
def streamIndex (e : List Byte) (i : Nat) : Nat :=
  ((List.range 11).map fun j => (bitGet (listBytes e) (11 * i + j) .msb).toNat * 2 ^ (10 - j)).sum

/-- Bit `n` of the stream of the word indices, `t(n)` of 44_codec_decode.md R224. -/
def indexStream (idx : List Nat) (n : Nat) : Nat :=
  if n < 11 * idx.length then natBit (idx.getD (n / 11) 0) (10 - n % 11) else 0

/-- Byte `k` of the stream of the word indices (44_codec_decode.md R224). -/
def streamByte (idx : List Nat) (k : Nat) : Byte :=
  BitVec.ofNat 8 ((List.range 8).map fun b => indexStream idx (8 * k + b) * 2 ^ (7 - b)).sum

end Sys2Proof.Machine
end

