-- ==== Sys2Proof/Certificates/Slice0/Obligations.lean ====
section
/-! DEFINITION. The statements for the provers. Where a statement says what a step or a command answers,
it names the whole next state: every field the record update does not list is unchanged. -/

open Sys2Proof Sys2Proof.Machine

/-! ### Encoding -/

/-- 30_encoding.md R121: the opcode map, with the 13 words R122 counts, and the reserved opcodes. -/
def Obligations.OpcodeMapDecodesEachWord : Prop :=
  decodeWord 0x00000000#32 = .ok .nop
    ∧ decodeWord 0x00000001#32 = .ok .clear
    ∧ decodeWord 0x00000002#32 = .ok (.bitx false .msb)
    ∧ decodeWord 0x00000102#32 = .ok (.bitx true .msb)
    ∧ decodeWord 0x00000202#32 = .ok (.bitx false .lsb)
    ∧ decodeWord 0x00000302#32 = .ok (.bitx true .lsb)
    ∧ decodeWord 0x00000003#32 = .ok .brev
    ∧ decodeWord 0x00000004#32 = .ok .dword
    ∧ decodeWord 0x00000005#32 = .ok .dindex
    ∧ decodeWord 0x00000006#32 = .ok .encode
    ∧ decodeWord 0x00000007#32 = .ok .decode
    ∧ decodeWord 0x00000008#32 = .ok .decidx
    ∧ decodeWord 0x00000009#32 = .ok .romchk
    ∧ ∀ (c : Word) (i : Instr), 0x0A ≤ (c.extractLsb' 0 8).toNat → decodeWord c ≠ .ok i

/-- Decoding and encoding are inverse, for every command and every field value, and for every word
(30_encoding.md R120, R127). -/
def Obligations.DecodingInvertsEncoding : Prop :=
  (∀ i : Instr, i.wellFormed = true → decodeWord (encodeWord i) = .ok i)
    ∧ ∀ (c : Word) (i : Instr), decodeWord c = .ok i → encodeWord i = c

/-- 30_encoding.md R127, with the predicate of R122 written out and its 13 words listed: a word decodes
to a command exactly when it is valid, and otherwise it is illegal. -/
def Obligations.DecodableWordsAreExactlyTheValidOnes : Prop :=
  ∀ c : Word,
    ((∃ i, decodeWord c = .ok i) ↔
        ((c.extractLsb' 0 8 = 0x02#8 ∧ c.extractLsb' 10 22 = 0#22)
          ∨ (c.extractLsb' 0 8 ∈ [0x00#8, 0x01#8, 0x03#8, 0x04#8, 0x05#8, 0x06#8, 0x07#8, 0x08#8, 0x09#8]
              ∧ c.extractLsb' 8 24 = 0#24)))
      ∧ ((∃ i, decodeWord c = .ok i) ↔
          c ∈ [0x000#32, 0x001#32, 0x002#32, 0x102#32, 0x202#32, 0x302#32, 0x003#32, 0x004#32, 0x005#32,
            0x006#32, 0x007#32, 0x008#32, 0x009#32])
      ∧ ((∃ i, decodeWord c = .ok i) ∨ ∃ why, decodeWord c = .error why)

/-! ### Steps and the command life cycle -/

/-- In EXEC the FSM's step, taken by default or as the event `fsm`, is the latched command's meaning
(45_control.md R250, R254; the agenda is the model's, log 1), and a command word loaded with
`withFetchWord` (log 10) is the one the next step runs. -/
def Obligations.StepRunsTheDecodedCommand : Prop :=
  (∀ (s : State) (i : Instr), s.phase = .exec → decodeWord s.cmdl = .ok i →
      (s.agenda = [] → step s = exec i s)
        ∧ ∀ rest, s.agenda = .fsm :: rest → step s = exec i { s with agenda := rest })
    ∧ ∀ (s : State) (i : Instr),
        step (s.withFetchWord 32 (encodeWord i).toNat)
            = exec i (s.withFetchWord 32 (encodeWord i).toNat)
          ∧ (s.withFetchWord 32 (encodeWord i).toNat).cmdl = encodeWord i

/-- 45_control.md R251: the accept of a command word in IDLE, and the BUSY bit after it. -/
def Obligations.AcceptLatchesCommandAndOperands : Prop :=
  ∀ (s : State) (c : Word) (rest : List Event), s.phase = .idle →
    s.agenda = .host (.write 0x010#10 c) :: rest →
    ∃ t, step s = .next t
      ∧ t = { s with
          cmdl := c, argl0 := s.arg0, argl1 := s.arg1, argl2 := s.arg2, result0 := 0#32,
          result1 := 0#32, done := false, errCode := .none, lastOp := c.extractLsb' 0 8,
          phase := .exec, point := .start, agenda := rest, reply := some ⟨.okay, none⟩ }
      ∧ t.statusWord.getLsbD 0 = true

/-- 45_control.md R252: a write to CMD while BUSY sets CMD_OVR and does nothing else. -/
def Obligations.CommandWriteWhileBusyIsDropped : Prop :=
  ∀ (s : State) (c : Word) (rest : List Event), s.phase ≠ .idle →
    s.agenda = .host (.write 0x010#10 c) :: rest →
    step s = .next { s with cmdOvr := true, agenda := rest, reply := some ⟨.okay, none⟩ }

/-- 45_control.md R256: a word that no command has is accepted and completes with BadOpcode, whatever the
ROM, BUF and the operands hold. -/
def Obligations.IllegalWordCompletesWithBadOpcode : Prop :=
  ∀ (s : State) (c : Word) (rest : List Event), s.phase = .idle → (∀ i, decodeWord c ≠ .ok i) →
    s.agenda = .host (.write 0x010#10 c) :: .fsm :: rest →
    ∃ t, step s = .next t
      ∧ step t = .next { s with
          cmdl := c, argl0 := s.arg0, argl1 := s.arg1, argl2 := s.arg2, result0 := 0#32,
          result1 := 0#32, done := true, errCode := .badOpcode, lastOp := c.extractLsb' 0 8,
          hashReq := false, phase := .idle, point := .start, agenda := rest,
          reply := some ⟨.okay, none⟩ }

/-- 45_control.md R253, R254: a command's step either ends it, with DONE set, `hash_req` 0 and the phase
IDLE, or issues its hash request; only the three codec commands before their hash answer do the latter.
The request changes the hash port, the working buffers, the group counter and the phase, and nothing
else: every register, BUF and every STATUS field but those of the phase are as before. -/
def Obligations.CommandStepCompletesOrAsksTheHash : Prop :=
  ∀ (i : Instr) (s : State), ∃ t, exec i s = .next t
    ∧ ((t.done = true ∧ t.hashReq = false ∧ t.phase = .idle)
        ∨ ((i = .encode ∨ i = .decode ∨ i = .decidx) ∧ s.point = .start
            ∧ t = { s with ext := t.ext, grp := t.grp, group := t.group, hashLen := t.hashLen,
                           hashMsg := t.hashMsg, hashReq := true, phase := .hashWait }))

/-- 10_state.md R45: the phase moves only by the end of the ROM check, an accept, a command's step, the
hash unit's acknowledge and a reset. `head?` is the event the step performs, none being the FSM's own
turn (log 1). -/
def Obligations.PhaseMovesOnlyAsSpecified : Prop :=
  ∀ s t : State, Inv s → step s = .next t →
    t.phase = s.phase
      ∨ (s.phase = .check ∧ t.phase = .idle ∧ (s.agenda.head? = none ∨ s.agenda.head? = some .fsm))
      ∨ (s.phase = .idle ∧ t.phase = .exec
          ∧ ∃ c, s.agenda.head? = some (.host (.write 0x010#10 c)))
      ∨ (s.phase = .exec ∧ (t.phase = .idle ∨ t.phase = .hashWait)
          ∧ (s.agenda.head? = none ∨ s.agenda.head? = some .fsm))
      ∨ (s.phase = .hashWait ∧ t.phase = .exec ∧ s.agenda.head? = some .hashAck)
      ∨ (t.phase = .check ∧ ∃ e, s.agenda.head? = some e ∧ e.isReset = true)

/-- A command accepted in IDLE has completed (45_control.md R253) once the FSM, the hash unit and the FSM
again have had their turns. That one turn on each side of the acknowledge is enough is the MODEL's step
count (log 2, DEDUCED from R254) on the model's agenda (log 1): R254 leaves the number of EXEC steps
unspecified and 70_reset_and_hazards.md R316 gives finite time and no count. -/
def Obligations.AcceptedCommandCompletesOnceTheHashAnswers : Prop :=
  ∀ (s : State) (c : Word) (rest : List Event), s.phase = .idle →
    s.agenda = .host (.write 0x010#10 c) :: .fsm :: .hashAck :: .fsm :: rest →
    ∃ t, Sys2Proof.core.run 4 s = .next t
      ∧ t.phase = .idle ∧ t.done = true ∧ t.hashReq = false ∧ t.lastOp = c.extractLsb' 0 8
      ∧ t.agenda = rest

/-! ### NOP, CLEAR, BREV, BITX -/

/-- 45_control.md R255: NOP only completes. -/
def Obligations.NopOnlyCompletes : Prop :=
  decodeWord 0x00000000#32 = .ok .nop
    ∧ ∀ s : State,
        exec .nop s = .next { s with errCode := .none, done := true, hashReq := false, phase := .idle }

/-- 41_bitpacker.md R176: CLEAR zeroes its byte range, or raises BadArgument and writes nothing. -/
def Obligations.ClearZeroesItsRange : Prop :=
  decodeWord 0x00000001#32 = .ok .clear
    ∧ ∀ s : State,
        (s.argl0.toNat + s.argl1.toNat ≤ 512 →
          ∃ m, exec .clear s = .next { s with
              buf := m, errCode := .none, done := true, hashReq := false, phase := .idle }
            ∧ ∀ a, m.read a =
                if s.argl0.toNat ≤ a ∧ a < s.argl0.toNat + s.argl1.toNat then 0x00#8
                else s.buf.read a)
          ∧ (512 < s.argl0.toNat + s.argl1.toNat →
              exec .clear s = .next { s with
                errCode := .badArgument, done := true, hashReq := false, phase := .idle })

/-- 42_bitorder.md R190: bit `j` of `rev8 v` is bit `7 - j` of `v`, in the form with the nibble table
too, and twice is the identity. -/
def Obligations.ByteReversalIsAnInvolution : Prop :=
  ∀ v : Byte,
    (∀ j < 8, (rev8 v).getLsbD j = v.getLsbD (7 - j))
      ∧ (rev8 v).toNat =
          16 * [0x0, 0x8, 0x4, 0xC, 0x2, 0xA, 0x6, 0xE, 0x1, 0x9, 0x5, 0xD, 0x3, 0xB, 0x7, 0xF].getD
              (v.toNat % 16) 0
            + [0x0, 0x8, 0x4, 0xC, 0x2, 0xA, 0x6, 0xE, 0x1, 0x9, 0x5, 0xD, 0x3, 0xB, 0x7, 0xF].getD
              (v.toNat / 16) 0
      ∧ rev8 (rev8 v) = v

/-- 42_bitorder.md R191: BREV reverses the bits of each byte of its range, twice restores BUF, and a
range outside BUF is BadArgument. -/
def Obligations.BrevReversesEachByte : Prop :=
  decodeWord 0x00000003#32 = .ok .brev
    ∧ ∀ s : State,
        (s.argl0.toNat + s.argl1.toNat ≤ 512 →
          ∃ m, exec .brev s = .next { s with
              buf := m, errCode := .none, done := true, hashReq := false, phase := .idle }
            ∧ (∀ a, m.read a =
                if s.argl0.toNat ≤ a ∧ a < s.argl0.toNat + s.argl1.toNat then rev8 (s.buf.read a)
                else s.buf.read a)
            ∧ ∃ t, exec .brev { s with buf := m } = .next t ∧ ∀ a, t.buf.read a = s.buf.read a)
          ∧ (512 < s.argl0.toNat + s.argl1.toNat →
              exec .brev s = .next { s with
                errCode := .badArgument, done := true, hashReq := false, phase := .idle })

/-- 41_bitpacker.md R173 (with the overlap check of R174 written out): a BITX whose operands pass ORs
each source bit into its destination bit and changes no other bit; any other BITX is BadArgument with
nothing written. `N` bits from FROM go to DST + S, with S the padding of the container. -/
def Obligations.BitxOrsTheSpanOrRefuses : Prop :=
  (∀ rj lsb : Bool,
      decodeWord (0x00000002#32 ||| (BitVec.ofBool rj).setWidth 32 <<< 8
          ||| (BitVec.ofBool lsb).setWidth 32 <<< 9)
        = .ok (.bitx rj (if lsb then .lsb else .msb)))
    ∧ ∀ (rj : Bool) (ord : BitOrder) (s : State) (lo hi dst n c p : Nat),
        lo = s.argl0.toNat → hi = s.argl1.toNat → dst = s.argl2.toNat →
        n = hi - lo → c = (if rj then 8 * ((n + 7) / 8) else n) → p = c - n →
        ((lo < hi ∧ hi ≤ 4096 ∧ dst + c ≤ 4096
            ∧ ((hi - 1) / 8 < (dst + p) / 8 ∨ (dst + p + n - 1) / 8 < lo / 8)) →
          ∃ m, exec (.bitx rj ord) s = .next { s with
              buf := m, errCode := .none, done := true, hashReq := false, phase := .idle }
            ∧ (∀ x, bitGet m.read x ord =
                (bitGet s.buf.read x ord
                  || (decide (dst + p ≤ x ∧ x < dst + p + n)
                      && bitGet s.buf.read (lo + (x - (dst + p))) ord)))
            ∧ ∀ a, (a < (dst + p) / 8 ∨ (dst + p + n - 1) / 8 < a) → m.read a = s.buf.read a)
          ∧ ((hi ≤ lo ∨ 4096 < hi ∨ 4096 < dst + c
              ∨ ¬ ((hi - 1) / 8 < (dst + p) / 8 ∨ (dst + p + n - 1) / 8 < lo / 8)) →
            exec (.bitx rj ord) s = .next { s with
              errCode := .badArgument, done := true, hashReq := false, phase := .idle })

/-- 41_bitpacker.md R175, its three laws of a BITX that completes without error; V is the source span
read in order. -/
def Obligations.CompletedBitxObeysItsLaws : Prop :=
  ∀ (rj : Bool) (ord : BitOrder) (s t : State) (lo dst n p v : Nat),
    exec (.bitx rj ord) s = .next t → t.errCode = .none →
    lo = s.argl0.toNat → dst = s.argl2.toNat → n = s.argl1.toNat - lo →
    p = (if rj then 8 * ((n + 7) / 8) else n) - n →
    v = ((List.range n).map fun k =>
          (bitGet s.buf.read (lo + k) ord).toNat * 2 ^ (n - 1 - k)).sum →
    (∀ x, ¬ (dst + p ≤ x ∧ x < dst + p + n) → bitGet t.buf.read x ord = bitGet s.buf.read x ord)
      ∧ (∀ k < n, bitGet t.buf.read (dst + p + k) ord =
            (bitGet s.buf.read (dst + p + k) ord || bitGet s.buf.read (lo + k) ord))
      ∧ (ord = .msb → rj = true → dst % 8 = 0 → n ≤ 8 → s.buf.read (dst / 8) = 0#8 →
          (t.buf.read (dst / 8)).toNat = v)
      ∧ (ord = .msb → rj = true → dst % 8 = 0 → 8 < n → n ≤ 16 → s.buf.read (dst / 8) = 0#8 →
          s.buf.read (dst / 8 + 1) = 0#8 →
          (t.buf.read (dst / 8)).toNat * 256 + (t.buf.read (dst / 8 + 1)).toNat = v)

/-! ### The dictionary -/

/-- 40_dictionary.md R151: what `romValid` says, slot by slot, and that the words of a valid ROM are
distinct. -/
def Obligations.RomValidityIsTheStatedPredicate : Prop :=
  ∀ rom : Rom,
    (romValid rom = true ↔
        (∀ (i : Nat) (h : i < 2048),
            rom[i].toList = slotOf (wordOf rom[i].toList) ∧ 1 ≤ (wordOf rom[i].toList).length)
          ∧ ∀ (i : Nat) (h : i + 1 < 2048),
              strLt (wordOf rom[i].toList) (wordOf rom[i + 1].toList) = true)
      ∧ (romValid rom = true → ∀ (i j : Nat) (hi : i < 2048) (hj : j < 2048),
          wordOf rom[i].toList = wordOf rom[j].toList → i = j)

/-- 00_scope.md R17: one word comes before another when it is a proper beginning of it, or has the
smaller byte where the two first differ. -/
def Obligations.WordOrderIsByteLexicographic : Prop :=
  ∀ a b : List Byte,
    strLt a b = true ↔
      (∃ x xs, b = a ++ x :: xs)
        ∨ ∃ c x xs y ys, a = c ++ x :: xs ∧ b = c ++ y :: ys ∧ x.toNat < y.toNat

/-- 40_dictionary.md R155: over a valid ROM `lookup` is the unique index whose slot holds the word, or
nothing. -/
def Obligations.LookupIsTheUniqueMatch : Prop :=
  ∀ rom : Rom, romValid rom = true → ∀ w : List Byte,
    (∀ i, romLookup rom w = some i ↔ ∃ h : i < 2048, wordOf (rom[i]'h).toList = w)
      ∧ (romLookup rom w = none ↔ ∀ (i : Nat) (h : i < 2048), wordOf rom[i].toList ≠ w)
      ∧ ∀ (i j : Nat) (hi : i < 2048) (hj : j < 2048),
          wordOf rom[i].toList = w → wordOf rom[j].toList = w → i = j

/-- 40_dictionary.md R152: the end of the reset ROM check, its internal steps, and CMD during it. -/
def Obligations.RomCheckEndsInIdle : Prop :=
  ∀ s : State, s.phase = .check →
    (s.agenda = [] →
        step s = .next { s with romOk := romValid s.rom, romChecked := true, phase := .idle })
      ∧ (∀ rest, s.agenda = .fsm :: rest →
          step s = .next { s with
            romOk := romValid s.rom, romChecked := true, phase := .idle, agenda := rest })
      ∧ (∀ rest, s.agenda = .internal :: rest → step s = .next { s with agenda := rest })
      ∧ ∀ c rest, s.agenda = .host (.write 0x010#10 c) :: rest →
          step s = .next { s with cmdOvr := true, agenda := rest, reply := some ⟨.okay, none⟩ }

/-- 40_dictionary.md R158: ROMCHK records the validity of the ROM and raises RomInvalid without it. -/
def Obligations.RomchkRecordsValidity : Prop :=
  decodeWord 0x00000009#32 = .ok .romchk
    ∧ ∀ s : State,
        exec .romchk s = .next { s with
          romOk := romValid s.rom, romChecked := true,
          errCode := if romValid s.rom then .none else .romInvalid,
          done := true, hashReq := false, phase := .idle }

/-- 40_dictionary.md R154: DWORD copies the slot to WOUT and the index to RESULT0; RomInvalid and
OutOfRange write nothing. -/
def Obligations.DwordDeliversTheSlot : Prop :=
  decodeWord 0x00000004#32 = .ok .dword
    ∧ ∀ s : State,
        (s.romOk = false →
            exec .dword s = .next { s with
              errCode := .romInvalid, done := true, hashReq := false, phase := .idle })
          ∧ (s.romOk = true → 2048 ≤ s.argl0.toNat →
              exec .dword s = .next { s with
                errCode := .outOfRange, done := true, hashReq := false, phase := .idle })
          ∧ (s.romOk = true → ∀ h : s.argl0.toNat < 2048,
              ∃ m, exec .dword s = .next { s with
                  buf := m, result0 := s.argl0, errCode := .none, done := true, hashReq := false,
                  phase := .idle }
                ∧ (∀ (j : Nat) (hj : j < 8), m.read (0x058 + j) = (s.rom[s.argl0.toNat]'h)[j])
                ∧ ∀ a, (a < 0x058 ∨ 0x060 ≤ a) → m.read a = s.buf.read a)

/-- 40_dictionary.md R156: DINDEX looks the word of WIN up, copies its slot to WOUT and its index to
RESULT0; RomInvalid and NotFound write nothing. -/
def Obligations.DindexFindsTheWord : Prop :=
  decodeWord 0x00000005#32 = .ok .dindex
    ∧ ∀ s : State,
        (s.romOk = false →
            exec .dindex s = .next { s with
              errCode := .romInvalid, done := true, hashReq := false, phase := .idle })
          ∧ (s.romOk = true → romLookup s.rom (wordOf (s.buf.readBytes 0x050 8)) = none →
              exec .dindex s = .next { s with
                errCode := .notFound, done := true, hashReq := false, phase := .idle })
          ∧ (∀ i, s.romOk = true → romLookup s.rom (wordOf (s.buf.readBytes 0x050 8)) = some i →
              ∃ (h : i < 2048) (m : Memory), exec .dindex s = .next { s with
                  buf := m, result0 := BitVec.ofNat 32 i, errCode := .none, done := true,
                  hashReq := false, phase := .idle }
                ∧ (∀ (j : Nat) (hj : j < 8), m.read (0x058 + j) = (s.rom[i]'h)[j])
                ∧ ∀ a, (a < 0x058 ∨ 0x060 ≤ a) → m.read a = s.buf.read a)

/-- 40_dictionary.md R157, its two laws over a valid ROM. -/
def Obligations.DictionaryRoundTrips : Prop :=
  (∀ s t u : State, romValid s.rom = true → s.romOk = true → s.argl0.toNat < 2048 →
      exec .dword s = .next t → u.rom = s.rom → u.romOk = true →
      (∀ j < 8, u.buf.read (0x050 + j) = t.buf.read (0x058 + j)) →
      ∃ v, exec .dindex u = .next v ∧ v.errCode = .none ∧ v.result0 = s.argl0)
    ∧ ∀ (s : State) (i : Nat), romValid s.rom = true → s.romOk = true →
        romLookup s.rom (wordOf (s.buf.readBytes 0x050 8)) = some i →
        ∃ (h : i < 2048) (v : State), exec .dindex s = .next v
          ∧ (∀ (j : Nat) (hj : j < 8), v.buf.read (0x058 + j) = (s.rom[i]'h)[j])
          ∧ wordOf (s.rom[i]'h).toList = wordOf (s.buf.readBytes 0x050 8)

/-! ### The codec -/

/-- 43_codec_encode.md R200, 44_codec_decode.md R220: the length tables, and that they are inverse. -/
def Obligations.LengthTablesAreInverse : Prop :=
  [16, 20, 24, 28, 32].map nrWords = [12, 15, 18, 21, 24]
    ∧ [16, 20, 24, 28, 32].map csLenOfKey = [4, 5, 6, 7, 8]
    ∧ [12, 15, 18, 21, 24].map keyLenOfWords = [16, 20, 24, 28, 32]
    ∧ [12, 15, 18, 21, 24].map csLenOfWords = [4, 5, 6, 7, 8]
    ∧ (∀ n, nrWords n = (n * 8 + 10) / 11 ∧ csLenOfKey n = n * 8 / 32)
    ∧ (∀ n, keyLenOfWords n = (n * 11 - 1) / 8 ∧ csLenOfWords n = n * 11 - (n * 11 - 1) / 8 * 8)
    ∧ ∀ n ∈ [16, 20, 24, 28, 32],
        11 * nrWords n = 8 * n + csLenOfKey n ∧ 11 * nrWords n ≤ 8 * (n + 1)
          ∧ keyLenOfWords (nrWords n) = n ∧ csLenOfWords (nrWords n) = n / 4

/-- 43_codec_encode.md R201: `csmask(n)` keeps the top `n` bits of a byte. -/
def Obligations.ChecksumMaskKeepsTheTopBits : Prop :=
  [4, 5, 6, 7, 8].map csMask = [0xF0#8, 0xF8#8, 0xFC#8, 0xFE#8, 0xFF#8]
    ∧ ∀ n ∈ [4, 5, 6, 7, 8], ∀ (d : Byte), ∀ j < 8,
        (d &&& csMask n).getLsbD j = (d.getLsbD j && decide (8 - n ≤ j))

/-- 42_bitorder.md R192: `fix` is the low 11 bits of the corrected big-endian value, and `unfix` its
inverse on indices. -/
def Obligations.GroupFixupsAreInverse : Prop :=
  (∀ g0 g1 : Byte, fixGroup g0 g1 = ((rev8 g0).toNat * 256 + (rev8 g1).toNat) % 2048)
    ∧ ∀ v < 2048,
        (unfixGroup v)[0] = rev8 (BitVec.ofNat 8 (v / 256))
          ∧ (unfixGroup v)[1] = rev8 (BitVec.ofNat 8 (v % 256))
          ∧ fixGroup (unfixGroup v)[0] (unfixGroup v)[1] = v

/-- 43_codec_encode.md R204: the pipeline with reversals and LSB-first extraction gives the 11-bit
groups of `key ‖ d0` read MSB-first. -/
def Obligations.EncodeIndexIsTheStreamGroup : Prop :=
  ∀ (key : List Byte) (d0 : Byte) (i : Nat), key.length ∈ [16, 20, 24, 28, 32] →
    i < nrWords key.length →
    encodeIndex (encodeExt key d0) i = streamIndex (key ++ [d0]) i
      ∧ streamIndex (key ++ [d0]) i < 2048

/-- 43_codec_encode.md R203 up to the hash request: the two checks, and the request with the key on the
port, nothing the host sees being written. -/
def Obligations.EncodeChecksThenRequestsTheHash : Prop :=
  decodeWord 0x00000006#32 = .ok .encode
    ∧ ∀ s : State, s.point = .start →
        (s.romOk = false →
            exec .encode s = .next { s with
              errCode := .romInvalid, done := true, hashReq := false, phase := .idle })
          ∧ (s.romOk = true → s.argl0.toNat ∉ [16, 20, 24, 28, 32] →
              exec .encode s = .next { s with
                errCode := .invalidKeyLength, done := true, hashReq := false, phase := .idle })
          ∧ (s.romOk = true → s.argl0.toNat ∈ [16, 20, 24, 28, 32] →
              ∃ t, exec .encode s = .next t
                ∧ t = { s with hashLen := t.hashLen, hashMsg := t.hashMsg, hashReq := true,
                               phase := .hashWait }
                ∧ t.hashLen.toNat = s.argl0.toNat
                ∧ t.portMessage = (List.range s.argl0.toNat).map s.buf.read
                ∧ ∀ j, s.argl0.toNat ≤ j → t.hashMsg.extractLsb' (8 * j) 8 = 0#8)

/-- 43_codec_encode.md R203 from the acknowledge on, R205, R207, R208: with the digest byte in D0L, ENCODE
writes the indices of the groups of `key ‖ d0`, their ROM slots, zeros after both, RESULT0 = `nr_words`
and RESULT1 = CS_EXP and CS_LEN, and no other BUF byte. -/
def Obligations.EncodeWritesTheSentence : Prop :=
  ∀ (s : State) (n cl : Nat) (e : List Byte), s.point = .afterHash →
    s.argl0.toNat ∈ [16, 20, 24, 28, 32] →
    n = (s.argl0.toNat * 8 + 10) / 11 → cl = s.argl0.toNat / 4 →
    e = (List.range s.argl0.toNat).map s.buf.read ++ [s.d0l] →
    (s.argl0.toNat, n) ∈ [(16, 12), (20, 15), (24, 18), (28, 21), (32, 24)]
      ∧ ∃ (m : Memory) (ext : Vector Byte 33) (grp : Vector Byte 2) (g : Fin 25),
          exec .encode s = .next { s with
              buf := m, ext := ext, grp := grp, group := g, result0 := BitVec.ofNat 32 n,
              result1 := BitVec.ofNat 32 ((s.d0l &&& csMask cl).toNat * 2 ^ 8 + cl * 2 ^ 16),
              errCode := .none, done := true, hashReq := false, phase := .idle }
            ∧ (∀ i < 24, m.le16 (0x020 + 2 * i) = (if i < n then streamIndex e i else 0)
                ∧ m.le16 (0x020 + 2 * i) < 2048)
            ∧ (∀ i < 24, ∀ j < 8, m.read (0x100 + 8 * i + j) =
                if i < n then (romSlot s.rom (streamIndex e i)).toList.getD j 0#8 else 0#8)
            ∧ ∀ a, (a < 0x020 ∨ (0x050 ≤ a ∧ a < 0x100) ∨ 0x1C0 ≤ a) → m.read a = s.buf.read a

/-- 43_codec_encode.md R206, 60_exceptions.md R261: no command completes with InvalidWordIndex, and no
group leaves the index range, with or without the mask. -/
def Obligations.InvalidWordIndexIsNeverRaised : Prop :=
  (∀ (i : Instr) (s t : State), exec i s = .next t → t.phase = .idle → t.errCode ≠ .invalidWordIndex)
    ∧ ∀ (ext : Vector Byte 33) (i : Nat), encodeIndex ext i < 2048
        ∧ (rev8 (byteAt (encodeGroup ext i) 0)).toNat * 256
            + (rev8 (byteAt (encodeGroup ext i) 1)).toNat < 2048

/-- 44_codec_decode.md R224: the reconstruction of `nw` indices holds, byte by byte, the MSB-first stream
of the indices, and the received checksum byte is 0 below its top bits. -/
def Obligations.ReconstructionIsTheIndexStream : Prop :=
  ∀ (idx : List Nat) (nw : Nat), nw ∈ [12, 15, 18, 21, 24] → idx.length = nw →
    (∀ k ≤ keyLenOfWords nw, byteAt (decodeExt idx nw) k = streamByte idx k)
      ∧ ∀ j < 8 - csLenOfWords nw,
          (byteAt (decodeExt idx nw) (keyLenOfWords nw)).getLsbD j = false

/-- 44_codec_decode.md R223 up to the hash request: RomInvalid, InvalidWordCount, UnknownWord at the
lowest failing position, and otherwise the request with the reconstructed key on the port. -/
def Obligations.DecodeResolvesTheWords : Prop :=
  decodeWord 0x00000007#32 = .ok .decode
    ∧ ∀ (s : State) (nw : Nat), s.point = .start → nw = s.argl0.toNat →
        (s.romOk = false →
            exec .decode s = .next { s with
              errCode := .romInvalid, done := true, hashReq := false, phase := .idle })
          ∧ (s.romOk = true → nw ∉ [12, 15, 18, 21, 24] →
              exec .decode s = .next { s with
                errCode := .invalidWordCount, done := true, hashReq := false, phase := .idle })
          ∧ (∀ p, s.romOk = true → nw ∈ [12, 15, 18, 21, 24] → p < nw →
              (∀ i < p, romLookup s.rom (wordOf (s.buf.readBytes (0x100 + 8 * i) 8)) ≠ none) →
              romLookup s.rom (wordOf (s.buf.readBytes (0x100 + 8 * p) 8)) = none →
              exec .decode s = .next { s with
                result1 := BitVec.ofNat 32 (p * 2 ^ 24), errCode := .unknownWord, done := true,
                hashReq := false, phase := .idle })
          ∧ (∀ idx : List Nat, s.romOk = true → nw ∈ [12, 15, 18, 21, 24] → idx.length = nw →
              (∀ (i : Nat) (h : i < idx.length),
                romLookup s.rom (wordOf (s.buf.readBytes (0x100 + 8 * i) 8)) = some idx[i]) →
              ∃ t, exec .decode s = .next t
                ∧ t = { s with ext := t.ext, grp := t.grp, group := t.group, hashLen := t.hashLen,
                               hashMsg := t.hashMsg, hashReq := true, phase := .hashWait }
                ∧ (∀ k ≤ (nw * 11 - 1) / 8, byteAt t.ext k = streamByte idx k)
                ∧ t.hashLen.toNat = (nw * 11 - 1) / 8
                ∧ t.portMessage = (List.range ((nw * 11 - 1) / 8)).map (streamByte idx)
                ∧ ∀ j, (nw * 11 - 1) / 8 ≤ j → t.hashMsg.extractLsb' (8 * j) 8 = 0#8)

/-- 44_codec_decode.md R225 up to the hash request: InvalidWordCount, OutOfRange at the lowest failing
position, and otherwise the request with the reconstructed key on the port, whatever the ROM holds. -/
def Obligations.DecidxReadsTheIndices : Prop :=
  decodeWord 0x00000008#32 = .ok .decidx
    ∧ ∀ (s : State) (nw : Nat), s.point = .start → nw = s.argl0.toNat →
        (nw ∉ [12, 15, 18, 21, 24] →
            exec .decidx s = .next { s with
              errCode := .invalidWordCount, done := true, hashReq := false, phase := .idle })
          ∧ (∀ p, nw ∈ [12, 15, 18, 21, 24] → p < nw →
              (∀ i < p, s.buf.le16 (0x020 + 2 * i) < 2048) → 2048 ≤ s.buf.le16 (0x020 + 2 * p) →
              exec .decidx s = .next { s with
                result1 := BitVec.ofNat 32 (p * 2 ^ 24), errCode := .outOfRange, done := true,
                hashReq := false, phase := .idle })
          ∧ (∀ idx : List Nat, nw ∈ [12, 15, 18, 21, 24] →
              idx = (List.range nw).map (fun i => s.buf.le16 (0x020 + 2 * i)) →
              (∀ v ∈ idx, v < 2048) →
              ∃ t, exec .decidx s = .next t
                ∧ t = { s with ext := t.ext, grp := t.grp, group := t.group, hashLen := t.hashLen,
                               hashMsg := t.hashMsg, hashReq := true, phase := .hashWait }
                ∧ (∀ k ≤ (nw * 11 - 1) / 8, byteAt t.ext k = streamByte idx k)
                ∧ t.hashLen.toNat = (nw * 11 - 1) / 8
                ∧ t.portMessage = (List.range ((nw * 11 - 1) / 8)).map (streamByte idx)
                ∧ ∀ j, (nw * 11 - 1) / 8 ≤ j → t.hashMsg.extractLsb' (8 * j) 8 = 0#8)

/-- 44_codec_decode.md R226: from the acknowledge on, DECODE and DECIDX write KEY, zero-filled, RESULT0
and RESULT1, with ERRCODE 0 and with ChecksumMismatch alike, and no other BUF byte; R228: the mismatch
is exactly that the received and the expected checksum bytes differ. -/
def Obligations.DecodedKeyIsWrittenWithItsVerdict : Prop :=
  ∀ (i : Instr) (s : State) (nw n cl : Nat) (recv exp : Byte), i = .decode ∨ i = .decidx →
    s.point = .afterHash → nw = s.argl0.toNat → nw ∈ [12, 15, 18, 21, 24] →
    n = (nw * 11 - 1) / 8 → cl = nw * 11 - n * 8 → recv = byteAt s.ext n →
    exp = s.d0l &&& csMask cl →
    ∃ m, exec i s = .next { s with
        buf := m, result0 := BitVec.ofNat 32 n,
        result1 := BitVec.ofNat 32 (recv.toNat + exp.toNat * 2 ^ 8 + cl * 2 ^ 16),
        errCode := if recv ≠ exp then .checksumMismatch else .none, done := true, hashReq := false,
        phase := .idle }
      ∧ (∀ k < 32, m.read k = if k < n then byteAt s.ext k else 0#8)
      ∧ ∀ a, 32 ≤ a → m.read a = s.buf.read a

/-- 44_codec_decode.md R227: whatever ENCODE wrote for a key of a legal length, DECIDX on its IDX region
and, over a valid ROM, DECODE on its WORDS region ask the hash for that same key and, with the same
HASH_D0 answer, give it back with ERRCODE 0. -/
def Obligations.EncodeThenDecodeRestoresTheKey : Prop :=
  ∀ (s t : State) (n : Nat), n = s.argl0.toNat → n ∈ [16, 20, 24, 28, 32] → s.point = .afterHash →
    exec .encode s = .next t →
    (∀ u : State, u.argl0 = t.result0 → u.point = .start →
        (∀ a, 0x020 ≤ a → a < 0x050 → u.buf.read a = t.buf.read a) →
        s.d0l = u.hashD0 ((List.range n).map s.buf.read) →
        ∃ v w, exec .decidx u = .next v ∧ v.portMessage = (List.range n).map s.buf.read
          ∧ exec .decidx v.hashAnswer = .next w ∧ w.errCode = .none ∧ w.result0 = s.argl0
          ∧ ∀ k < n, w.buf.read k = s.buf.read k)
      ∧ (∀ u : State, romValid s.rom = true → u.rom = s.rom → u.romOk = true →
          u.argl0 = t.result0 → u.point = .start →
          (∀ a, 0x100 ≤ a → a < 0x1C0 → u.buf.read a = t.buf.read a) →
          s.d0l = u.hashD0 ((List.range n).map s.buf.read) →
          ∃ v w, exec .decode u = .next v ∧ v.portMessage = (List.range n).map s.buf.read
            ∧ exec .decode v.hashAnswer = .next w ∧ w.errCode = .none ∧ w.result0 = s.argl0
            ∧ ∀ k < n, w.buf.read k = s.buf.read k)

/-! ### The hash port -/

/-- 60_exceptions.md R276: the port carries the length and byte `j` of the message on bits
`[8j+7:8j]`, zeros after it. -/
def Obligations.PortPresentsTheMessage : Prop :=
  ∀ (s : State) (m : List Byte), m.length ≤ 32 →
    (s.hashRequest m).hashReq = true
      ∧ (s.hashRequest m).hashLen.toNat = m.length
      ∧ (∀ (j : Nat) (h : j < m.length), (s.hashRequest m).hashMsg.extractLsb' (8 * j) 8 = m[j])
      ∧ (∀ j, m.length ≤ j → (s.hashRequest m).hashMsg.extractLsb' (8 * j) 8 = 0#8)
      ∧ (s.hashRequest m).portMessage = m

/-- 60_exceptions.md R277: the acknowledge answers the message on the port and returns the phase to EXEC;
without a request it is ignored. -/
def Obligations.AcknowledgeAnswersTheRequest : Prop :=
  ∀ (s : State) (rest : List Event), s.agenda = .hashAck :: rest →
    (s.hashReq = true →
        step s = .next { s with
          d0l := s.hashD0 s.portMessage, hashReq := false, phase := .exec, point := .afterHash,
          agenda := rest })
      ∧ (s.hashReq = false → step s = .next { s with agenda := rest })

/-- 70_reset_and_hazards.md R317: without an acknowledge and without a reset the block stays in
HASH_WAIT, BUSY and with the command incomplete, for any number of steps. -/
def Obligations.HashWaitLastsUntilAnswerOrReset : Prop :=
  ∀ (k : Nat) (s : State), s.phase = .hashWait →
    (∀ e ∈ s.agenda, e ≠ .hashAck ∧ e.isReset = false ∧ e.admitted = true) →
    ∃ t, Sys2Proof.core.run k s = .next t
      ∧ t.phase = .hashWait ∧ t.hashReq = s.hashReq ∧ t.hashMsg = s.hashMsg
      ∧ t.result0 = s.result0 ∧ t.errCode = s.errCode ∧ t.buf = s.buf
      ∧ t.statusWord.getLsbD 0 = true ∧ t.statusWord.getLsbD 7 = true

/-! ### The host bus -/

/-- 10_state.md R31 to R40, 20_memory.md R87: what each register reads as, in every phase. ID and PARAM
are constants (R33, R34), CMD reads 0 (R37). -/
def Obligations.RegistersReadAsTheMapSays : Prop :=
  ∀ (s : State) (a : HostAddr) (v : Word) (rest : List Event),
    s.agenda = .host (.read a) :: rest →
    (a, v) ∈ [(0x000#10, 0xB1390100#32), (0x004#10, 0x09B81820#32),
      (0x008#10, if s.irqEn then 1#32 else 0#32), (0x00C#10, s.statusWord), (0x010#10, 0#32),
      (0x014#10, s.arg0), (0x018#10, s.arg1), (0x01C#10, s.arg2), (0x020#10, s.result0),
      (0x024#10, s.result1)] →
    step s = .next { s with agenda := rest, reply := some ⟨.okay, some v⟩ }

/-- 10_state.md R36: the fields of the STATUS word, with the numbers of the error codes
(60_exceptions.md R261) and the BUSY and HASH_WAIT bits of the phases (R45). -/
def Obligations.StatusWordHasItsFields : Prop :=
  ∀ s : State,
    s.statusWord.getLsbD 0 = decide (s.phase ≠ .idle)
      ∧ s.statusWord.getLsbD 1 = s.done
      ∧ s.statusWord.getLsbD 2 = decide (s.errCode ≠ .none)
      ∧ s.statusWord.getLsbD 3 = s.romOk
      ∧ s.statusWord.getLsbD 4 = s.romChecked
      ∧ s.statusWord.getLsbD 5 = s.cmdOvr
      ∧ s.statusWord.getLsbD 6 = s.accViol
      ∧ s.statusWord.getLsbD 7 = decide (s.phase = .hashWait)
      ∧ (s.errCode, (s.statusWord.extractLsb' 8 4).toNat) ∈
          [(.none, 0), (.invalidKeyLength, 1), (.invalidWordIndex, 2), (.invalidWordCount, 3),
            (.unknownWord, 4), (.checksumMismatch, 5), (.outOfRange, 6), (.notFound, 7),
            (.badOpcode, 8), (.badArgument, 9), (.romInvalid, 10)]
      ∧ s.statusWord.extractLsb' 12 4 = 0#4
      ∧ s.statusWord.extractLsb' 16 8 = s.lastOp
      ∧ s.statusWord.extractLsb' 24 8 = 0#8

/-- 10_state.md R35, R36, R38 and R32: what a host write does to CTRL (without SOFT_RST), STATUS, the ARG
registers and the read-only registers, in every phase. -/
def Obligations.RegisterWritesFollowTheirAccess : Prop :=
  ∀ (s : State) (d : Word) (rest : List Event),
    (d.getLsbD 1 = false → s.agenda = .host (.write 0x008#10 d) :: rest →
        step s = .next { s with
          irqEn := d.getLsbD 0, agenda := rest, reply := some ⟨.okay, none⟩ })
      ∧ (s.agenda = .host (.write 0x00C#10 d) :: rest →
          step s = .next { s with
            done := s.done && !d.getLsbD 1, cmdOvr := s.cmdOvr && !d.getLsbD 5,
            accViol := s.accViol && !d.getLsbD 6, agenda := rest, reply := some ⟨.okay, none⟩ })
      ∧ (s.agenda = .host (.write 0x014#10 d) :: rest →
          step s = .next { s with arg0 := d, agenda := rest, reply := some ⟨.okay, none⟩ })
      ∧ (s.agenda = .host (.write 0x018#10 d) :: rest →
          step s = .next { s with arg1 := d, agenda := rest, reply := some ⟨.okay, none⟩ })
      ∧ (s.agenda = .host (.write 0x01C#10 d) :: rest →
          step s = .next { s with arg2 := d, agenda := rest, reply := some ⟨.okay, none⟩ })
      ∧ ∀ a ∈ [0x000#10, 0x004#10, 0x020#10, 0x024#10], s.agenda = .host (.write a d) :: rest →
          step s = .next { s with agenda := rest, reply := some ⟨.okay, none⟩ }

/-- 20_memory.md R82, R86: a misaligned or reserved address has no effect, answers SLVERR, and reads 0. -/
def Obligations.MisalignedAndReservedHaveNoEffect : Prop :=
  ∀ (s : State) (a : HostAddr) (d : Word) (rest : List Event),
    (a.toNat % 4 ≠ 0 ∨ (0x028 ≤ a.toNat ∧ a.toNat ≤ 0x1FC)) →
    (s.agenda = .host (.read a) :: rest →
        step s = .next { s with agenda := rest, reply := some ⟨.slverr, some 0#32⟩ })
      ∧ (s.agenda = .host (.write a d) :: rest →
          step s = .next { s with agenda := rest, reply := some ⟨.slverr, none⟩ })

/-- 20_memory.md R84: the little-endian lanes of the BUF window while IDLE. -/
def Obligations.WindowLanesAreLittleEndian : Prop :=
  ∀ (s : State) (w : Nat) (d : Word) (rest : List Event), w < 128 → s.phase = .idle →
    (s.agenda = .host (.read (BitVec.ofNat 10 (0x200 + 4 * w))) :: rest →
        ∃ v : Word, step s = .next { s with agenda := rest, reply := some ⟨.okay, some v⟩ }
          ∧ ∀ j < 4, v.extractLsb' (8 * j) 8 = s.buf.read (4 * w + j))
      ∧ (s.agenda = .host (.write (BitVec.ofNat 10 (0x200 + 4 * w)) d) :: rest →
          ∃ m, step s = .next { s with buf := m, agenda := rest, reply := some ⟨.okay, none⟩ }
            ∧ (∀ j < 4, m.read (4 * w + j) = d.extractLsb' (8 * j) 8)
            ∧ ∀ a, (a < 4 * w ∨ 4 * w + 4 ≤ a) → m.read a = s.buf.read a)

/-- 20_memory.md R88: the window is closed while BUSY. -/
def Obligations.WindowIsClosedWhileBusy : Prop :=
  ∀ (s : State) (a : HostAddr) (d : Word) (rest : List Event), s.phase ≠ .idle →
    a.toNat % 4 = 0 → 0x200 ≤ a.toNat →
    (s.agenda = .host (.read a) :: rest →
        step s = .next { s with
          accViol := true, agenda := rest, reply := some ⟨.slverr, some 0#32⟩ })
      ∧ (s.agenda = .host (.write a d) :: rest →
          step s = .next { s with accViol := true, agenda := rest, reply := some ⟨.slverr, none⟩ })

/-- 60_exceptions.md R267: every transaction is answered, with SLVERR exactly in the three listed cases,
and then it changes nothing but ACC_VIOL in the third; a write to CMD while BUSY answers OKAY and sets
CMD_OVR. -/
def Obligations.BusErrorsAreExactlyTheListedOnes : Prop :=
  ∀ (s : State) (x : Txn) (a : HostAddr) (rest : List Event),
    (x = .read a ∨ ∃ d, x = .write a d) → s.agenda = .host x :: rest →
    ∃ t r, step s = .next t ∧ t.reply = some r
      ∧ (r.resp = .slverr ↔
          (a.toNat % 4 ≠ 0 ∨ (0x028 ≤ a.toNat ∧ a.toNat ≤ 0x1FC)
            ∨ (0x200 ≤ a.toNat ∧ s.phase ≠ .idle)))
      ∧ (r.resp = .slverr →
          t = { s with
            accViol := s.accViol || decide (a.toNat % 4 = 0 ∧ 0x200 ≤ a.toNat), agenda := rest,
            reply := some r })
      ∧ (∀ d, x = .write 0x010#10 d → s.phase ≠ .idle → r.resp = .okay ∧ t.cmdOvr = true)

/-- 20_memory.md R90: a read changes nothing but its reply, except ACC_VIOL for the window while BUSY. -/
def Obligations.ReadsHaveNoOtherSideEffect : Prop :=
  ∀ (s : State) (a : HostAddr) (rest : List Event), s.agenda = .host (.read a) :: rest →
    ∃ t, step s = .next t
      ∧ t = { s with
          accViol := s.accViol
            || decide (a.toNat % 4 = 0 ∧ 0x200 ≤ a.toNat ∧ s.phase ≠ .idle),
          agenda := rest, reply := t.reply }

/-- 60_exceptions.md R270, 10_state.md R51: `irq` is IRQ_EN and DONE. Every completion sets DONE, whether
or not the command failed and for an illegal word too; an accept, a write of 1 to STATUS.DONE and every
reset clear it; the end of the reset ROM check leaves it; and nothing but a completion, the FSM's step
from EXEC to IDLE, ever sets it. -/
def Obligations.IrqFollowsEnableAndDone : Prop :=
  (∀ s : State, s.irq = true ↔ (s.irqEn = true ∧ s.done = true))
    ∧ (∀ (i : Instr) (s t : State), exec i s = .next t → t.phase = .idle →
        t.done = true ∧ t.irq = s.irqEn)
    ∧ (∀ s t : State, s.phase = .exec → s.agenda.head? = none ∨ s.agenda.head? = some .fsm →
        step s = .next t → t.phase = .idle → t.done = true ∧ t.irq = s.irqEn)
    ∧ (∀ (s t : State) (c : Word) (rest : List Event), s.phase = .idle →
        s.agenda = .host (.write 0x010#10 c) :: rest → step s = .next t →
        t.done = false ∧ t.irq = false)
    ∧ (∀ (s t : State) (d : Word) (rest : List Event), d.getLsbD 1 = true →
        s.agenda = .host (.write 0x00C#10 d) :: rest → step s = .next t →
        t.done = false ∧ t.irq = false)
    ∧ (∀ (s t : State) (e : Event) (rest : List Event), e.isReset = true → s.agenda = e :: rest →
        step s = .next t → t.done = false ∧ t.irq = false)
    ∧ (∀ s t : State, s.phase = .check → s.agenda.head? = none ∨ s.agenda.head? = some .fsm →
        step s = .next t → t.done = s.done ∧ t.irq = s.irq)
    ∧ ∀ s t : State, step s = .next t → s.done = false → t.done = true →
        s.phase = .exec ∧ t.phase = .idle
          ∧ (s.agenda.head? = none ∨ s.agenda.head? = some .fsm)

/-! ### Reset -/

/-- 10_state.md R52, 70_reset_and_hazards.md R300, R301: what every reset leaves, hard, soft or at
power-on, in every phase: each value that R52 gives. -/
def Obligations.ResetGivesTheStatedValues : Prop :=
  ∀ (s : State) (e : Event) (rest : List Event), e.isReset = true → s.agenda = e :: rest →
    ∃ t, step s = .next t
      ∧ t.irqEn = false ∧ t.statusWord = 0x00000001#32
      ∧ t.arg0 = 0#32 ∧ t.arg1 = 0#32 ∧ t.arg2 = 0#32 ∧ t.result0 = 0#32 ∧ t.result1 = 0#32
      ∧ t.phase = .check ∧ t.hashReq = false ∧ t.hashLen = 0#6 ∧ t.hashMsg = 0#256
      ∧ t.irq = false ∧ t.rom = s.rom ∧ t.agenda = rest

/-- 70_reset_and_hazards.md R303, R305, 10_state.md R43: a hard or soft reset changes no BUF byte outside
the write set of the command in progress, and none at all without one; the bytes inside hold fresh free
values, one draw each (log 6). A later power-on leaves every BUF byte at a fresh free value (log 15). -/
def Obligations.ResetDisturbsOnlyTheWriteSet : Prop :=
  ∀ (s : State) (e : Event) (rest : List Event), s.agenda = e :: rest →
    (e.isReset = true → e ≠ .powerOn →
      ∃ t, step s = .next t ∧ t.done = false ∧ t.errCode = .none
        ∧ (∀ a, a ∉ s.writeSet → t.buf.read a = s.buf.read a)
        ∧ (s.phase = .check ∨ s.phase = .idle → ∀ a, t.buf.read a = s.buf.read a)
        ∧ (∀ (k : Nat) (h : k < s.writeSet.length),
            t.buf.read s.writeSet[k] = Config.freeByte (s.freeCount + k))
        ∧ s.writeSet.Nodup ∧ t.freeCount = s.freeCount + s.writeSet.length)
      ∧ (e = .powerOn →
        ∃ t, step s = .next t ∧ t.freeCount = s.freeCount + 512
          ∧ ∀ a < 512, t.buf.read a = Config.freeByte (s.freeCount + a))

/-- 70_reset_and_hazards.md R304: the write sets, command by command. -/
def Obligations.WriteSetsAreTheTable : Prop :=
  ∀ (s : State) (a : Nat), s.phase = .exec ∨ s.phase = .hashWait →
    (∀ i, decodeWord s.cmdl = .ok i → (i = .nop ∨ i = .romchk) → a ∉ s.writeSet)
      ∧ ((∀ i, decodeWord s.cmdl ≠ .ok i) → a ∉ s.writeSet)
      ∧ (∀ i, decodeWord s.cmdl = .ok i → (i = .clear ∨ i = .brev) →
          (a ∈ s.writeSet ↔ s.argl0.toNat + s.argl1.toNat ≤ 512
            ∧ s.argl0.toNat ≤ a ∧ a < s.argl0.toNat + s.argl1.toNat))
      ∧ (∀ rj ord n c p, decodeWord s.cmdl = .ok (.bitx rj ord) →
          n = s.argl1.toNat - s.argl0.toNat → c = (if rj then 8 * ((n + 7) / 8) else n) → p = c - n →
          (a ∈ s.writeSet ↔
            (s.argl0.toNat < s.argl1.toNat ∧ s.argl1.toNat ≤ 4096 ∧ s.argl2.toNat + c ≤ 4096
              ∧ ((s.argl1.toNat - 1) / 8 < (s.argl2.toNat + p) / 8
                ∨ (s.argl2.toNat + p + n - 1) / 8 < s.argl0.toNat / 8))
            ∧ (s.argl2.toNat + p) / 8 ≤ a ∧ a ≤ (s.argl2.toNat + p + n - 1) / 8))
      ∧ (decodeWord s.cmdl = .ok .dword → (a ∈ s.writeSet ↔ 0x058 ≤ a ∧ a ≤ 0x05F))
      ∧ (decodeWord s.cmdl = .ok .dindex →
          (a ∈ s.writeSet ↔
            ¬ (s.romOk = true ∧ romLookup s.rom (wordOf (s.buf.readBytes 0x050 8)) = none)
              ∧ 0x058 ≤ a ∧ a ≤ 0x05F))
      ∧ (decodeWord s.cmdl = .ok .encode →
          (a ∈ s.writeSet ↔ (0x020 ≤ a ∧ a ≤ 0x04F) ∨ (0x100 ≤ a ∧ a ≤ 0x1BF)))
      ∧ ∀ i, decodeWord s.cmdl = .ok i → (i = .decode ∨ i = .decidx) →
          (a ∈ s.writeSet ↔ a ≤ 0x01F)

/-- 70_reset_and_hazards.md R304 against the meanings: a command that completes changes no BUF byte
outside its write set. -/
def Obligations.CommandsWriteOnlyTheirWriteSet : Prop :=
  ∀ (s t : State) (i : Instr) (a : Nat), Inv s → s.phase = .exec → decodeWord s.cmdl = .ok i →
    exec i s = .next t → a ∉ s.writeSet → t.buf.read a = s.buf.read a

/-! ### The whole machine -/

/-- The state after reset meets the invariant. -/
def Obligations.ResetMeetsTheInvariant : Prop := Inv State.reset

/-- Every step keeps the invariant `Inv`: the canonical form of BUF (10_state.md R43), `hash_req` and
HASH_WAIT (60_exceptions.md R277), the ROM flags (40_dictionary.md R151, R152), zero results while BUSY
(70_reset_and_hazards.md R311), the error codes (60_exceptions.md R261) and LAST_OP (10_state.md R36). -/
def Obligations.EveryStepKeepsTheInvariant : Prop :=
  ∀ s t : State, Inv s → step s = .next t → Inv t

/-- 10_state.md R44, 40_dictionary.md R151: nothing writes the ROM, and so every ROM check of a run gives
the same answer. -/
def Obligations.NothingWritesTheRom : Prop :=
  ∀ (k : Nat) (s t : State), Sys2Proof.core.run k s = .next t →
    t.rom = s.rom ∧ romValid t.rom = romValid s.rom

/-- 10_state.md R41, R42: no command writes CTRL, an ARG register, a sticky flag, LAST_OP, the latched
record or the ROM; only ROMCHK writes the ROM flags; RESULT1 is written only by the codec commands. -/
def Obligations.CommandsLeaveTheHostsRegisters : Prop :=
  ∀ (i : Instr) (s t : State), exec i s = .next t →
    t.irqEn = s.irqEn ∧ t.arg0 = s.arg0 ∧ t.arg1 = s.arg1 ∧ t.arg2 = s.arg2
      ∧ t.cmdOvr = s.cmdOvr ∧ t.accViol = s.accViol ∧ t.lastOp = s.lastOp ∧ t.cmdl = s.cmdl
      ∧ t.argl0 = s.argl0 ∧ t.argl1 = s.argl1 ∧ t.argl2 = s.argl2 ∧ t.rom = s.rom
      ∧ t.d0l = s.d0l ∧ t.point = s.point
      ∧ t.agenda = s.agenda ∧ t.reply = s.reply ∧ t.hashKnown = s.hashKnown
      ∧ t.freeCount = s.freeCount
      ∧ (i ≠ .romchk → t.romOk = s.romOk ∧ t.romChecked = s.romChecked)
      ∧ (i ≠ .encode → i ≠ .decode → i ≠ .decidx →
          t.result1 = s.result1 ∧ t.ext = s.ext ∧ t.grp = s.grp ∧ t.group = s.group
            ∧ t.hashLen = s.hashLen ∧ t.hashMsg = s.hashMsg)

/-- 10_state.md R38, 70_reset_and_hazards.md R313: what the ARG registers hold when a command runs makes
no difference to it. -/
def Obligations.RunningCommandIgnoresArgRegisters : Prop :=
  ∀ (i : Instr) (s t : State) (x y z : Word), exec i s = .next t →
    exec i { s with arg0 := x, arg1 := y, arg2 := z }
      = .next { t with arg0 := x, arg1 := y, arg2 := z }

/-- 10_state.md R49: EXT, GRP, D0L, the group counter, the latched record and the old hash message carry
nothing from one command to the next: two IDLE states that differ only there give one command the same
results, BUF, status and reply. -/
def Obligations.NoHiddenStateBetweenCommands : Prop :=
  ∀ (s s' t t' : State) (c : Word) (rest : List Event), s.phase = .idle →
    s.agenda = .host (.write 0x010#10 c) :: .fsm :: .hashAck :: .fsm :: rest →
    s' = { s with ext := s'.ext, grp := s'.grp, d0l := s'.d0l, group := s'.group, cmdl := s'.cmdl,
                  argl0 := s'.argl0, argl1 := s'.argl1, argl2 := s'.argl2, point := s'.point,
                  hashLen := s'.hashLen, hashMsg := s'.hashMsg } →
    Sys2Proof.core.run 4 s = .next t → Sys2Proof.core.run 4 s' = .next t' →
    t'.buf = t.buf ∧ t'.result0 = t.result0 ∧ t'.result1 = t.result1
      ∧ t'.statusWord = t.statusWord ∧ t'.reply = t.reply ∧ t'.phase = t.phase

/-- 60_exceptions.md R260: the block has no trap; with the events the spec has runs for, it never stops. -/
def Obligations.BlockNeverStops : Prop :=
  ∀ (k : Nat) (s : State), (∀ e ∈ s.agenda, e.admitted = true) →
    ∃ t, Sys2Proof.core.run k s = .next t

/-- The two refusals (70_reset_and_hazards.md R300 and R302; 93_implementation_defined.md U25, U26): a
transaction while `rst_n` is low, and an acknowledge of an abandoned request while another is
outstanding; with none outstanding it is ignored. -/
def Obligations.OnlyTheTwoNamedEventsAreRefused : Prop :=
  ∀ (s : State) (rest : List Event),
    (∀ x, s.agenda = .hostInReset x :: rest → step s = .refused .hostDuringReset)
      ∧ (s.agenda = .staleAck :: rest → s.hashReq = true → step s = .refused .staleAcknowledge)
      ∧ (s.agenda = .staleAck :: rest → s.hashReq = false → step s = .next { s with agenda := rest })
      ∧ ∀ r, step s = .refused r → r = .hostDuringReset ∨ r = .staleAcknowledge
end

