-- ==== Sys2Proof/Laws/Memory.lean ====
section
/-! SUPPORT. The laws of BUF: what a read gives after each write, and that every operation keeps the
canonical form (10_state.md R43, 20_memory.md R84; log 4). -/

namespace Sys2Proof.Machine

/-! ### One cell -/

@[simp] theorem lookupCell_nil (a : Nat) : lookupCell [] a = none := rfl

theorem lookupCell_insertCell_same (a : Nat) (b : Byte) (l : List Host.Cell) :
    lookupCell (insertCell a b l) a = some b := by
  induction l with
  | nil => simp [insertCell, lookupCell]
  | cons c rest ih =>
    obtain ⟨a', b'⟩ := c
    simp only [insertCell]
    split_ifs with h1 h2
    · simp [lookupCell]
    · simp [lookupCell]
    · simp [lookupCell, h2, ih]

theorem lookupCell_insertCell_other {a x : Nat} (b : Byte) (l : List Host.Cell) (h : x ≠ a) :
    lookupCell (insertCell a b l) x = lookupCell l x := by
  induction l with
  | nil => simp [insertCell, lookupCell, h]
  | cons c rest ih =>
    obtain ⟨a', b'⟩ := c
    simp only [insertCell]
    split_ifs with h1 h2
    · simp [lookupCell, h]
    · simp [lookupCell, ← h2, h]
    · simp [lookupCell, ih]

theorem mem_insertCell {a : Nat} {b : Byte} {l : List Host.Cell} {c : Host.Cell}
    (h : c ∈ insertCell a b l) : c = (a, b) ∨ c ∈ l := by
  induction l with
  | nil => simpa [insertCell] using h
  | cons d rest ih =>
    obtain ⟨a', b'⟩ := d
    simp only [insertCell] at h
    split_ifs at h with h1 h2
    · simpa using h
    · rcases List.mem_cons.1 h with h | h
      · exact .inl h
      · exact .inr (List.mem_cons_of_mem _ h)
    · rcases List.mem_cons.1 h with h | h
      · exact .inr (h ▸ List.mem_cons_self ..)
      · exact (ih h).imp id (List.mem_cons_of_mem _)

theorem pairwise_insertCell (a : Nat) (b : Byte) (l : List Host.Cell)
    (h : (l.map Prod.fst).Pairwise (· < ·)) :
    ((insertCell a b l).map Prod.fst).Pairwise (· < ·) := by
  induction l with
  | nil => simp [insertCell]
  | cons d rest ih =>
    obtain ⟨a', b'⟩ := d
    simp only [List.map_cons, List.pairwise_cons] at h
    obtain ⟨hlt, hrest⟩ := h
    simp only [insertCell]
    split_ifs with h1 h2
    · simp only [List.map_cons, List.pairwise_cons]
      refine ⟨fun x hx => ?_, hlt, hrest⟩
      rcases List.mem_cons.1 hx with rfl | hx
      · exact h1
      · exact h1.trans (hlt x hx)
    · subst h2
      simpa only [List.map_cons, List.pairwise_cons] using ⟨hlt, hrest⟩
    · simp only [List.map_cons, List.pairwise_cons]
      refine ⟨fun x hx => ?_, ih hrest⟩
      obtain ⟨c, hc, rfl⟩ := List.mem_map.1 hx
      rcases mem_insertCell hc with rfl | hc
      · show a' < a; omega
      · exact hlt _ (List.mem_map_of_mem hc)

/-! ### One byte -/

@[simp] theorem Memory.read_empty (a : Nat) : (⟨[]⟩ : Memory).read a = Config.powerOnByte a := rfl

@[simp] theorem Memory.read_write_same (m : Memory) (a : Nat) (b : Byte) :
    (m.write a b).read a = b := by
  simp [Memory.read, Memory.write, lookupCell_insertCell_same]

theorem Memory.read_write_other {a x : Nat} (m : Memory) (b : Byte) (h : x ≠ a) :
    (m.write a b).read x = m.read x := by
  simp [Memory.read, Memory.write, lookupCell_insertCell_other b m.cells h]

theorem Memory.read_write (m : Memory) (a : Nat) (b : Byte) (x : Nat) :
    (m.write a b).read x = if x = a then b else m.read x := by
  split_ifs with h
  · simp [h]
  · exact m.read_write_other b h

theorem Memory.wf_empty : (⟨[]⟩ : Memory).wf := by simp [Memory.wf]

theorem Memory.wf_write {m : Memory} {a : Nat} (b : Byte) (hm : m.wf) (ha : a < Config.bufBytes) :
    (m.write a b).wf := by
  refine ⟨pairwise_insertCell a b _ hm.1, fun c hc => ?_⟩
  rcases mem_insertCell hc with rfl | hc
  · exact ha
  · exact hm.2 c hc

/-! ### Byte ranges -/

@[simp] theorem Memory.length_readBytes (m : Memory) (a n : Nat) : (m.readBytes a n).length = n := by
  simp [Memory.readBytes]

theorem Memory.getElem_readBytes (m : Memory) (a n k : Nat) (h : k < (m.readBytes a n).length) :
    (m.readBytes a n)[k] = m.read (a + k) := by
  simp [Memory.readBytes]

theorem Memory.readBytes_congr {m m' : Memory} {a n : Nat}
    (h : ∀ k < n, m'.read (a + k) = m.read (a + k)) : m'.readBytes a n = m.readBytes a n :=
  List.map_congr_left fun k hk => h k (List.mem_range.1 hk)

/-- What any address reads as after a byte list is written. -/
theorem Memory.read_writeBytes (m : Memory) (a : Nat) (bs : List Byte) (x : Nat) :
    (m.writeBytes a bs).read x =
      if a ≤ x ∧ x < a + bs.length then bs.getD (x - a) 0#8 else m.read x := by
  induction bs generalizing m a with
  | nil => simp [Memory.writeBytes]
  | cons b bs ih =>
    rw [Memory.writeBytes, ih, Memory.read_write]
    by_cases h1 : x = a
    · subst h1
      simp
    · by_cases h2 : a + 1 ≤ x ∧ x < a + 1 + bs.length
      · have h3 : a ≤ x ∧ x < a + (b :: bs).length := by simp; omega
        have h4 : x - a = (x - (a + 1)) + 1 := by omega
        rw [if_pos h2, if_pos h3, h4]
        simp
      · have h3 : ¬ (a ≤ x ∧ x < a + (b :: bs).length) := by simp; omega
        rw [if_neg h2, if_neg h3, if_neg h1]

theorem Memory.read_writeBytes_outside {m : Memory} {a : Nat} {bs : List Byte} {x : Nat}
    (h : x < a ∨ a + bs.length ≤ x) : (m.writeBytes a bs).read x = m.read x := by
  rw [Memory.read_writeBytes, if_neg (by omega)]

theorem Memory.readBytes_writeBytes_same (m : Memory) (a : Nat) (bs : List Byte) :
    (m.writeBytes a bs).readBytes a bs.length = bs := by
  apply List.ext_getElem (by simp)
  intro k h1 h2
  rw [Memory.getElem_readBytes, Memory.read_writeBytes, if_pos (by omega)]
  simp [List.getD_eq_getElem?_getD, h2]

theorem Memory.wf_writeBytes {m : Memory} {a : Nat} {bs : List Byte} (hm : m.wf)
    (h : a + bs.length ≤ Config.bufBytes) : (m.writeBytes a bs).wf := by
  induction bs generalizing m a with
  | nil => exact hm
  | cons b bs ih =>
    simp only [List.length_cons] at h
    exact ih (Memory.wf_write b hm (by omega)) (by omega)

theorem Memory.wf_writeLanes {m : Memory} {w : Nat} (d : Word) (hm : m.wf) (h : w < 128) :
    (m.writeLanes w d).wf :=
  Memory.wf_writeBytes hm (by simp [Config.bufBytes]; omega)

/-! ### Free draws -/

/-- An address outside the drawn ones keeps its byte. -/
theorem Memory.read_drawBytes_outside {m : Memory} {n : Nat} {as : List Nat} {x : Nat}
    (h : x ∉ as) : (m.drawBytes n as).read x = m.read x := by
  induction as generalizing m n with
  | nil => rfl
  | cons a as ih =>
    rw [Memory.drawBytes, ih (fun hx => h (List.mem_cons_of_mem _ hx))]
    exact m.read_write_other _ (fun hx => h (hx ▸ List.mem_cons_self ..))

/-- The `k`-th drawn address holds the `k`-th draw. -/
theorem Memory.read_drawBytes {m : Memory} {n : Nat} {as : List Nat} (hnd : as.Nodup) {k : Nat}
    (hk : k < as.length) : (m.drawBytes n as).read as[k] = Config.freeByte (n + k) := by
  induction as generalizing m n k with
  | nil => simp at hk
  | cons a as ih =>
    obtain ⟨hna, hnd⟩ := List.nodup_cons.1 hnd
    cases k with
    | zero => simp [Memory.drawBytes, Memory.read_drawBytes_outside hna]
    | succ k =>
      have hk' : k < as.length := by simpa using hk
      have := ih (m := m.write a (Config.freeByte n)) (n := n + 1) hnd hk'
      simpa [Memory.drawBytes, Nat.add_assoc, Nat.add_comm 1 k] using this

theorem Memory.wf_drawBytes {m : Memory} {n : Nat} {as : List Nat} (hm : m.wf)
    (h : ∀ a ∈ as, a < Config.bufBytes) : (m.drawBytes n as).wf := by
  induction as generalizing m n with
  | nil => exact hm
  | cons a as ih =>
    exact ih (Memory.wf_write _ hm (h a (List.mem_cons_self ..)))
      (fun x hx => h x (List.mem_cons_of_mem _ hx))

/-! ### Byte ranges as address lists -/

theorem mem_byteRange {b n a : Nat} : a ∈ byteRange b n ↔ b ≤ a ∧ a < b + n := by
  simp [byteRange, List.mem_range'_1]

theorem nodup_byteRange (b n : Nat) : (byteRange b n).Nodup := List.nodup_range'

@[simp] theorem length_byteRange (b n : Nat) : (byteRange b n).length = n := by simp [byteRange]

/-- A whole range drawn: its `k`-th byte holds the `k`-th draw. -/
theorem Memory.read_drawBytes_byteRange (m : Memory) {c b n k : Nat} (h : k < n) :
    (m.drawBytes c (byteRange b n)).read (b + k) = Config.freeByte (c + k) := by
  have := Memory.read_drawBytes (m := m) (n := c) (nodup_byteRange b n) (k := k) (by simpa using h)
  simpa [byteRange] using this

/-- The agenda plays no part in a reset. -/
theorem State.resetDrawing_withAgenda (s : State) (ag : List Event) (l : List Nat) :
    State.resetDrawing { s with agenda := ag } l = { s.resetDrawing l with agenda := ag } := rfl

end Sys2Proof.Machine
end

