-- ==== Sys2Proof/Laws/Bits.lean ====
section
/-! SUPPORT. The laws of bit addresses, of the byte reversal and of the BitPacker primitive
(00_scope.md R15, 42_bitorder.md R190, R193, 41_bitpacker.md R171). -/

namespace Sys2Proof.Machine

/-! ### Bits of one byte -/

theorem wpos_lt (n : Nat) (ord : BitOrder) : wpos n ord < 8 := by
  cases ord <;> simp only [wpos] <;> omega

/-- Two bit addresses of one byte have one weight only if they are equal. -/
theorem wpos_inj {x y : Nat} {ord : BitOrder} (hb : x / 8 = y / 8) (hw : wpos x ord = wpos y ord) :
    x = y := by
  cases ord <;> simp only [wpos] at hw <;> omega

theorem getLsbD_bitMask (n : Nat) (ord : BitOrder) (j : Nat) :
    (bitMask n ord).getLsbD j = decide (j = wpos n ord) := by
  have h8 := wpos_lt n ord
  rw [bitMask, BitVec.getLsbD_shiftLeft]
  by_cases hj : j < 8
  · by_cases he : j = wpos n ord
    · simp [he, h8]
    · by_cases hl : j < wpos n ord
      · simp [hl, he]
      · have h0 : ¬ (j - wpos n ord = 0) := by omega
        simp [BitVec.getLsbD_one, he, h0]
  · have he : ¬ (j = wpos n ord) := by omega
    simp [hj, he]

theorem getLsbD_rev8 (v : Byte) (j : Nat) (h : j < 8) : (rev8 v).getLsbD j = v.getLsbD (7 - j) := by
  revert v j
  decide

theorem rev8_rev8 (v : Byte) : rev8 (rev8 v) = v := by
  revert v
  decide

@[simp] theorem rev8_zero : rev8 0#8 = 0#8 := by decide

/-- The numbering lemma (42_bitorder.md R193). -/
theorem bitGet_rev8 (A : Nat → Byte) (n : Nat) :
    bitGet (fun i => rev8 (A i)) n .lsb = bitGet A n .msb := by
  simp only [bitGet, wpos]
  rw [getLsbD_rev8 _ _ (Nat.mod_lt _ (by decide))]

/-- The numbering lemma read the other way: MSB-first in a reversed buffer is LSB-first in it. -/
theorem bitGet_rev8_msb (A : Nat → Byte) (n : Nat) :
    bitGet (fun i => rev8 (A i)) n .msb = bitGet A n .lsb := by
  simp only [bitGet, wpos]
  rw [getLsbD_rev8 _ _ (by omega)]
  congr 1
  omega

/-- A bit of a byte array with one byte replaced by itself OR the mask of `n`. -/
theorem bitGet_update (A : Nat → Byte) (n x : Nat) (ord : BitOrder) :
    bitGet (fun i => if i = n / 8 then A (n / 8) ||| bitMask n ord else A i) x ord
      = (bitGet A x ord || decide (x = n)) := by
  by_cases hb : x / 8 = n / 8
  · by_cases hx : x = n
    · simp [bitGet, hx, getLsbD_bitMask]
    · have hw : wpos x ord ≠ wpos n ord := fun h => hx (wpos_inj hb h)
      simp [bitGet, hb, hx, getLsbD_bitMask, hw]
  · have hx : x ≠ n := fun h => hb (by rw [h])
    simp [bitGet, hb, hx]

/-! ### Fields of a concatenation -/

/-- A field that lies in the low part of a concatenation. -/
theorem extractLsb'_append_low {m n : Nat} (x : BitVec m) (y : BitVec n) {k w : Nat} (h : k + w ≤ n) :
    (x ++ y).extractLsb' k w = y.extractLsb' k w := by
  apply BitVec.eq_of_getLsbD_eq
  intro i hi
  simp only [BitVec.getLsbD_extractLsb', BitVec.getLsbD_append, hi, decide_true, Bool.true_and]
  rw [if_pos (by omega)]

/-- A field that lies in the high part of a concatenation. -/
theorem extractLsb'_append_high {m n : Nat} (x : BitVec m) (y : BitVec n) {k w : Nat} (h : n ≤ k) :
    (x ++ y).extractLsb' k w = x.extractLsb' (k - n) w := by
  apply BitVec.eq_of_getLsbD_eq
  intro i hi
  simp only [BitVec.getLsbD_extractLsb', BitVec.getLsbD_append, hi, decide_true, Bool.true_and]
  rw [if_neg (by omega), Nat.sub_add_comm h]
/-! ### The copying loop -/

/-- What `copyBits` does, once for every destination whose `put` is an update on the bytes the loop
touches: each bit in the destination span is ORed with its source bit, no other bit changes. -/
theorem bitGet_copyBits {D : Type} (get : D → Nat → Byte) (put : D → Nat → Byte → D) (ok : Nat → Prop)
    (hput : ∀ d i b, ok i → get (put d i b) = fun j => if j = i then b else get d j)
    (A : Nat → Byte) (lo dst : Nat) (ord : BitOrder) (n : Nat) (d : D)
    (hok : ∀ k < n, ok ((dst + k) / 8)) (x : Nat) :
    bitGet (get (copyBits get put A lo dst ord n d)) x ord
      = (bitGet (get d) x ord
          || (decide (dst ≤ x ∧ x < dst + n) && bitGet A (lo + (x - dst)) ord)) := by
  induction n with
  | zero => simp [copyBits]
  | succ n ih =>
    have ih := ih fun k hk => hok k (by omega)
    have hn := hok n (by omega)
    simp only [copyBits]
    by_cases hx : x = dst + n
    · have h2 : dst ≤ x ∧ x < dst + (n + 1) := by omega
      have h3 : lo + (x - dst) = lo + n := by omega
      simp only [h2, h3, decide_true, Bool.true_and, and_self] at ih ⊢
      split_ifs with hs
      · rw [bitSet, hput _ _ _ hn, bitGet_update, ih]
        simp [hx, hs]
      · rw [ih]
        simp [hs]
    · have h12 : (dst ≤ x ∧ x < dst + n) ↔ (dst ≤ x ∧ x < dst + (n + 1)) := by omega
      split_ifs with hs
      · rw [bitSet, hput _ _ _ hn, bitGet_update, ih]
        simp [hx, h12]
      · rw [ih]
        simp [h12]

theorem padBits_add (n : Nat) (rj : Bool) : padBits n rj + n = containerBits n rj := by
  cases rj
  · simp [padBits, containerBits]
  · simp only [padBits, containerBits, if_true]
    omega

/-- What `BitExtract` into BUF does to every bit address (41_bitpacker.md R171). -/
theorem Memory.bitGet_bitExtract (m : Memory) (dst : Nat) (A : Nat → Byte) (lo hi : Nat) (rj : Bool)
    (ord : BitOrder) (x : Nat) :
    bitGet (m.bitExtract dst A lo hi rj ord).read x ord
      = (bitGet m.read x ord
          || (decide (dst + padBits (hi - lo) rj ≤ x ∧ x < dst + padBits (hi - lo) rj + (hi - lo))
              && bitGet A (lo + (x - (dst + padBits (hi - lo) rj))) ord)) :=
  bitGet_copyBits Memory.read Memory.write (fun _ => True)
    (fun d i b _ => funext fun j => d.read_write i b j) A lo _ ord _ m (fun _ _ => trivial) x

theorem byteAt_setByte {n : Nat} (v : Vector Byte n) (i : Nat) (b : Byte) (h : i < n) :
    byteAt (setByte v i b) = fun j => if j = i then b else byteAt v j := by
  funext j
  obtain ⟨⟨l⟩, hl⟩ := v
  simp only [List.size_toArray] at hl
  subst hl
  by_cases hj : j = i
  · subst hj
    simp [byteAt, setByte, h]
  · have : ¬ i = j := fun e => hj e.symm
    simp [byteAt, setByte, hj, this]

/-- What `BitExtract` into a working buffer does to every bit address, when its span lies inside. -/
theorem bitGet_bufferExtract {n : Nat} (v : Vector Byte n) (dst : Nat) (A : Nat → Byte) (lo hi : Nat)
    (rj : Bool) (ord : BitOrder) (h : dst + padBits (hi - lo) rj + (hi - lo) ≤ 8 * n) (x : Nat) :
    bitGet (byteAt (bufferExtract v dst A lo hi rj ord)) x ord
      = (bitGet (byteAt v) x ord
          || (decide (dst + padBits (hi - lo) rj ≤ x ∧ x < dst + padBits (hi - lo) rj + (hi - lo))
              && bitGet A (lo + (x - (dst + padBits (hi - lo) rj))) ord)) :=
  bitGet_copyBits byteAt setByte (· < n) (fun d i b hi => byteAt_setByte d i b hi) A lo _ ord _ v
    (fun k hk => by omega) x

/-- `BitExtract` into BUF keeps the canonical form when its span lies inside BUF. -/
theorem Memory.wf_bitExtract {m : Memory} (hm : m.wf) (dst : Nat) (A : Nat → Byte) (lo hi : Nat)
    (rj : Bool) (ord : BitOrder)
    (h : dst + padBits (hi - lo) rj + (hi - lo) ≤ Config.bufBits) :
    (m.bitExtract dst A lo hi rj ord).wf := by
  rw [Memory.bitExtract, Machine.bitExtract]
  generalize hi - lo = n at *
  generalize dst + padBits n rj = d at *
  induction n with
  | zero => exact hm
  | succ n ih =>
    simp only [copyBits]
    split_ifs
    · refine Memory.wf_write _ (ih (by omega)) ?_
      simp only [Config.bufBits, Config.bufBytes] at h ⊢
      omega
    · exact ih (by omega)

/-- A byte is its eight bits, so byte arrays that agree on every bit address agree on every byte. -/
theorem byte_eq_of_bitGet {A B : Nat → Byte} {ord : BitOrder} {i : Nat}
    (h : ∀ x, x / 8 = i → bitGet A x ord = bitGet B x ord) : A i = B i := by
  apply BitVec.eq_of_getLsbD_eq
  intro j hj
  cases ord with
  | lsb =>
    have := h (8 * i + j) (by omega)
    simp only [bitGet, wpos] at this
    rwa [show (8 * i + j) / 8 = i by omega, show (8 * i + j) % 8 = j by omega] at this
  | msb =>
    have := h (8 * i + (7 - j)) (by omega)
    simp only [bitGet, wpos] at this
    rwa [show (8 * i + (7 - j)) / 8 = i by omega,
      show 7 - (8 * i + (7 - j)) % 8 = j by omega] at this

end Sys2Proof.Machine
end

