-- ==== Sys2Proof/Laws/Bus.lean ====
section
/-! SUPPORT. The laws of the host address decode (20_memory.md R82, R83) and of one step. -/

namespace Sys2Proof.Machine

theorem decodeAddr_misaligned {a : HostAddr} (h : a.toNat % 4 ≠ 0) : decodeAddr a = .misaligned := by
  simp [decodeAddr, h]

theorem decodeAddr_reserved {a : HostAddr} (h : a.toNat % 4 = 0) (h1 : 0x028 ≤ a.toNat)
    (h2 : a.toNat ≤ 0x1FC) : decodeAddr a = .reserved := by
  have hlo : 10 ≤ a.toNat / 4 := by omega
  have hhi : a.toNat / 4 < 128 := by omega
  simp only [decodeAddr, h, ne_eq, not_true, if_false]
  split
  all_goals first
    | (exfalso; omega)
    | simp [hhi]

theorem decodeAddr_window {a : HostAddr} (h : a.toNat % 4 = 0) (h1 : 0x200 ≤ a.toNat) :
    decodeAddr a = .window (a.toNat / 4 - 128) := by
  have hlo : ¬ (a.toNat / 4 < 128) := by omega
  simp only [decodeAddr, h, ne_eq, not_true, if_false]
  split
  all_goals first
    | (exfalso; omega)
    | simp [hlo]

/-- The only address of a register is its offset in the map (10_state.md R31). -/
theorem decodeAddr_register {a : HostAddr} {r : Reg} (h : decodeAddr a = .register r) :
    a.toNat ≤ 0x024 ∧ a.toNat % 4 = 0 ∧
      (r, a.toNat) ∈ [(.id, 0x000), (.param, 0x004), (.ctrl, 0x008), (.status, 0x00C), (.cmd, 0x010),
        (.arg0, 0x014), (.arg1, 0x018), (.arg2, 0x01C), (.result0, 0x020), (.result1, 0x024)] := by
  simp only [decodeAddr] at h
  split at h
  · cases h
  · rename_i h4
    split at h
    all_goals first
      | (cases h
         rename_i hw
         refine ⟨by omega, by omega, ?_⟩
         simp only [List.mem_cons, Prod.mk.injEq, List.not_mem_nil, reduceCtorEq, false_and,
           true_and, or_false, false_or]
         omega)
      | (split at h <;> cases h)

/-- An aligned address below the reserved range is some register's. -/
theorem exists_register {a : HostAddr} (h : a.toNat % 4 = 0) (h1 : a.toNat ≤ 0x024) :
    ∃ r, decodeAddr a = .register r := by
  have : a.toNat / 4 < 10 := by omega
  simp only [decodeAddr, h, ne_eq, not_true, if_false]
  generalize a.toNat / 4 = w at this ⊢
  interval_cases w <;> exact ⟨_, rfl⟩

/-- What an address can decode to, in terms of its number (20_memory.md R83). -/
theorem decodeAddr_cases (a : HostAddr) :
    (a.toNat % 4 ≠ 0 ∧ decodeAddr a = .misaligned)
      ∨ (a.toNat % 4 = 0 ∧ 0x028 ≤ a.toNat ∧ a.toNat ≤ 0x1FC ∧ decodeAddr a = .reserved)
      ∨ (a.toNat % 4 = 0 ∧ 0x200 ≤ a.toNat ∧ a.toNat / 4 - 128 < 128
          ∧ decodeAddr a = .window (a.toNat / 4 - 128))
      ∨ (a.toNat % 4 = 0 ∧ a.toNat ≤ 0x024 ∧ ∃ r, decodeAddr a = .register r) := by
  have hlt := a.isLt
  by_cases h4 : a.toNat % 4 = 0
  · by_cases h1 : a.toNat ≤ 0x024
    · exact .inr (.inr (.inr ⟨h4, h1, exists_register h4 h1⟩))
    · by_cases h2 : a.toNat ≤ 0x1FC
      · exact .inr (.inl ⟨h4, by omega, h2, decodeAddr_reserved h4 (by omega) h2⟩)
      · exact .inr (.inr (.inl ⟨h4, by omega, by omega, decodeAddr_window h4 (by omega)⟩))
  · exact .inl ⟨h4, decodeAddr_misaligned h4⟩

/-! ### One step -/

/-- With the agenda empty the step is the FSM's. -/
theorem step_nil {s : State} (h : s.agenda = []) : step s = fsmStep s := by simp [step, h]

/-- Otherwise it is the oldest event's. -/
theorem step_cons {s : State} {e : Event} {rest : List Event} (h : s.agenda = e :: rest) :
    step s = eventStep e { s with agenda := rest } := by simp [step, h]

theorem fsmStep_exec {s : State} {i : Instr} (hp : s.phase = .exec) (hd : decodeWord s.cmdl = .ok i) :
    fsmStep s = exec i s := by simp [fsmStep, hp, hd]

theorem fsmStep_illegal {s : State} {w : Illegal} (hp : s.phase = .exec)
    (hd : decodeWord s.cmdl = .error w) : fsmStep s = .next (s.complete .badOpcode) := by
  simp [fsmStep, hp, hd, execIllegal]

theorem fsmStep_still {s : State} (h : s.phase = .idle ∨ s.phase = .hashWait) :
    fsmStep s = .next s := by
  rcases h with h | h <;> simp [fsmStep, h]

end Sys2Proof.Machine
end

