-- ==== Sys2Proof/Laws/Ops.lean ====
section
/-! SUPPORT. The laws of the shared operations other than BUF's and the bit addresses': operand checks,
byte lists, words and the ROM, gathering indices, the hash port's number (one per operation). -/

namespace Sys2Proof.Machine

/-! ### The operand checks -/

theorem byteRangeOk_iff {b n : Nat} : byteRangeOk b n = true ↔ b + n ≤ 512 := by
  simp [byteRangeOk]

/-- The four checks of BITX as one proposition (41_bitpacker.md R173, R174). -/
theorem bitxOk_iff {lo hi dst : Nat} {rj : Bool} :
    bitxOk lo hi dst rj = true ↔
      lo < hi ∧ hi ≤ 4096 ∧ dst + containerBits (hi - lo) rj ≤ 4096
        ∧ ((hi - 1) / 8 < (dst + padBits (hi - lo) rj) / 8
          ∨ (dst + padBits (hi - lo) rj + (hi - lo) - 1) / 8 < lo / 8) := by
  simp only [bitxOk, spansOverlap, Bool.and_eq_true, decide_eq_true_eq, Bool.not_not, Bool.or_eq_true]
  constructor
  · rintro ⟨⟨⟨h1, h2⟩, h3⟩, h4⟩
    rw [show lo + (hi - lo) - 1 = hi - 1 by omega] at h4
    exact ⟨h1, h2, h3, h4⟩
  · rintro ⟨h1, h2, h3, h4⟩
    rw [← show lo + (hi - lo) - 1 = hi - 1 by omega] at h4
    exact ⟨⟨⟨h1, h2⟩, h3⟩, h4⟩

theorem mem_keyLens {n : Nat} : n ∈ Config.keyLens ↔ n ∈ [16, 20, 24, 28, 32] := Iff.rfl

theorem mem_wordCounts {n : Nat} : n ∈ Config.wordCounts ↔ n ∈ [12, 15, 18, 21, 24] := Iff.rfl

/-! ### Byte lists -/

theorem getD_replicate_zero (n k : Nat) : (List.replicate n 0#8).getD k 0#8 = 0#8 := by
  simp only [List.getD_eq_getElem?_getD, List.getElem?_replicate]
  split_ifs <;> rfl

theorem getD_readBytes (m : Memory) (a n k : Nat) (h : k < n) :
    (m.readBytes a n).getD k 0#8 = m.read (a + k) := by
  simp [List.getD_eq_getElem?_getD, Memory.readBytes, h]

theorem getD_map_readBytes (m : Memory) (a n k : Nat) (h : k < n) (f : Byte → Byte) :
    ((m.readBytes a n).map f).getD k 0#8 = f (m.read (a + k)) := by
  simp [List.getD_eq_getElem?_getD, Memory.readBytes, h]

theorem keyBytes_eq (s : State) (n : Nat) : s.keyBytes n = (List.range n).map s.buf.read := by
  simp only [State.keyBytes, Memory.readBytes, Config.keyBase, Nat.zero_add]

/-- A 16-bit little-endian value from its two bytes (20_memory.md R89). -/
theorem Memory.le16_eq {m : Memory} {a v : Nat} (hv : v < 65536) (h0 : m.read a = BitVec.ofNat 8 v)
    (h1 : m.read (a + 1) = BitVec.ofNat 8 (v / 256)) : m.le16 a = v := by
  simp only [Memory.le16, h0, h1, BitVec.toNat_ofNat]
  omega

/-- A byte is the sum of its bits. -/
theorem toNat_byte (b : Byte) :
    b.toNat = ((List.range 8).map fun j => (b.getLsbD (7 - j)).toNat * 2 ^ (7 - j)).sum := by
  revert b
  decide

/-! ### The number on the hash port -/

theorem natOfBytes_lt (m : List Byte) : natOfBytes m < 2 ^ (8 * m.length) := by
  induction m with
  | nil => simp [natOfBytes]
  | cons b bs ih =>
    have := b.isLt
    rw [natOfBytes, List.length_cons, Nat.mul_succ, Nat.pow_add, Nat.mul_comm _ (2 ^ 8)]
    omega

/-- Byte `j` of the number is byte `j` of the list, zero after it. -/
theorem natOfBytes_byte (m : List Byte) (j : Nat) :
    natOfBytes m / 2 ^ (8 * j) % 256 = (m.getD j 0#8).toNat := by
  induction m generalizing j with
  | nil => simp [natOfBytes]
  | cons b bs ih =>
    have hb := b.isLt
    cases j with
    | zero => simp [natOfBytes]; omega
    | succ j =>
      rw [natOfBytes, Nat.mul_succ, Nat.add_comm (8 * j) 8, Nat.pow_add, ← Nat.div_div_eq_div_mul]
      rw [show (b.toNat + 256 * natOfBytes bs) / 2 ^ 8 = natOfBytes bs by omega, ih]
      simp

/-- Byte `j` of the port's 256 bits is byte `j` of a message of at most 32 bytes, zero after it
(60_exceptions.md R276). -/
theorem natOfBytes_port_byte {m : List Byte} (h : m.length ≤ 32) (j : Nat) :
    (BitVec.ofNat 256 (natOfBytes m)).extractLsb' (8 * j) 8 = m.getD j 0#8 := by
  apply BitVec.eq_of_toNat_eq
  have hlt : natOfBytes m < 2 ^ 256 :=
    lt_of_lt_of_le (natOfBytes_lt m) (Nat.pow_le_pow_right (by decide) (by omega))
  rw [BitVec.extractLsb'_toNat, BitVec.toNat_ofNat, Nat.mod_eq_of_lt hlt, Nat.shiftRight_eq_div_pow]
  exact natOfBytes_byte m j

/-! ### RESULT1 -/

/-- RESULT1 as a number (10_state.md R40). -/
theorem result1Word_eq (recv exp : Byte) {cl p : Nat} (hc : cl < 32) (hp : p < 32) :
    result1Word recv exp cl p
      = BitVec.ofNat 32 (recv.toNat + exp.toNat * 2 ^ 8 + cl * 2 ^ 16 + p * 2 ^ 24) := by
  apply BitVec.eq_of_toNat_eq
  have h1 := recv.isLt; have h2 := exp.isLt
  simp only [result1Word, BitVec.toNat_append, BitVec.toNat_ofNat]
  rw [← Nat.shiftLeft_add_eq_or_of_lt h1, ← Nat.shiftLeft_add_eq_or_of_lt h2,
    ← Nat.shiftLeft_add_eq_or_of_lt (b := cl % 2 ^ 5) (by omega),
    ← Nat.shiftLeft_add_eq_or_of_lt (b := 0 % 2 ^ 3) (by omega),
    ← Nat.shiftLeft_add_eq_or_of_lt (b := p % 2 ^ 5) (by omega)]
  simp only [Nat.shiftLeft_eq]
  omega

/-! ### The order of words and the ROM -/

theorem strLt_irrefl (a : List Byte) : strLt a a = false := by
  induction a with
  | nil => rfl
  | cons a as ih => simp [strLt, ih]

theorem strLt_trans {a b c : List Byte} (h1 : strLt a b = true) (h2 : strLt b c = true) :
    strLt a c = true := by
  induction a generalizing b c with
  | nil =>
    cases c with
    | nil => cases b <;> simp [strLt] at h2
    | cons => rfl
  | cons a as ih =>
    cases b with
    | nil => simp [strLt] at h1
    | cons b bs =>
      cases c with
      | nil => simp [strLt] at h2
      | cons c cs =>
        simp only [strLt, Bool.or_eq_true, Bool.and_eq_true, decide_eq_true_eq] at *
        rcases h1 with h1 | ⟨rfl, h1⟩
        · rcases h2 with h2 | ⟨rfl, h2⟩
          · left; exact BitVec.lt_trans h1 h2
          · left; exact h1
        · rcases h2 with h2 | ⟨rfl, h2⟩
          · left; exact h2
          · right; exact ⟨rfl, ih h1 h2⟩

/-- Adjacent words in order. -/
theorem strictlyAscending_iff (l : List (List Byte)) :
    strictlyAscending l = true ↔ ∀ (i : Nat) (h : i + 1 < l.length), strLt l[i] l[i + 1] = true := by
  induction l with
  | nil => simp [strictlyAscending]
  | cons a l ih =>
    cases l with
    | nil => simp [strictlyAscending]
    | cons b rest =>
      simp only [strictlyAscending, Bool.and_eq_true, ih]
      constructor
      · rintro ⟨h1, h2⟩ i h
        cases i with
        | zero => exact h1
        | succ i => exact h2 i (by simpa using h)
      · intro h
        exact ⟨h 0 (by simp), fun i hi => h (i + 1) (by simpa using hi)⟩

/-- Any two words in order. -/
theorem strLt_of_strictlyAscending {l : List (List Byte)} (h : strictlyAscending l = true) (i j : Nat)
    (hj : j < l.length) (hij : i < j) : strLt l[i] l[j] = true := by
  rw [strictlyAscending_iff] at h
  induction j with
  | zero => omega
  | succ j ih =>
    by_cases e : i = j
    · subst e; exact h i hj
    · exact strLt_trans (ih (by omega) (by omega)) (h j hj)

/-- `lookup` finds the first slot that holds the word. -/
theorem romLookup_some {rom : Rom} {w : List Byte} {i : Nat} :
    romLookup rom w = some i ↔
      ∃ h : i < 2048, wordOf (rom[i]'h).toList = w
        ∧ ∀ j (hj : j < i), wordOf (rom[j]'(hj.trans h)).toList ≠ w := by
  simp only [romLookup, List.findIdx?_eq_some_iff_getElem, Vector.length_toList,
    Vector.getElem_toList]
  simp

/-- `lookup` fails when no slot holds the word. -/
theorem romLookup_none {rom : Rom} {w : List Byte} :
    romLookup rom w = none ↔ ∀ (i : Nat) (h : i < 2048), wordOf rom[i].toList ≠ w := by
  simp only [romLookup, List.findIdx?_eq_none_iff]
  simp only [decide_eq_false_iff_not]
  constructor
  · intro h i hi
    exact h rom[i] (by simp)
  · intro h x hx
    obtain ⟨i, hi, rfl⟩ := List.mem_iff_getElem.1 hx
    exact h i (by simpa using hi)

theorem romSlot_eq (rom : Rom) (i : Nat) (h : i < 2048) : romSlot rom i = rom[i] := by
  simp [romSlot, List.getD_eq_getElem?_getD, h]

/-! ### Gathering indices -/

/-- Every position resolves: the list of all values. -/
theorem collect_ok (f : Nat → Option Nat) (l : List Nat) (i : Nat)
    (h : ∀ (j : Nat) (hj : j < l.length), f (i + j) = some l[j]) :
    collect f i l.length = .ok l := by
  induction l generalizing i with
  | nil => rfl
  | cons v l ih =>
    have h0 := h 0 (by simp)
    have ih := ih (i + 1) fun j hj => by
      have := h (j + 1) (by simpa using hj)
      rwa [show i + (j + 1) = i + 1 + j by omega] at this
    simp only [Nat.add_zero] at h0
    simp only [List.length_cons, collect, h0, ih]
    rfl

/-- The lowest position that does not resolve is the one reported. -/
theorem collect_error (f : Nat → Option Nat) {p n i : Nat} (hp : p < n)
    (h : ∀ j < p, f (i + j) ≠ none) (hf : f (i + p) = none) :
    collect f i n = .error (i + p) := by
  induction n generalizing i p with
  | zero => omega
  | succ n ih =>
    cases p with
    | zero => simp only [Nat.add_zero] at hf ⊢; simp [collect, hf]
    | succ p =>
      obtain ⟨v, hv⟩ := Option.ne_none_iff_exists'.1 (h 0 (by omega))
      simp only [Nat.add_zero] at hv
      have := ih (i := i + 1) (p := p) (by omega)
        (fun j hj => by rw [show i + 1 + j = i + (j + 1) by omega]; exact h (j + 1) (by omega))
        (by rw [show i + 1 + p = i + (p + 1) by omega]; exact hf)
      simp only [collect, hv, this]
      rw [show i + 1 + p = i + (p + 1) by omega]

/-! ### Every command answers -/

theorem exec_total (i : Instr) (s : State) : ∃ t, exec i s = .next t := by
  cases i <;> exact ⟨_, rfl⟩

end Sys2Proof.Machine
end

