-- ==== Sys2Proof/Laws/Codec.lean ====
section
/-! SUPPORT. The laws of the codec's operations: the output regions in chunks, the bits of a group, the
bits of the groups placed one after another (43_codec_encode.md R203, R205, 44_codec_decode.md R222). -/

namespace Sys2Proof.Machine

/-! ### Regions laid out in chunks of one length -/

theorem length_chunks (f : Nat → List Byte) {c : Nat} (h : ∀ i, (f i).length = c) (n : Nat) :
    ((List.range n).flatMap f).length = c * n := by
  induction n with
  | zero => simp
  | succ n ih =>
    rw [List.range_succ, List.flatMap_append, List.length_append, ih]
    simp [h, Nat.mul_succ]

/-- Byte `j` of chunk `i`. -/
theorem getD_chunks (f : Nat → List Byte) {c : Nat} (h : ∀ i, (f i).length = c) {n i j : Nat}
    (hi : i < n) (hj : j < c) :
    ((List.range n).flatMap f).getD (c * i + j) 0#8 = (f i).getD j 0#8 := by
  induction n with
  | zero => omega
  | succ n ih =>
    rw [List.range_succ, List.flatMap_append, List.flatMap_singleton]
    have hl := length_chunks f h n
    by_cases hin : i < n
    · have : c * i + j < c * n := by
        calc c * i + j < c * i + c := by omega
          _ = c * (i + 1) := by rw [Nat.mul_succ]
          _ ≤ c * n := Nat.mul_le_mul_left _ hin
      rw [List.getD_append _ _ _ _ (by omega), ih hin]
    · have hin : i = n := by omega
      subst hin
      rw [List.getD_append_right _ _ _ _ (by omega), hl, Nat.add_sub_cancel_left]

@[simp] theorem length_idxRegion (idx : List Nat) : (idxRegion idx).length = 48 := by
  refine length_chunks (c := 2) _ (fun i => ?_) 24
  cases idx[i]? <;> rfl

@[simp] theorem length_wordsRegion (rom : Rom) (idx : List Nat) :
    (wordsRegion rom idx).length = 192 := by
  refine length_chunks (c := 8) _ (fun i => ?_) 24
  cases idx[i]? <;> simp

/-- Byte `j` of IDX entry `i` (43_codec_encode.md R205). -/
theorem getD_idxRegion (idx : List Nat) {i j : Nat} (hi : i < 24) (hj : j < 2) :
    (idxRegion idx).getD (2 * i + j) 0#8
      = ((idx[i]?.map le16Bytes).getD [0#8, 0#8]).getD j 0#8 := by
  rw [idxRegion, getD_chunks (c := 2) _ (fun i => by cases idx[i]? <;> rfl) hi hj]
  cases idx[i]? <;> rfl

/-- Byte `j` of WORDS slot `i` (43_codec_encode.md R205). -/
theorem getD_wordsRegion (rom : Rom) (idx : List Nat) {i j : Nat} (hi : i < 24) (hj : j < 8) :
    (wordsRegion rom idx).getD (8 * i + j) 0#8
      = ((idx[i]?.map fun v => (romSlot rom v).toList).getD (List.replicate 8 0#8)).getD j 0#8 := by
  rw [wordsRegion, getD_chunks (c := 8) _ (fun i => by cases idx[i]? <;> simp) hi hj]
  cases idx[i]? <;> rfl

/-- The key and its zero fill are the 32 bytes of KEY (44_codec_decode.md R222 step 6). -/
theorem length_keyFill (s : State) (nw : Nat) (h : nw ∈ Config.wordCounts) :
    (s.decodedKey nw ++ List.replicate (Config.maxKeyBytes - keyLenOfWords nw) 0#8).length = 32 := by
  have : keyLenOfWords nw ≤ 32 := by
    simp at h
    rcases h with rfl | rfl | rfl | rfl | rfl <;> decide
  simp [State.decodedKey, Config.maxKeyBytes]
  omega

/-! ### Groups -/

/-- Every bit of the group buffer of group `i`: 5 zeros, then stream bits `11i` to `11i+10`. -/
theorem bitGet_encodeGroup (ext : Vector Byte 33) (i x : Nat) :
    bitGet (byteAt (encodeGroup ext i)) x .lsb
      = (decide (5 ≤ x ∧ x < 16) && bitGet (byteAt ext) (11 * i + (x - 5)) .lsb) := by
  have hp : padBits (11 * i + 11 - 11 * i) true = 5 := by
    rw [show 11 * i + 11 - 11 * i = 11 by omega]
    rfl
  rw [encodeGroup, bitGet_bufferExtract _ _ _ _ _ _ _ (by rw [hp]; omega), hp]
  have hz : bitGet (byteAt (Vector.replicate 2 0#8)) x .lsb = false := by
    have : byteAt (Vector.replicate 2 0#8) (x / 8) = 0#8 := by
      rcases h : x / 8 with _ | _ | k <;> rfl
    simp [bitGet, this]
  rw [hz, show 11 * i + 11 - 11 * i = 11 by omega]
  simp

/-- A bit of the reversed byte `k`, as a bit address. -/
theorem getLsbD_rev8_bitGet (A : Nat → Byte) (k j : Nat) (hj : j < 8) :
    (rev8 (A k)).getLsbD j = bitGet A (8 * k + (7 - j)) .lsb := by
  rw [getLsbD_rev8 _ _ hj]; simp only [bitGet, wpos]
  rw [show (8 * k + (7 - j)) / 8 = k by omega, show (8 * k + (7 - j)) % 8 = 7 - j by omega]

/-- EXT of ENCODE, byte by byte: the stream bytes reversed. -/
theorem byteAt_encodeExt (key : List Byte) (d0 : Byte) (h : key.length ≤ 32) :
    byteAt (encodeExt key d0) = fun j => rev8 ((key ++ [d0]).getD j 0#8) := by
  funext j
  simp only [byteAt, encodeExt, List.getD_eq_getElem?_getD, Vector.getElem?_toList]
  by_cases hj : j < 33
  · simp only [hj, Vector.getElem?_ofFn, dite_true, Option.getD_some,
      List.getElem?_map]
    cases (key ++ [d0])[j]? <;> simp
  · have : key.length + 1 ≤ j := by omega
    simp [hj, List.getElem?_eq_none (l := key ++ [d0]) (i := j) (by simpa using this)]

/-- Every bit that the correction vector of an index contributes (42_bitorder.md R192). -/
theorem bitGet_unfixGroup (v j : Nat) (hj : j < 11) :
    bitGet (byteAt (unfixGroup v)) (5 + j) .lsb = v.testBit (10 - j) := by
  have h : byteAt (unfixGroup v) = fun k =>
      rev8 (([BitVec.ofNat 8 (v / 256), BitVec.ofNat 8 (v % 256)] : List Byte).getD k 0#8) := by
    funext k
    rcases k with _ | _ | k
    · rfl
    · rfl
    · show (0#8 : Byte) = rev8 0#8; decide
  rw [h, bitGet_rev8]
  simp only [bitGet, wpos]
  by_cases h8 : j < 3
  · rw [show (5 + j) / 8 = 0 by omega, show 7 - (5 + j) % 8 = 2 - j by omega]
    simp only [List.getD_cons_zero, BitVec.getLsbD_ofNat]
    rw [show v / 256 = v / 2 ^ 8 from rfl, Nat.testBit_div_two_pow,
      show 2 - j + 8 = 10 - j by omega]
    simp; omega
  · rw [show (5 + j) / 8 = 1 by omega, show 7 - (5 + j) % 8 = 10 - j by omega]
    simp only [List.getD_cons_succ, List.getD_cons_zero, BitVec.getLsbD_ofNat]
    rw [show v % 256 = v % 2 ^ 8 from rfl, Nat.testBit_mod_two_pow]
    rw [decide_eq_true (by omega)]; simp

/-- Every bit of the groups of `l` placed from group `k` on. -/
theorem bitGet_placeFrom (l : List Nat) (k : Nat) (ext : Vector Byte 33) (h : k + l.length ≤ 24)
    (x : Nat) :
    bitGet (byteAt ((l.zipIdx k).foldl
        (fun ext vi => bufferExtract ext (11 * vi.2) (byteAt (unfixGroup vi.1)) 5 16 false .lsb)
        ext)) x .lsb
      = (bitGet (byteAt ext) x .lsb
          || (decide (11 * k ≤ x ∧ x < 11 * (k + l.length))
              && (l.getD (x / 11 - k) 0).testBit (10 - x % 11))) := by
  induction l generalizing k ext with
  | nil => simp
  | cons v l ih =>
    simp only [List.length_cons] at h
    rw [List.zipIdx_cons, List.foldl_cons, ih _ _ (by omega)]
    rw [bitGet_bufferExtract _ _ _ _ _ _ _ (by simp [padBits, containerBits]; omega)]
    simp only [show padBits (16 - 5) false = 0 from rfl, Nat.add_zero, Nat.reduceSub, List.length_cons]
    by_cases h1 : 11 * k ≤ x ∧ x < 11 * k + 11
    · rw [decide_eq_true h1, decide_eq_false (by omega), decide_eq_true (by omega),
        show x / 11 - k = 0 by omega]
      rw [bitGet_unfixGroup _ _ (by omega), show x - 11 * k = x % 11 by omega]; simp
    · rw [decide_eq_false h1]
      by_cases h2 : 11 * (k + 1) ≤ x ∧ x < 11 * (k + 1 + l.length)
      · rw [decide_eq_true h2, decide_eq_true (by omega),
          show x / 11 - k = (x / 11 - (k + 1)) + 1 by omega, List.getD_cons_succ]
        simp
      · rw [decide_eq_false h2, decide_eq_false (by omega)]; simp

/-- Every bit of step 3 of `Reconstruct` (44_codec_decode.md R222). -/
theorem bitGet_placeGroups (idx : List Nat) (h : idx.length ≤ 24) (x : Nat) :
    bitGet (byteAt (placeGroups idx)) x .lsb
      = (decide (x < 11 * idx.length) && (idx.getD (x / 11) 0).testBit (10 - x % 11)) := by
  rw [placeGroups, bitGet_placeFrom idx 0 _ (by omega)]
  have hz : bitGet (byteAt (Vector.replicate 33 0#8)) x .lsb = false := by
    have : byteAt (Vector.replicate 33 0#8) (x / 8) = 0#8 := by
      simp only [byteAt, Vector.toList_replicate]; exact getD_replicate_zero 33 _
    simp [bitGet, this]
  rw [hz]; simp

theorem byteAt_reverseFirst (n : Nat) (ext : Vector Byte 33) (k : Nat) (h : k < n) :
    byteAt (reverseFirst n ext) k = rev8 (byteAt ext k) := by
  by_cases hk : k < 33
  · simp [byteAt, reverseFirst, List.getD_eq_getElem?_getD, hk, h]
  · simp [byteAt, reverseFirst, List.getD_eq_getElem?_getD, hk]

end Sys2Proof.Machine
end

