-- ==== Sys2Proof/Laws/PerInstr.lean ====
section
/-! SUPPORT. Facts about every command as syntax, one lemma per constructor of `Instr`. -/

namespace Sys2Proof.Laws

/-- The encoder gives each command a word that the spec's predicate accepts, with the command's opcode
in `[7:0]` (30_encoding.md R120, R122). -/
def EncodeValid.Statement (i : Instr) : Prop :=
  validWord (encodeWord i) = true ∧ (encodeWord i).extractLsb' 0 8 = i.opcode

theorem EncodeValid.nop : EncodeValid.Statement .nop := by unfold Statement; decide
theorem EncodeValid.clear : EncodeValid.Statement .clear := by unfold Statement; decide
theorem EncodeValid.bitx (rj : Bool) (ord : BitOrder) : EncodeValid.Statement (.bitx rj ord) := by
  unfold Statement
  cases rj <;> cases ord <;> decide
theorem EncodeValid.brev : EncodeValid.Statement .brev := by unfold Statement; decide
theorem EncodeValid.dword : EncodeValid.Statement .dword := by unfold Statement; decide
theorem EncodeValid.dindex : EncodeValid.Statement .dindex := by unfold Statement; decide
theorem EncodeValid.encode : EncodeValid.Statement .encode := by unfold Statement; decide
theorem EncodeValid.decode : EncodeValid.Statement .decode := by unfold Statement; decide
theorem EncodeValid.decidx : EncodeValid.Statement .decidx := by unfold Statement; decide
theorem EncodeValid.romchk : EncodeValid.Statement .romchk := by unfold Statement; decide

end Sys2Proof.Laws
end

