-- ==== Sys2Proof/Laws/State.lean ====
section
/-! SUPPORT. What each named update of State leaves in each field, one lemma each, true by definition. -/

namespace Sys2Proof.Machine

variable (s : State)

/-! Completion (45_control.md R253). -/

@[simp] theorem State.complete_irqEn (e : ErrCode) : (s.complete e).irqEn = s.irqEn := rfl
@[simp] theorem State.complete_done (e : ErrCode) : (s.complete e).done = true := rfl
@[simp] theorem State.complete_romOk (e : ErrCode) : (s.complete e).romOk = s.romOk := rfl
@[simp] theorem State.complete_romChecked (e : ErrCode) : (s.complete e).romChecked = s.romChecked := rfl
@[simp] theorem State.complete_cmdOvr (e : ErrCode) : (s.complete e).cmdOvr = s.cmdOvr := rfl
@[simp] theorem State.complete_accViol (e : ErrCode) : (s.complete e).accViol = s.accViol := rfl
@[simp] theorem State.complete_errCode (e : ErrCode) : (s.complete e).errCode = e := rfl
@[simp] theorem State.complete_lastOp (e : ErrCode) : (s.complete e).lastOp = s.lastOp := rfl
@[simp] theorem State.complete_arg0 (e : ErrCode) : (s.complete e).arg0 = s.arg0 := rfl
@[simp] theorem State.complete_arg1 (e : ErrCode) : (s.complete e).arg1 = s.arg1 := rfl
@[simp] theorem State.complete_arg2 (e : ErrCode) : (s.complete e).arg2 = s.arg2 := rfl
@[simp] theorem State.complete_result0 (e : ErrCode) : (s.complete e).result0 = s.result0 := rfl
@[simp] theorem State.complete_result1 (e : ErrCode) : (s.complete e).result1 = s.result1 := rfl
@[simp] theorem State.complete_buf (e : ErrCode) : (s.complete e).buf = s.buf := rfl
@[simp] theorem State.complete_rom (e : ErrCode) : (s.complete e).rom = s.rom := rfl
@[simp] theorem State.complete_phase (e : ErrCode) : (s.complete e).phase = .idle := rfl
@[simp] theorem State.complete_point (e : ErrCode) : (s.complete e).point = s.point := rfl
@[simp] theorem State.complete_group (e : ErrCode) : (s.complete e).group = s.group := rfl
@[simp] theorem State.complete_cmdl (e : ErrCode) : (s.complete e).cmdl = s.cmdl := rfl
@[simp] theorem State.complete_argl0 (e : ErrCode) : (s.complete e).argl0 = s.argl0 := rfl
@[simp] theorem State.complete_argl1 (e : ErrCode) : (s.complete e).argl1 = s.argl1 := rfl
@[simp] theorem State.complete_argl2 (e : ErrCode) : (s.complete e).argl2 = s.argl2 := rfl
@[simp] theorem State.complete_ext (e : ErrCode) : (s.complete e).ext = s.ext := rfl
@[simp] theorem State.complete_grp (e : ErrCode) : (s.complete e).grp = s.grp := rfl
@[simp] theorem State.complete_hashReq (e : ErrCode) : (s.complete e).hashReq = false := rfl
@[simp] theorem State.complete_hashLen (e : ErrCode) : (s.complete e).hashLen = s.hashLen := rfl
@[simp] theorem State.complete_hashMsg (e : ErrCode) : (s.complete e).hashMsg = s.hashMsg := rfl
@[simp] theorem State.complete_d0l (e : ErrCode) : (s.complete e).d0l = s.d0l := rfl
@[simp] theorem State.complete_hashKnown (e : ErrCode) : (s.complete e).hashKnown = s.hashKnown := rfl
@[simp] theorem State.complete_freeCount (e : ErrCode) : (s.complete e).freeCount = s.freeCount := rfl
@[simp] theorem State.complete_agenda (e : ErrCode) : (s.complete e).agenda = s.agenda := rfl
@[simp] theorem State.complete_reply (e : ErrCode) : (s.complete e).reply = s.reply := rfl

/-! The end of the record of a completion (60_exceptions.md R271). -/

@[simp] theorem State.clearDone_irqEn : s.clearDone.irqEn = s.irqEn := rfl
@[simp] theorem State.clearDone_done : s.clearDone.done = false := rfl
@[simp] theorem State.clearDone_romOk : s.clearDone.romOk = s.romOk := rfl
@[simp] theorem State.clearDone_romChecked : s.clearDone.romChecked = s.romChecked := rfl
@[simp] theorem State.clearDone_cmdOvr : s.clearDone.cmdOvr = s.cmdOvr := rfl
@[simp] theorem State.clearDone_accViol : s.clearDone.accViol = s.accViol := rfl
@[simp] theorem State.clearDone_errCode : s.clearDone.errCode = s.errCode := rfl
@[simp] theorem State.clearDone_lastOp : s.clearDone.lastOp = s.lastOp := rfl
@[simp] theorem State.clearDone_arg0 : s.clearDone.arg0 = s.arg0 := rfl
@[simp] theorem State.clearDone_arg1 : s.clearDone.arg1 = s.arg1 := rfl
@[simp] theorem State.clearDone_arg2 : s.clearDone.arg2 = s.arg2 := rfl
@[simp] theorem State.clearDone_result0 : s.clearDone.result0 = s.result0 := rfl
@[simp] theorem State.clearDone_result1 : s.clearDone.result1 = s.result1 := rfl
@[simp] theorem State.clearDone_buf : s.clearDone.buf = s.buf := rfl
@[simp] theorem State.clearDone_rom : s.clearDone.rom = s.rom := rfl
@[simp] theorem State.clearDone_phase : s.clearDone.phase = s.phase := rfl
@[simp] theorem State.clearDone_point : s.clearDone.point = s.point := rfl
@[simp] theorem State.clearDone_group : s.clearDone.group = s.group := rfl
@[simp] theorem State.clearDone_cmdl : s.clearDone.cmdl = s.cmdl := rfl
@[simp] theorem State.clearDone_argl0 : s.clearDone.argl0 = s.argl0 := rfl
@[simp] theorem State.clearDone_argl1 : s.clearDone.argl1 = s.argl1 := rfl
@[simp] theorem State.clearDone_argl2 : s.clearDone.argl2 = s.argl2 := rfl
@[simp] theorem State.clearDone_ext : s.clearDone.ext = s.ext := rfl
@[simp] theorem State.clearDone_grp : s.clearDone.grp = s.grp := rfl
@[simp] theorem State.clearDone_hashReq : s.clearDone.hashReq = s.hashReq := rfl
@[simp] theorem State.clearDone_hashLen : s.clearDone.hashLen = s.hashLen := rfl
@[simp] theorem State.clearDone_hashMsg : s.clearDone.hashMsg = s.hashMsg := rfl
@[simp] theorem State.clearDone_d0l : s.clearDone.d0l = s.d0l := rfl
@[simp] theorem State.clearDone_hashKnown : s.clearDone.hashKnown = s.hashKnown := rfl
@[simp] theorem State.clearDone_freeCount : s.clearDone.freeCount = s.freeCount := rfl
@[simp] theorem State.clearDone_agenda : s.clearDone.agenda = s.agenda := rfl
@[simp] theorem State.clearDone_reply : s.clearDone.reply = s.reply := rfl

/-! `raise E(FAIL_POS = p)` (60_exceptions.md R262). -/

@[simp] theorem State.raiseAt_irqEn (e : ErrCode) (p : Nat) : (s.raiseAt e p).irqEn = s.irqEn := rfl
@[simp] theorem State.raiseAt_done (e : ErrCode) (p : Nat) : (s.raiseAt e p).done = true := rfl
@[simp] theorem State.raiseAt_romOk (e : ErrCode) (p : Nat) : (s.raiseAt e p).romOk = s.romOk := rfl
@[simp] theorem State.raiseAt_romChecked (e : ErrCode) (p : Nat) :
    (s.raiseAt e p).romChecked = s.romChecked := rfl
@[simp] theorem State.raiseAt_cmdOvr (e : ErrCode) (p : Nat) : (s.raiseAt e p).cmdOvr = s.cmdOvr := rfl
@[simp] theorem State.raiseAt_accViol (e : ErrCode) (p : Nat) : (s.raiseAt e p).accViol = s.accViol := rfl
@[simp] theorem State.raiseAt_errCode (e : ErrCode) (p : Nat) : (s.raiseAt e p).errCode = e := rfl
@[simp] theorem State.raiseAt_lastOp (e : ErrCode) (p : Nat) : (s.raiseAt e p).lastOp = s.lastOp := rfl
@[simp] theorem State.raiseAt_arg0 (e : ErrCode) (p : Nat) : (s.raiseAt e p).arg0 = s.arg0 := rfl
@[simp] theorem State.raiseAt_arg1 (e : ErrCode) (p : Nat) : (s.raiseAt e p).arg1 = s.arg1 := rfl
@[simp] theorem State.raiseAt_arg2 (e : ErrCode) (p : Nat) : (s.raiseAt e p).arg2 = s.arg2 := rfl
@[simp] theorem State.raiseAt_result0 (e : ErrCode) (p : Nat) : (s.raiseAt e p).result0 = s.result0 := rfl
@[simp] theorem State.raiseAt_result1 (e : ErrCode) (p : Nat) :
    (s.raiseAt e p).result1 = result1Word 0#8 0#8 0 p := rfl
@[simp] theorem State.raiseAt_buf (e : ErrCode) (p : Nat) : (s.raiseAt e p).buf = s.buf := rfl
@[simp] theorem State.raiseAt_rom (e : ErrCode) (p : Nat) : (s.raiseAt e p).rom = s.rom := rfl
@[simp] theorem State.raiseAt_phase (e : ErrCode) (p : Nat) : (s.raiseAt e p).phase = .idle := rfl
@[simp] theorem State.raiseAt_point (e : ErrCode) (p : Nat) : (s.raiseAt e p).point = s.point := rfl
@[simp] theorem State.raiseAt_group (e : ErrCode) (p : Nat) : (s.raiseAt e p).group = s.group := rfl
@[simp] theorem State.raiseAt_cmdl (e : ErrCode) (p : Nat) : (s.raiseAt e p).cmdl = s.cmdl := rfl
@[simp] theorem State.raiseAt_argl0 (e : ErrCode) (p : Nat) : (s.raiseAt e p).argl0 = s.argl0 := rfl
@[simp] theorem State.raiseAt_argl1 (e : ErrCode) (p : Nat) : (s.raiseAt e p).argl1 = s.argl1 := rfl
@[simp] theorem State.raiseAt_argl2 (e : ErrCode) (p : Nat) : (s.raiseAt e p).argl2 = s.argl2 := rfl
@[simp] theorem State.raiseAt_ext (e : ErrCode) (p : Nat) : (s.raiseAt e p).ext = s.ext := rfl
@[simp] theorem State.raiseAt_grp (e : ErrCode) (p : Nat) : (s.raiseAt e p).grp = s.grp := rfl
@[simp] theorem State.raiseAt_hashReq (e : ErrCode) (p : Nat) : (s.raiseAt e p).hashReq = false := rfl
@[simp] theorem State.raiseAt_hashLen (e : ErrCode) (p : Nat) : (s.raiseAt e p).hashLen = s.hashLen := rfl
@[simp] theorem State.raiseAt_hashMsg (e : ErrCode) (p : Nat) : (s.raiseAt e p).hashMsg = s.hashMsg := rfl
@[simp] theorem State.raiseAt_d0l (e : ErrCode) (p : Nat) : (s.raiseAt e p).d0l = s.d0l := rfl
@[simp] theorem State.raiseAt_hashKnown (e : ErrCode) (p : Nat) :
    (s.raiseAt e p).hashKnown = s.hashKnown := rfl
@[simp] theorem State.raiseAt_freeCount (e : ErrCode) (p : Nat) :
    (s.raiseAt e p).freeCount = s.freeCount := rfl
@[simp] theorem State.raiseAt_agenda (e : ErrCode) (p : Nat) : (s.raiseAt e p).agenda = s.agenda := rfl
@[simp] theorem State.raiseAt_reply (e : ErrCode) (p : Nat) : (s.raiseAt e p).reply = s.reply := rfl

/-! The hash request (60_exceptions.md R277). -/

@[simp] theorem State.hashRequest_irqEn (m : List Byte) : (s.hashRequest m).irqEn = s.irqEn := rfl
@[simp] theorem State.hashRequest_done (m : List Byte) : (s.hashRequest m).done = s.done := rfl
@[simp] theorem State.hashRequest_romOk (m : List Byte) : (s.hashRequest m).romOk = s.romOk := rfl
@[simp] theorem State.hashRequest_romChecked (m : List Byte) :
    (s.hashRequest m).romChecked = s.romChecked := rfl
@[simp] theorem State.hashRequest_cmdOvr (m : List Byte) : (s.hashRequest m).cmdOvr = s.cmdOvr := rfl
@[simp] theorem State.hashRequest_accViol (m : List Byte) : (s.hashRequest m).accViol = s.accViol := rfl
@[simp] theorem State.hashRequest_errCode (m : List Byte) : (s.hashRequest m).errCode = s.errCode := rfl
@[simp] theorem State.hashRequest_lastOp (m : List Byte) : (s.hashRequest m).lastOp = s.lastOp := rfl
@[simp] theorem State.hashRequest_arg0 (m : List Byte) : (s.hashRequest m).arg0 = s.arg0 := rfl
@[simp] theorem State.hashRequest_arg1 (m : List Byte) : (s.hashRequest m).arg1 = s.arg1 := rfl
@[simp] theorem State.hashRequest_arg2 (m : List Byte) : (s.hashRequest m).arg2 = s.arg2 := rfl
@[simp] theorem State.hashRequest_result0 (m : List Byte) : (s.hashRequest m).result0 = s.result0 := rfl
@[simp] theorem State.hashRequest_result1 (m : List Byte) : (s.hashRequest m).result1 = s.result1 := rfl
@[simp] theorem State.hashRequest_buf (m : List Byte) : (s.hashRequest m).buf = s.buf := rfl
@[simp] theorem State.hashRequest_rom (m : List Byte) : (s.hashRequest m).rom = s.rom := rfl
@[simp] theorem State.hashRequest_phase (m : List Byte) : (s.hashRequest m).phase = .hashWait := rfl
@[simp] theorem State.hashRequest_point (m : List Byte) : (s.hashRequest m).point = s.point := rfl
@[simp] theorem State.hashRequest_group (m : List Byte) : (s.hashRequest m).group = s.group := rfl
@[simp] theorem State.hashRequest_cmdl (m : List Byte) : (s.hashRequest m).cmdl = s.cmdl := rfl
@[simp] theorem State.hashRequest_argl0 (m : List Byte) : (s.hashRequest m).argl0 = s.argl0 := rfl
@[simp] theorem State.hashRequest_argl1 (m : List Byte) : (s.hashRequest m).argl1 = s.argl1 := rfl
@[simp] theorem State.hashRequest_argl2 (m : List Byte) : (s.hashRequest m).argl2 = s.argl2 := rfl
@[simp] theorem State.hashRequest_ext (m : List Byte) : (s.hashRequest m).ext = s.ext := rfl
@[simp] theorem State.hashRequest_grp (m : List Byte) : (s.hashRequest m).grp = s.grp := rfl
@[simp] theorem State.hashRequest_hashReq (m : List Byte) : (s.hashRequest m).hashReq = true := rfl
@[simp] theorem State.hashRequest_hashLen (m : List Byte) :
    (s.hashRequest m).hashLen = BitVec.ofNat 6 m.length := rfl
@[simp] theorem State.hashRequest_hashMsg (m : List Byte) :
    (s.hashRequest m).hashMsg = BitVec.ofNat 256 (natOfBytes m) := rfl
@[simp] theorem State.hashRequest_d0l (m : List Byte) : (s.hashRequest m).d0l = s.d0l := rfl
@[simp] theorem State.hashRequest_hashKnown (m : List Byte) : (s.hashRequest m).hashKnown = s.hashKnown := rfl
@[simp] theorem State.hashRequest_freeCount (m : List Byte) : (s.hashRequest m).freeCount = s.freeCount := rfl
@[simp] theorem State.hashRequest_agenda (m : List Byte) : (s.hashRequest m).agenda = s.agenda := rfl
@[simp] theorem State.hashRequest_reply (m : List Byte) : (s.hashRequest m).reply = s.reply := rfl

/-! The accept of a command (45_control.md R251). -/

@[simp] theorem State.accept_irqEn (c : Word) : (s.accept c).irqEn = s.irqEn := rfl
@[simp] theorem State.accept_done (c : Word) : (s.accept c).done = false := rfl
@[simp] theorem State.accept_romOk (c : Word) : (s.accept c).romOk = s.romOk := rfl
@[simp] theorem State.accept_romChecked (c : Word) : (s.accept c).romChecked = s.romChecked := rfl
@[simp] theorem State.accept_cmdOvr (c : Word) : (s.accept c).cmdOvr = s.cmdOvr := rfl
@[simp] theorem State.accept_accViol (c : Word) : (s.accept c).accViol = s.accViol := rfl
@[simp] theorem State.accept_errCode (c : Word) : (s.accept c).errCode = .none := rfl
@[simp] theorem State.accept_lastOp (c : Word) : (s.accept c).lastOp = c.extractLsb' 0 8 := rfl
@[simp] theorem State.accept_arg0 (c : Word) : (s.accept c).arg0 = s.arg0 := rfl
@[simp] theorem State.accept_arg1 (c : Word) : (s.accept c).arg1 = s.arg1 := rfl
@[simp] theorem State.accept_arg2 (c : Word) : (s.accept c).arg2 = s.arg2 := rfl
@[simp] theorem State.accept_result0 (c : Word) : (s.accept c).result0 = 0#32 := rfl
@[simp] theorem State.accept_result1 (c : Word) : (s.accept c).result1 = 0#32 := rfl
@[simp] theorem State.accept_buf (c : Word) : (s.accept c).buf = s.buf := rfl
@[simp] theorem State.accept_rom (c : Word) : (s.accept c).rom = s.rom := rfl
@[simp] theorem State.accept_phase (c : Word) : (s.accept c).phase = .exec := rfl
@[simp] theorem State.accept_point (c : Word) : (s.accept c).point = .start := rfl
@[simp] theorem State.accept_group (c : Word) : (s.accept c).group = s.group := rfl
@[simp] theorem State.accept_cmdl (c : Word) : (s.accept c).cmdl = c := rfl
@[simp] theorem State.accept_argl0 (c : Word) : (s.accept c).argl0 = s.arg0 := rfl
@[simp] theorem State.accept_argl1 (c : Word) : (s.accept c).argl1 = s.arg1 := rfl
@[simp] theorem State.accept_argl2 (c : Word) : (s.accept c).argl2 = s.arg2 := rfl
@[simp] theorem State.accept_ext (c : Word) : (s.accept c).ext = s.ext := rfl
@[simp] theorem State.accept_grp (c : Word) : (s.accept c).grp = s.grp := rfl
@[simp] theorem State.accept_hashReq (c : Word) : (s.accept c).hashReq = s.hashReq := rfl
@[simp] theorem State.accept_hashLen (c : Word) : (s.accept c).hashLen = s.hashLen := rfl
@[simp] theorem State.accept_hashMsg (c : Word) : (s.accept c).hashMsg = s.hashMsg := rfl
@[simp] theorem State.accept_d0l (c : Word) : (s.accept c).d0l = s.d0l := rfl
@[simp] theorem State.accept_hashKnown (c : Word) : (s.accept c).hashKnown = s.hashKnown := rfl
@[simp] theorem State.accept_freeCount (c : Word) : (s.accept c).freeCount = s.freeCount := rfl
@[simp] theorem State.accept_agenda (c : Word) : (s.accept c).agenda = s.agenda := rfl
@[simp] theorem State.accept_reply (c : Word) : (s.accept c).reply = s.reply := rfl

/-! The result of a ROM check (40_dictionary.md R151). -/

@[simp] theorem State.recordRomCheck_irqEn : s.recordRomCheck.irqEn = s.irqEn := rfl
@[simp] theorem State.recordRomCheck_done : s.recordRomCheck.done = s.done := rfl
@[simp] theorem State.recordRomCheck_romOk : s.recordRomCheck.romOk = romValid s.rom := rfl
@[simp] theorem State.recordRomCheck_romChecked : s.recordRomCheck.romChecked = true := rfl
@[simp] theorem State.recordRomCheck_cmdOvr : s.recordRomCheck.cmdOvr = s.cmdOvr := rfl
@[simp] theorem State.recordRomCheck_accViol : s.recordRomCheck.accViol = s.accViol := rfl
@[simp] theorem State.recordRomCheck_errCode : s.recordRomCheck.errCode = s.errCode := rfl
@[simp] theorem State.recordRomCheck_lastOp : s.recordRomCheck.lastOp = s.lastOp := rfl
@[simp] theorem State.recordRomCheck_arg0 : s.recordRomCheck.arg0 = s.arg0 := rfl
@[simp] theorem State.recordRomCheck_arg1 : s.recordRomCheck.arg1 = s.arg1 := rfl
@[simp] theorem State.recordRomCheck_arg2 : s.recordRomCheck.arg2 = s.arg2 := rfl
@[simp] theorem State.recordRomCheck_result0 : s.recordRomCheck.result0 = s.result0 := rfl
@[simp] theorem State.recordRomCheck_result1 : s.recordRomCheck.result1 = s.result1 := rfl
@[simp] theorem State.recordRomCheck_buf : s.recordRomCheck.buf = s.buf := rfl
@[simp] theorem State.recordRomCheck_rom : s.recordRomCheck.rom = s.rom := rfl
@[simp] theorem State.recordRomCheck_phase : s.recordRomCheck.phase = s.phase := rfl
@[simp] theorem State.recordRomCheck_point : s.recordRomCheck.point = s.point := rfl
@[simp] theorem State.recordRomCheck_group : s.recordRomCheck.group = s.group := rfl
@[simp] theorem State.recordRomCheck_cmdl : s.recordRomCheck.cmdl = s.cmdl := rfl
@[simp] theorem State.recordRomCheck_argl0 : s.recordRomCheck.argl0 = s.argl0 := rfl
@[simp] theorem State.recordRomCheck_argl1 : s.recordRomCheck.argl1 = s.argl1 := rfl
@[simp] theorem State.recordRomCheck_argl2 : s.recordRomCheck.argl2 = s.argl2 := rfl
@[simp] theorem State.recordRomCheck_ext : s.recordRomCheck.ext = s.ext := rfl
@[simp] theorem State.recordRomCheck_grp : s.recordRomCheck.grp = s.grp := rfl
@[simp] theorem State.recordRomCheck_hashReq : s.recordRomCheck.hashReq = s.hashReq := rfl
@[simp] theorem State.recordRomCheck_hashLen : s.recordRomCheck.hashLen = s.hashLen := rfl
@[simp] theorem State.recordRomCheck_hashMsg : s.recordRomCheck.hashMsg = s.hashMsg := rfl
@[simp] theorem State.recordRomCheck_d0l : s.recordRomCheck.d0l = s.d0l := rfl
@[simp] theorem State.recordRomCheck_hashKnown : s.recordRomCheck.hashKnown = s.hashKnown := rfl
@[simp] theorem State.recordRomCheck_freeCount : s.recordRomCheck.freeCount = s.freeCount := rfl
@[simp] theorem State.recordRomCheck_agenda : s.recordRomCheck.agenda = s.agenda := rfl
@[simp] theorem State.recordRomCheck_reply : s.recordRomCheck.reply = s.reply := rfl

/-! A slot in WOUT and its index in RESULT0 (40_dictionary.md R154). -/

@[simp] theorem State.deliverWord_irqEn (i : Nat) : (s.deliverWord i).irqEn = s.irqEn := rfl
@[simp] theorem State.deliverWord_done (i : Nat) : (s.deliverWord i).done = s.done := rfl
@[simp] theorem State.deliverWord_romOk (i : Nat) : (s.deliverWord i).romOk = s.romOk := rfl
@[simp] theorem State.deliverWord_romChecked (i : Nat) : (s.deliverWord i).romChecked = s.romChecked := rfl
@[simp] theorem State.deliverWord_cmdOvr (i : Nat) : (s.deliverWord i).cmdOvr = s.cmdOvr := rfl
@[simp] theorem State.deliverWord_accViol (i : Nat) : (s.deliverWord i).accViol = s.accViol := rfl
@[simp] theorem State.deliverWord_errCode (i : Nat) : (s.deliverWord i).errCode = s.errCode := rfl
@[simp] theorem State.deliverWord_lastOp (i : Nat) : (s.deliverWord i).lastOp = s.lastOp := rfl
@[simp] theorem State.deliverWord_arg0 (i : Nat) : (s.deliverWord i).arg0 = s.arg0 := rfl
@[simp] theorem State.deliverWord_arg1 (i : Nat) : (s.deliverWord i).arg1 = s.arg1 := rfl
@[simp] theorem State.deliverWord_arg2 (i : Nat) : (s.deliverWord i).arg2 = s.arg2 := rfl
@[simp] theorem State.deliverWord_result0 (i : Nat) : (s.deliverWord i).result0 = BitVec.ofNat 32 i := rfl
@[simp] theorem State.deliverWord_result1 (i : Nat) : (s.deliverWord i).result1 = s.result1 := rfl
@[simp] theorem State.deliverWord_buf (i : Nat) :
    (s.deliverWord i).buf = s.buf.writeBytes Config.woutBase (romSlot s.rom i).toList := rfl
@[simp] theorem State.deliverWord_rom (i : Nat) : (s.deliverWord i).rom = s.rom := rfl
@[simp] theorem State.deliverWord_phase (i : Nat) : (s.deliverWord i).phase = s.phase := rfl
@[simp] theorem State.deliverWord_point (i : Nat) : (s.deliverWord i).point = s.point := rfl
@[simp] theorem State.deliverWord_group (i : Nat) : (s.deliverWord i).group = s.group := rfl
@[simp] theorem State.deliverWord_cmdl (i : Nat) : (s.deliverWord i).cmdl = s.cmdl := rfl
@[simp] theorem State.deliverWord_argl0 (i : Nat) : (s.deliverWord i).argl0 = s.argl0 := rfl
@[simp] theorem State.deliverWord_argl1 (i : Nat) : (s.deliverWord i).argl1 = s.argl1 := rfl
@[simp] theorem State.deliverWord_argl2 (i : Nat) : (s.deliverWord i).argl2 = s.argl2 := rfl
@[simp] theorem State.deliverWord_ext (i : Nat) : (s.deliverWord i).ext = s.ext := rfl
@[simp] theorem State.deliverWord_grp (i : Nat) : (s.deliverWord i).grp = s.grp := rfl
@[simp] theorem State.deliverWord_hashReq (i : Nat) : (s.deliverWord i).hashReq = s.hashReq := rfl
@[simp] theorem State.deliverWord_hashLen (i : Nat) : (s.deliverWord i).hashLen = s.hashLen := rfl
@[simp] theorem State.deliverWord_hashMsg (i : Nat) : (s.deliverWord i).hashMsg = s.hashMsg := rfl
@[simp] theorem State.deliverWord_d0l (i : Nat) : (s.deliverWord i).d0l = s.d0l := rfl
@[simp] theorem State.deliverWord_hashKnown (i : Nat) : (s.deliverWord i).hashKnown = s.hashKnown := rfl
@[simp] theorem State.deliverWord_freeCount (i : Nat) : (s.deliverWord i).freeCount = s.freeCount := rfl
@[simp] theorem State.deliverWord_agenda (i : Nat) : (s.deliverWord i).agenda = s.agenda := rfl
@[simp] theorem State.deliverWord_reply (i : Nat) : (s.deliverWord i).reply = s.reply := rfl

/-! ENCODE's working buffers (43_codec_encode.md R203). -/

@[simp] theorem State.encodeWork_irqEn : s.encodeWork.irqEn = s.irqEn := rfl
@[simp] theorem State.encodeWork_done : s.encodeWork.done = s.done := rfl
@[simp] theorem State.encodeWork_romOk : s.encodeWork.romOk = s.romOk := rfl
@[simp] theorem State.encodeWork_romChecked : s.encodeWork.romChecked = s.romChecked := rfl
@[simp] theorem State.encodeWork_cmdOvr : s.encodeWork.cmdOvr = s.cmdOvr := rfl
@[simp] theorem State.encodeWork_accViol : s.encodeWork.accViol = s.accViol := rfl
@[simp] theorem State.encodeWork_errCode : s.encodeWork.errCode = s.errCode := rfl
@[simp] theorem State.encodeWork_lastOp : s.encodeWork.lastOp = s.lastOp := rfl
@[simp] theorem State.encodeWork_arg0 : s.encodeWork.arg0 = s.arg0 := rfl
@[simp] theorem State.encodeWork_arg1 : s.encodeWork.arg1 = s.arg1 := rfl
@[simp] theorem State.encodeWork_arg2 : s.encodeWork.arg2 = s.arg2 := rfl
@[simp] theorem State.encodeWork_result0 : s.encodeWork.result0 = s.result0 := rfl
@[simp] theorem State.encodeWork_result1 : s.encodeWork.result1 = s.result1 := rfl
@[simp] theorem State.encodeWork_buf : s.encodeWork.buf = s.buf := rfl
@[simp] theorem State.encodeWork_rom : s.encodeWork.rom = s.rom := rfl
@[simp] theorem State.encodeWork_phase : s.encodeWork.phase = s.phase := rfl
@[simp] theorem State.encodeWork_point : s.encodeWork.point = s.point := rfl
@[simp] theorem State.encodeWork_group : s.encodeWork.group = Fin.ofNat 25 (nrWords s.op0) := rfl
@[simp] theorem State.encodeWork_cmdl : s.encodeWork.cmdl = s.cmdl := rfl
@[simp] theorem State.encodeWork_argl0 : s.encodeWork.argl0 = s.argl0 := rfl
@[simp] theorem State.encodeWork_argl1 : s.encodeWork.argl1 = s.argl1 := rfl
@[simp] theorem State.encodeWork_argl2 : s.encodeWork.argl2 = s.argl2 := rfl
@[simp] theorem State.encodeWork_ext : s.encodeWork.ext = encodeExt (s.keyBytes s.op0) s.d0l := rfl
@[simp] theorem State.encodeWork_grp :
    s.encodeWork.grp = encodeGroup (encodeExt (s.keyBytes s.op0) s.d0l) (nrWords s.op0 - 1) := rfl
@[simp] theorem State.encodeWork_hashReq : s.encodeWork.hashReq = s.hashReq := rfl
@[simp] theorem State.encodeWork_hashLen : s.encodeWork.hashLen = s.hashLen := rfl
@[simp] theorem State.encodeWork_hashMsg : s.encodeWork.hashMsg = s.hashMsg := rfl
@[simp] theorem State.encodeWork_d0l : s.encodeWork.d0l = s.d0l := rfl
@[simp] theorem State.encodeWork_hashKnown : s.encodeWork.hashKnown = s.hashKnown := rfl
@[simp] theorem State.encodeWork_freeCount : s.encodeWork.freeCount = s.freeCount := rfl
@[simp] theorem State.encodeWork_agenda : s.encodeWork.agenda = s.agenda := rfl
@[simp] theorem State.encodeWork_reply : s.encodeWork.reply = s.reply := rfl

/-! The reply of a transaction (20_memory.md R81). -/

@[simp] theorem State.replyWith_irqEn (r : BusResp) (d : Option Word) :
    (s.replyWith r d).irqEn = s.irqEn := rfl
@[simp] theorem State.replyWith_done (r : BusResp) (d : Option Word) : (s.replyWith r d).done = s.done := rfl
@[simp] theorem State.replyWith_romOk (r : BusResp) (d : Option Word) :
    (s.replyWith r d).romOk = s.romOk := rfl
@[simp] theorem State.replyWith_romChecked (r : BusResp) (d : Option Word) :
    (s.replyWith r d).romChecked = s.romChecked := rfl
@[simp] theorem State.replyWith_cmdOvr (r : BusResp) (d : Option Word) :
    (s.replyWith r d).cmdOvr = s.cmdOvr := rfl
@[simp] theorem State.replyWith_accViol (r : BusResp) (d : Option Word) :
    (s.replyWith r d).accViol = s.accViol := rfl
@[simp] theorem State.replyWith_errCode (r : BusResp) (d : Option Word) :
    (s.replyWith r d).errCode = s.errCode := rfl
@[simp] theorem State.replyWith_lastOp (r : BusResp) (d : Option Word) :
    (s.replyWith r d).lastOp = s.lastOp := rfl
@[simp] theorem State.replyWith_arg0 (r : BusResp) (d : Option Word) : (s.replyWith r d).arg0 = s.arg0 := rfl
@[simp] theorem State.replyWith_arg1 (r : BusResp) (d : Option Word) : (s.replyWith r d).arg1 = s.arg1 := rfl
@[simp] theorem State.replyWith_arg2 (r : BusResp) (d : Option Word) : (s.replyWith r d).arg2 = s.arg2 := rfl
@[simp] theorem State.replyWith_result0 (r : BusResp) (d : Option Word) :
    (s.replyWith r d).result0 = s.result0 := rfl
@[simp] theorem State.replyWith_result1 (r : BusResp) (d : Option Word) :
    (s.replyWith r d).result1 = s.result1 := rfl
@[simp] theorem State.replyWith_buf (r : BusResp) (d : Option Word) : (s.replyWith r d).buf = s.buf := rfl
@[simp] theorem State.replyWith_rom (r : BusResp) (d : Option Word) : (s.replyWith r d).rom = s.rom := rfl
@[simp] theorem State.replyWith_phase (r : BusResp) (d : Option Word) :
    (s.replyWith r d).phase = s.phase := rfl
@[simp] theorem State.replyWith_point (r : BusResp) (d : Option Word) :
    (s.replyWith r d).point = s.point := rfl
@[simp] theorem State.replyWith_group (r : BusResp) (d : Option Word) :
    (s.replyWith r d).group = s.group := rfl
@[simp] theorem State.replyWith_cmdl (r : BusResp) (d : Option Word) : (s.replyWith r d).cmdl = s.cmdl := rfl
@[simp] theorem State.replyWith_argl0 (r : BusResp) (d : Option Word) :
    (s.replyWith r d).argl0 = s.argl0 := rfl
@[simp] theorem State.replyWith_argl1 (r : BusResp) (d : Option Word) :
    (s.replyWith r d).argl1 = s.argl1 := rfl
@[simp] theorem State.replyWith_argl2 (r : BusResp) (d : Option Word) :
    (s.replyWith r d).argl2 = s.argl2 := rfl
@[simp] theorem State.replyWith_ext (r : BusResp) (d : Option Word) : (s.replyWith r d).ext = s.ext := rfl
@[simp] theorem State.replyWith_grp (r : BusResp) (d : Option Word) : (s.replyWith r d).grp = s.grp := rfl
@[simp] theorem State.replyWith_hashReq (r : BusResp) (d : Option Word) :
    (s.replyWith r d).hashReq = s.hashReq := rfl
@[simp] theorem State.replyWith_hashLen (r : BusResp) (d : Option Word) :
    (s.replyWith r d).hashLen = s.hashLen := rfl
@[simp] theorem State.replyWith_hashMsg (r : BusResp) (d : Option Word) :
    (s.replyWith r d).hashMsg = s.hashMsg := rfl
@[simp] theorem State.replyWith_d0l (r : BusResp) (d : Option Word) : (s.replyWith r d).d0l = s.d0l := rfl
@[simp] theorem State.replyWith_hashKnown (r : BusResp) (d : Option Word) :
    (s.replyWith r d).hashKnown = s.hashKnown := rfl
@[simp] theorem State.replyWith_freeCount (r : BusResp) (d : Option Word) :
    (s.replyWith r d).freeCount = s.freeCount := rfl
@[simp] theorem State.replyWith_agenda (r : BusResp) (d : Option Word) :
    (s.replyWith r d).agenda = s.agenda := rfl
@[simp] theorem State.replyWith_reply (r : BusResp) (d : Option Word) :
    (s.replyWith r d).reply = some ⟨r, d⟩ := rfl

/-! A reset (10_state.md R52). -/

@[simp] theorem State.resetDrawing_irqEn (l : List Nat) : (s.resetDrawing l).irqEn = false := rfl
@[simp] theorem State.resetDrawing_done (l : List Nat) : (s.resetDrawing l).done = false := rfl
@[simp] theorem State.resetDrawing_romOk (l : List Nat) : (s.resetDrawing l).romOk = false := rfl
@[simp] theorem State.resetDrawing_romChecked (l : List Nat) : (s.resetDrawing l).romChecked = false := rfl
@[simp] theorem State.resetDrawing_cmdOvr (l : List Nat) : (s.resetDrawing l).cmdOvr = false := rfl
@[simp] theorem State.resetDrawing_accViol (l : List Nat) : (s.resetDrawing l).accViol = false := rfl
@[simp] theorem State.resetDrawing_errCode (l : List Nat) : (s.resetDrawing l).errCode = .none := rfl
@[simp] theorem State.resetDrawing_lastOp (l : List Nat) : (s.resetDrawing l).lastOp = 0#8 := rfl
@[simp] theorem State.resetDrawing_arg0 (l : List Nat) : (s.resetDrawing l).arg0 = 0#32 := rfl
@[simp] theorem State.resetDrawing_arg1 (l : List Nat) : (s.resetDrawing l).arg1 = 0#32 := rfl
@[simp] theorem State.resetDrawing_arg2 (l : List Nat) : (s.resetDrawing l).arg2 = 0#32 := rfl
@[simp] theorem State.resetDrawing_result0 (l : List Nat) : (s.resetDrawing l).result0 = 0#32 := rfl
@[simp] theorem State.resetDrawing_result1 (l : List Nat) : (s.resetDrawing l).result1 = 0#32 := rfl
@[simp] theorem State.resetDrawing_buf (l : List Nat) :
    (s.resetDrawing l).buf = s.buf.drawBytes s.freeCount l := rfl
@[simp] theorem State.resetDrawing_rom (l : List Nat) : (s.resetDrawing l).rom = s.rom := rfl
@[simp] theorem State.resetDrawing_phase (l : List Nat) : (s.resetDrawing l).phase = .check := rfl
@[simp] theorem State.resetDrawing_point (l : List Nat) : (s.resetDrawing l).point = .start := rfl
@[simp] theorem State.resetDrawing_group (l : List Nat) : (s.resetDrawing l).group = 0 := rfl
@[simp] theorem State.resetDrawing_cmdl (l : List Nat) : (s.resetDrawing l).cmdl = 0#32 := rfl
@[simp] theorem State.resetDrawing_argl0 (l : List Nat) : (s.resetDrawing l).argl0 = 0#32 := rfl
@[simp] theorem State.resetDrawing_argl1 (l : List Nat) : (s.resetDrawing l).argl1 = 0#32 := rfl
@[simp] theorem State.resetDrawing_argl2 (l : List Nat) : (s.resetDrawing l).argl2 = 0#32 := rfl
@[simp] theorem State.resetDrawing_ext (l : List Nat) :
    (s.resetDrawing l).ext = Vector.replicate 33 0#8 := rfl
@[simp] theorem State.resetDrawing_grp (l : List Nat) : (s.resetDrawing l).grp = Vector.replicate 2 0#8 := rfl
@[simp] theorem State.resetDrawing_hashReq (l : List Nat) : (s.resetDrawing l).hashReq = false := rfl
@[simp] theorem State.resetDrawing_hashLen (l : List Nat) : (s.resetDrawing l).hashLen = 0#6 := rfl
@[simp] theorem State.resetDrawing_hashMsg (l : List Nat) : (s.resetDrawing l).hashMsg = 0#256 := rfl
@[simp] theorem State.resetDrawing_d0l (l : List Nat) : (s.resetDrawing l).d0l = 0#8 := rfl
@[simp] theorem State.resetDrawing_hashKnown (l : List Nat) :
    (s.resetDrawing l).hashKnown = s.hashKnown := rfl
@[simp] theorem State.resetDrawing_freeCount (l : List Nat) :
    (s.resetDrawing l).freeCount = s.freeCount + l.length := rfl
@[simp] theorem State.resetDrawing_agenda (l : List Nat) : (s.resetDrawing l).agenda = s.agenda := rfl
@[simp] theorem State.resetDrawing_reply (l : List Nat) : (s.resetDrawing l).reply = s.reply := rfl

end Sys2Proof.Machine
end

