-- ==== Sys2Proof/Tests/Slice0.lean ====
section
/-! SUPPORT. The model's own tests: the WellFormed smoke, decoding, single steps with the expected
results of 95_test_vectors.md, and a witness for the hypotheses of every statement that has some. -/

namespace Sys2Proof.Tests

open Sys2Proof.Machine

/-! ### Small states -/

/-- Slot `i` of TESTLIST (95_test_vectors.md section 0). -/
def testSlot (i : Nat) : Slot :=
  #v[BitVec.ofNat 8 (97 + i / 256), BitVec.ofNat 8 (97 + i / 16 % 16), BitVec.ofNat 8 (97 + i % 16),
    0#8, 0#8, 0#8, 0#8, 0#8]

/-- TESTLIST (95_test_vectors.md section 0). -/
def testRom : Rom := ⟨⟨(List.range 2048).map testSlot⟩, by simp⟩

/-- TESTLIST with slots 0 and 1 swapped (V-DIC-17). -/
def swappedRom : Rom := (testRom.set 0 (testSlot 1)).set 1 (testSlot 0)

/-- IDLE after a passing ROM check over TESTLIST, with operands and BUF bytes. -/
def idle (a0 a1 a2 : Word) (bytes : List Host.Cell) : State :=
  { State.reset with
    phase := .idle, romOk := true, romChecked := true, rom := testRom, arg0 := a0, arg1 := a1,
    arg2 := a2, buf := (bytes.foldl (fun m c => m.write c.1 c.2) ⟨[]⟩) }

/-- The cells of a byte list from an address on. -/
def cellsAt (a : Nat) (bs : List Byte) : List Host.Cell := bs.zipIdx.map fun bi => (a + bi.2, bi.1)

/-- An outcome's next state. -/
def next? : Host.Outcome State Fault Refusal → Option State
  | .next t => some t
  | .fault _ => none
  | .refused _ => none

/-- The state after the FSM's step on a command just accepted. -/
def ran (c : Word) (s : State) : Option State := next? (fsmStep (s.accept c))

/-- The state after the FSM's step on a command whose hash request has been answered with `d`, with the
given EXT. -/
def finished (c : Word) (d : Byte) (ext : Vector Byte 33) (s : State) : Option State :=
  next? (fsmStep { s.accept c with point := .afterHash, d0l := d, ext := ext })

/-- STATUS, RESULT0 and RESULT1. -/
def regs (t : State) : Word × Word × Word := (t.statusWord, t.result0, t.result1)

/-- The state after one host transaction. -/
def bus (x : Txn) (s : State) : State := hostTxn x s

/-- Waiting for the hash: ENCODE of a 16-byte zero key (V-ENC-16). -/
def waiting : State :=
  { (idle 16#32 0#32 0#32 (cellsAt 0 (List.replicate 16 0#8))).accept 0x00000006#32 with
    hashReq := true, hashLen := 16#6, hashMsg := 0#256, phase := .hashWait }

/-! ### WellFormed: a word that fails each check of 30_encoding.md R122 -/

theorem test_valid_words : ([0x000#32, 0x001#32, 0x002#32, 0x102#32, 0x202#32, 0x302#32, 0x003#32,
    0x004#32, 0x005#32, 0x006#32, 0x007#32, 0x008#32, 0x009#32] : List Word).all validWord = true := by
  decide
theorem test_reserved_opcode_refused : validWord 0x0000000A#32 = false := by decide
theorem test_last_reserved_opcode_refused : validWord 0x000000FF#32 = false := by decide
theorem test_rj_without_bitx_refused : validWord 0x00000104#32 = false := by decide
theorem test_ord_without_bitx_refused : validWord 0x00000200#32 = false := by decide
theorem test_bitx_reserved_bit_refused : validWord 0x00000402#32 = false := by decide
theorem test_plain_reserved_bit_refused : validWord 0x80000006#32 = false := by decide

/-! ### Decoding: words written out from 30_encoding.md R120, reserved, ORD, RJ, OP -/

theorem test_decode_nop : decodeWord 0b0000000000000000000000_0_0_00000000#32 = .ok .nop := by decide
theorem test_decode_clear : decodeWord 0b0000000000000000000000_0_0_00000001#32 = .ok .clear := by decide
theorem test_decode_bitx : decodeWord 0b0000000000000000000000_0_0_00000010#32 = .ok (.bitx false .msb) := by
  decide
theorem test_decode_bitx_rj : decodeWord 0b0000000000000000000000_0_1_00000010#32 = .ok (.bitx true .msb) := by
  decide
theorem test_decode_bitx_lsb : decodeWord 0b0000000000000000000000_1_0_00000010#32 = .ok (.bitx false .lsb) := by
  decide
theorem test_decode_brev : decodeWord 0b0000000000000000000000_0_0_00000011#32 = .ok .brev := by decide
theorem test_decode_dword : decodeWord 0b0000000000000000000000_0_0_00000100#32 = .ok .dword := by decide
theorem test_decode_dindex : decodeWord 0b0000000000000000000000_0_0_00000101#32 = .ok .dindex := by decide
theorem test_decode_encode : decodeWord 0b0000000000000000000000_0_0_00000110#32 = .ok .encode := by decide
theorem test_decode_decode : decodeWord 0b0000000000000000000000_0_0_00000111#32 = .ok .decode := by decide
theorem test_decode_decidx : decodeWord 0b0000000000000000000000_0_0_00001000#32 = .ok .decidx := by decide
theorem test_decode_romchk : decodeWord 0b0000000000000000000000_0_0_00001001#32 = .ok .romchk := by decide
theorem test_decode_table_word : decodeTableWord 32 0x302 = some (.bitx true .lsb) := by decide
theorem test_decode_table_illegal : decodeTableWord 32 0x104 = none := by decide

/-! ### Commands, one step each (95_test_vectors.md) -/

/-- V-CTL-1. -/
theorem test_nop : (ran 0x00000000#32 (idle 0#32 0#32 0#32 [])).map regs
    = some (0x0000001A#32, 0#32, 0#32) := by decide
/-- V-CTL-4. -/
theorem test_illegal : (ran 0x00000104#32 (idle 0#32 0#32 0#32 [])).map regs
    = some (0x0004081E#32, 0#32, 0#32) := by decide
/-- V-CL-1. -/
theorem test_clear :
    (ran 0x00000001#32 (idle 0x70#32 2#32 0#32 [(0x70, 0x12#8), (0x71, 0x34#8), (0x72, 0x56#8)])).map
      (fun t => (t.statusWord, t.buf.readBytes 0x70 3))
      = some (0x0001001A#32, [0x00#8, 0x00#8, 0x56#8]) := by decide
/-- V-CL-4: the sum does not wrap. -/
theorem test_clear_no_wrap : (ran 0x00000001#32 (idle 0#32 0xFFFFFFFF#32 0#32 [])).map regs
    = some (0x0001091E#32, 0#32, 0#32) := by decide
/-- V-BR-2. -/
theorem test_brev :
    (ran 0x00000003#32 (idle 0x60#32 4#32 0#32
        (cellsAt 0x60 [0x01#8, 0xC0#8, 0x66#8, 0x1E#8]))).map
      (fun t => (t.statusWord, t.buf.readBytes 0x60 4))
      = some (0x0003001A#32, [0x80#8, 0x03#8, 0x66#8, 0x78#8]) := by decide
/-- V-BR-3. -/
theorem test_brev_range : (ran 0x00000003#32 (idle 512#32 1#32 0#32 [])).map regs
    = some (0x0003091E#32, 0#32, 0#32) := by decide
/-- V-BX-1 (MSB, right-justified). -/
theorem test_bitx_rj :
    (ran 0x00000102#32 (idle 771#32 782#32 896#32
        (cellsAt 0x60 [0xAB#8, 0xCD#8] ++ cellsAt 0x70 [0#8, 0#8]))).map
      (fun t => (t.statusWord, t.buf.readBytes 0x70 2))
      = some (0x0002001A#32, [0x02#8, 0xF3#8]) := by decide
/-- V-BX-4 (LSB, right-justified). -/
theorem test_bitx_rj_lsb :
    (ran 0x00000302#32 (idle 771#32 782#32 896#32
        (cellsAt 0x60 [0xAB#8, 0xCD#8] ++ cellsAt 0x70 [0#8, 0#8]))).map
      (fun t => (t.statusWord, t.buf.readBytes 0x70 2))
      = some (0x0002001A#32, [0xA0#8, 0x36#8]) := by decide
set_option maxRecDepth 100000 in
/-- V-DIC-6. -/
theorem test_dword : (ran 0x00000004#32 (idle 1234#32 0#32 0#32 [])).map
      (fun t => (regs t, t.buf.readBytes 0x58 8))
    = some ((0x0004001A#32, 1234#32, 0#32), [0x65#8, 0x6E#8, 0x63#8, 0#8, 0#8, 0#8, 0#8, 0#8]) := by
  decide
/-- V-DIC-4. -/
theorem test_dword_range : (ran 0x00000004#32 (idle 0x00010000#32 0#32 0#32 [])).map regs
    = some (0x0004061E#32, 0#32, 0#32) := by decide
set_option maxRecDepth 100000 in
/-- V-DIC-9. -/
theorem test_dindex :
    (ran 0x00000005#32 (idle 0#32 0#32 0#32
        (cellsAt 0x50 [0x61#8, 0x62#8, 0x63#8, 0#8, 0x51#8, 0x51#8, 0x51#8, 0x51#8]))).map
      (fun t => (regs t, t.buf.readBytes 0x58 8))
      = some ((0x0005001A#32, 18#32, 0#32), [0x61#8, 0x62#8, 0x63#8, 0#8, 0#8, 0#8, 0#8, 0#8]) := by
  decide
set_option maxRecDepth 100000 in
/-- V-DIC-13. -/
theorem test_dindex_case :
    (ran 0x00000005#32 (idle 0#32 0#32 0#32
        (cellsAt 0x50 [0x41#8, 0x61#8, 0x61#8, 0#8, 0#8, 0#8, 0#8, 0#8]))).map regs
      = some (0x0005071E#32, 0#32, 0#32) := by decide
set_option maxRecDepth 100000 in
/-- V-DIC-16. -/
theorem test_romchk : (ran 0x00000009#32 (idle 0#32 0#32 0#32 [])).map regs
    = some (0x0009001A#32, 0#32, 0#32) := by decide
set_option maxRecDepth 100000 in
/-- V-DIC-17. -/
theorem test_swapped_rom :
    next? (fsmStep { State.reset with rom := swappedRom }) |>.map State.statusWord
      |> (· = some 0x00000010#32) := by decide
/-- V-ENC-16: the request. -/
theorem test_encode_request :
    (ran 0x00000006#32 (idle 16#32 0#32 0#32 (cellsAt 0 (List.replicate 16 0#8)))).map
      (fun t => (t.statusWord, t.hashReq, t.hashLen, t.hashMsg))
      = some (0x00060099#32, true, 16#6, 0#256) := by decide
set_option maxRecDepth 100000 in
/-- V-ENC-9, its registers and four indices (1028, 32, 257, 4). -/
theorem test_encode :
    (finished 0x00000006#32 0x4E#8 (Vector.replicate 33 0#8)
        (idle 16#32 0#32 0#32 (cellsAt 0 (List.replicate 16 0x80#8)))).map
      (fun t => (regs t, [0, 1, 2, 11, 12].map fun i => t.buf.le16 (0x20 + 2 * i)))
      = some ((0x0006001A#32, 12#32, 0x00044000#32), [1028, 32, 257, 4, 0]) := by decide
set_option maxRecDepth 100000 in
/-- V-DEC-9: the second word fails. -/
theorem test_decode_unknown :
    (ran 0x00000007#32 (idle 12#32 0#32 0#32
        (cellsAt 0x100 ((testSlot 0).toList ++ [0x7A#8, 0x7A#8, 0x7A#8, 0#8, 0#8, 0#8, 0#8, 0#8])))).map
      regs
      = some (0x0007041E#32, 0#32, 0x01000000#32) := by decide
/-- V-DEC-2: the mismatch still writes the key. -/
theorem test_decode_mismatch :
    (finished 0x00000007#32 0x37#8 (Vector.replicate 33 0#8)
        (idle 12#32 0#32 0#32 (cellsAt 0 (List.replicate 32 0xEE#8)))).map
      (fun t => (regs t, t.buf.readBytes 0 32))
      = some ((0x0007051E#32, 16#32, 0x00043000#32), List.replicate 32 0#8) := by decide
set_option maxRecDepth 100000 in
/-- V-DIX-3, up to its request: the message is 16 bytes 0xFF, and EXT[16] is 0xF0. -/
theorem test_decidx_request :
    (ran 0x00000008#32 (idle 12#32 0#32 0#32
        (cellsAt 0x20 ((List.replicate 12 [0xFF#8, 0x07#8]).flatten)))).map
      (fun t => (t.statusWord, t.hashLen, t.hashMsg, byteAt t.ext 16))
      = some (0x00080099#32, 16#6, 0xFFFFFFFFFFFFFFFFFFFFFFFFFFFFFFFF#256, 0xF0#8) := by decide
/-- V-DIX-9: the lowest failing entry. -/
theorem test_decidx_range :
    (ran 0x00000008#32 (idle 12#32 0#32 0#32
        (cellsAt 0x20 [0x00#8, 0x00#8, 0x00#8, 0x08#8, 0x00#8, 0x00#8, 0x00#8, 0x08#8]))).map regs
      = some (0x0008061E#32, 0#32, 0x01000000#32) := by decide

/-! ### Group fix-up (V-FX-5, V-FX-8) -/

theorem test_unfix : unfixGroup 2037 = #v[0xE0#8, 0xAF#8] := by decide
theorem test_fix : fixGroup 0x80#8 0x00#8 = 256 := by decide

/-! ### The bus and the resets -/

/-- V-BUS-5. -/
theorem test_window_write :
    ((bus (.write 0x250#10 0x64636261#32) (idle 0#32 0#32 0#32 [])).buf.readBytes 0x50 4)
      = [0x61#8, 0x62#8, 0x63#8, 0x64#8] := by decide
/-- V-HZ-1. -/
theorem test_window_busy :
    ((bus (.read 0x200#10) waiting).reply, (bus (.read 0x200#10) waiting).statusWord)
      = (some ⟨.slverr, some 0#32⟩, 0x000600D9#32) := by decide
/-- V-BUS-2. -/
theorem test_misaligned :
    (bus (.write 0x011#10 6#32) (idle 0#32 0#32 0#32 [])).statusWord = 0x00000018#32 := by decide
/-- V-REG-2. -/
theorem test_param : (bus (.read 0x004#10) State.reset).reply = some ⟨.okay, some 0x09B81820#32⟩ := by
  decide
/-- V-REG-3. -/
theorem test_status_in_check : State.reset.statusWord = 0x00000001#32 := by decide
/-- V-REG-10. -/
theorem test_soft_reset :
    (bus (.write 0x008#10 3#32) (idle 5#32 0#32 0#32 [])).ctrlWord = 0#32 := by decide
/-- V-OVR-1. -/
theorem test_command_while_busy :
    (bus (.write 0x010#10 0x0000000A#32) ((idle 0#32 0#32 0#32 []).accept 0#32)).statusWord
      = 0x00000039#32 := by decide
set_option maxRecDepth 100000 in
/-- V-HZ-4: the request falls, and BUF outside IDX and WORDS is unchanged. -/
theorem test_reset_in_hash_wait :
    ((bus (.write 0x008#10 2#32) waiting).hashReq,
      (bus (.write 0x008#10 2#32) waiting).buf.readBytes 0 16)
      = (false, List.replicate 16 0#8) := by decide
/-- V-HZ-5. -/
theorem test_late_acknowledge : (idle 0#32 0#32 0#32 []).hashAnswer = idle 0#32 0#32 0#32 [] := rfl
/-- Reset memory has the canonical form. -/
theorem test_reset_memory : State.reset.buf.wf := Memory.wf_empty

/-! ### Witnesses: states and operands that meet the hypotheses of each statement -/

/-- A state in a phase with an agenda. -/
def inPhase (p : Phase) (ag : List Event) : State := { State.reset with phase := p, agenda := ag }

/-- A state with latched operands. -/
def latched (a0 a1 a2 : Word) : State := { State.reset with argl0 := a0, argl1 := a1, argl2 := a2 }

set_option maxRecDepth 100000 in
theorem test_rom_valid : romValid testRom = true := by decide

set_option maxRecDepth 100000 in
theorem test_lookup : romLookup testRom [0x61#8, 0x62#8, 0x63#8] = some 18 := by decide

/-- IDLE after the check, an accept pending. -/
def accepting : State := { idle 16#32 0#32 0#32 [] with agenda := [.host (.write 0x010#10 6#32)] }

theorem witness_inv : Inv accepting where
  bufCanonical := by decide
  requestIffWaiting := rfl
  checkedIffLeftCheck := by decide
  romOkIsValidity := by
    show true = (true && romValid testRom)
    rw [test_rom_valid]
    rfl
  quietWhileBusy := fun h => absurd h (by decide)
  noInvalidWordIndex := by decide
  lastOpIsOpcode := by decide
  waitingIsCodec := fun h => absurd h (by decide)
  portLength := fun h => absurd h (by decide)

/-- HASH_WAIT of a running ENCODE. -/
theorem witness_inv_waiting : Inv waiting where
  bufCanonical := by decide
  requestIffWaiting := rfl
  checkedIffLeftCheck := by decide
  romOkIsValidity := by
    show true = (true && romValid testRom)
    rw [test_rom_valid]
    rfl
  quietWhileBusy := fun _ => by decide
  noInvalidWordIndex := by decide
  lastOpIsOpcode := fun _ => by decide
  waitingIsCodec := fun _ => .inl ⟨rfl, rfl, by decide⟩
  portLength := fun _ => by decide

theorem witness_OpcodeMapDecodesEachWord :
    0x0A ≤ ((0x0000000A#32).extractLsb' 0 8).toNat ∧ 0x0A ≤ ((0xFFFFFFFF#32).extractLsb' 0 8).toNat := by
  decide
theorem witness_DecodingInvertsEncoding :
    (Instr.bitx true .lsb).wellFormed = true ∧ decodeWord 0x302#32 = .ok (.bitx true .lsb) := by decide
theorem witness_StepRunsTheDecodedCommand :
    ∃ s s' : State, (s.phase = .exec ∧ decodeWord s.cmdl = .ok .nop ∧ s.agenda = [])
      ∧ s'.phase = .exec ∧ decodeWord s'.cmdl = .ok .nop ∧ s'.agenda = [.fsm] :=
  ⟨inPhase .exec [], inPhase .exec [.fsm], by decide⟩
theorem witness_AcceptLatchesCommandAndOperands :
    accepting.phase = .idle ∧ accepting.agenda = [.host (.write 0x010#10 6#32)] := by decide
theorem witness_CommandWriteWhileBusyIsDropped :
    ∃ s : State, s.phase ≠ .idle ∧ s.agenda = [.host (.write 0x010#10 6#32)] :=
  ⟨inPhase .hashWait [.host (.write 0x010#10 6#32)], by decide⟩
theorem witness_IllegalWordCompletesWithBadOpcode :
    (∃ s : State, s.phase = .idle ∧ s.agenda = [.host (.write 0x010#10 0x104#32), .fsm])
      ∧ ∀ i, decodeWord 0x104#32 ≠ .ok i :=
  ⟨⟨inPhase .idle [.host (.write 0x010#10 0x104#32), .fsm], by decide⟩, fun i h => by
    have : decodeWord 0x104#32 = .error .modifierBits := by decide
    rw [this] at h
    cases h⟩
theorem witness_PhaseMovesOnlyAsSpecified : Inv accepting ∧ ∃ t, step accepting = .next t :=
  ⟨witness_inv, _, rfl⟩
theorem witness_AcceptedCommandCompletesOnceTheHashAnswers :
    ∃ s : State, s.phase = .idle
      ∧ s.agenda = [.host (.write 0x010#10 6#32), .fsm, .hashAck, .fsm] :=
  ⟨inPhase .idle [.host (.write 0x010#10 6#32), .fsm, .hashAck, .fsm], by decide⟩
/-- Both clauses at their common boundary, for CLEAR and for BREV. -/
theorem witness_ClearZeroesItsRange_BrevReversesEachByte :
    (latched 512#32 0#32 0#32).argl0.toNat + (latched 512#32 0#32 0#32).argl1.toNat ≤ 512
      ∧ 512 < (latched 512#32 1#32 0#32).argl0.toNat + (latched 512#32 1#32 0#32).argl1.toNat := by
  decide
/-- FROM, TO, DST at the ends of their ranges: TO = 4096 and DST + C = 4096 pass (V-BX-14, V-BX-16),
TO = FROM, TO = 4097, DST + C = 4097 and a shared byte do not (V-BX-11, 13, 15, 17). -/
theorem witness_BitxOrsTheSpanOrRefuses :
    bitxOk 4088 4096 0 false = true ∧ bitxOk 768 779 4080 true = true ∧ bitxOk 800 800 0 false = false
      ∧ bitxOk 4090 4097 0 false = false ∧ bitxOk 768 779 4081 true = false
      ∧ bitxOk 768 784 772 false = false := by decide
/-- An 11-bit and an 8-bit span into zeroed, aligned containers. -/
theorem witness_CompletedBitxObeysItsLaws :
    (∃ s t : State, exec (.bitx true .msb) s = .next t ∧ t.errCode = .none
        ∧ s.argl2.toNat % 8 = 0 ∧ s.argl1.toNat - s.argl0.toNat = 11
        ∧ s.buf.read (s.argl2.toNat / 8) = 0#8 ∧ s.buf.read (s.argl2.toNat / 8 + 1) = 0#8)
      ∧ ∃ s t : State, exec (.bitx true .msb) s = .next t ∧ t.errCode = .none
        ∧ s.argl2.toNat % 8 = 0 ∧ s.argl1.toNat - s.argl0.toNat = 8
        ∧ s.buf.read (s.argl2.toNat / 8) = 0#8 := by
  refine ⟨⟨(idle 771#32 782#32 896#32 (cellsAt 0x70 [0#8, 0#8])).accept 0x102#32, _, rfl, ?_⟩,
    ⟨(idle 768#32 776#32 896#32 (cellsAt 0x70 [0#8])).accept 0x102#32, _, rfl, ?_⟩⟩ <;> decide
theorem witness_RomValidityIsTheStatedPredicate_LookupIsTheUniqueMatch :
    romValid testRom = true := test_rom_valid
theorem witness_RomCheckEndsInIdle :
    ((inPhase .check []).phase = .check ∧ (inPhase .check []).agenda = [])
      ∧ (inPhase .check [.fsm]).agenda = [.fsm] ∧ (inPhase .check [.internal]).agenda = [.internal]
      ∧ (inPhase .check [.host (.write 0x010#10 0#32)]).agenda = [.host (.write 0x010#10 0#32)] := by
  decide
theorem witness_DwordDeliversTheSlot :
    (latched 0#32 0#32 0#32).romOk = false
      ∧ ((idle 2048#32 0#32 0#32 []).accept 4#32).romOk = true
      ∧ 2048 ≤ ((idle 2048#32 0#32 0#32 []).accept 4#32).argl0.toNat
      ∧ ((idle 2047#32 0#32 0#32 []).accept 4#32).romOk = true
      ∧ ((idle 2047#32 0#32 0#32 []).accept 4#32).argl0.toNat < 2048 := by decide
set_option maxRecDepth 100000 in
theorem witness_DindexFindsTheWord :
    (latched 0#32 0#32 0#32).romOk = false
      ∧ (∃ s : State, s.romOk = true
        ∧ romLookup s.rom (wordOf (s.buf.readBytes 0x050 8)) = some 18)
      ∧ ∃ s : State, s.romOk = true ∧ romLookup s.rom (wordOf (s.buf.readBytes 0x050 8)) = none :=
  ⟨rfl, ⟨idle 0#32 0#32 0#32 (cellsAt 0x50 (testSlot 18).toList), by decide⟩,
    ⟨idle 0#32 0#32 0#32 (cellsAt 0x50 (List.replicate 8 0#8)), by decide⟩⟩
set_option maxRecDepth 100000 in
theorem witness_DictionaryRoundTrips :
    ∃ s t u : State, romValid s.rom = true ∧ s.romOk = true ∧ s.argl0.toNat < 2048
      ∧ exec .dword s = .next t ∧ u.rom = s.rom ∧ u.romOk = true
      ∧ ∀ j < 8, u.buf.read (0x050 + j) = t.buf.read (0x058 + j) :=
  ⟨(idle 18#32 0#32 0#32 []).accept 4#32, _,
    idle 0#32 0#32 0#32 (cellsAt 0x50 (testSlot 18).toList), test_rom_valid, rfl, by decide, rfl, rfl, rfl,
    by decide⟩
theorem witness_EncodeIndexIsTheStreamGroup :
    (List.replicate 32 0#8 : List Byte).length ∈ [16, 20, 24, 28, 32] ∧ 23 < nrWords 32 := by decide
theorem witness_EncodeChecksThenRequestsTheHash :
    (∃ s : State, s.point = .start ∧ s.romOk = false)
      ∧ (∃ s : State, s.point = .start ∧ s.romOk = true ∧ s.argl0.toNat ∉ [16, 20, 24, 28, 32])
      ∧ ∃ s : State, s.point = .start ∧ s.romOk = true ∧ s.argl0.toNat ∈ [16, 20, 24, 28, 32] :=
  ⟨⟨latched 0#32 0#32 0#32, by decide⟩, ⟨(idle 33#32 0#32 0#32 []).accept 6#32, by decide⟩,
    ⟨(idle 32#32 0#32 0#32 []).accept 6#32, by decide⟩⟩
theorem witness_EncodeWritesTheSentence :
    waiting.hashAnswer.point = .afterHash ∧ waiting.hashAnswer.argl0.toNat ∈ [16, 20, 24, 28, 32] := by
  decide
theorem witness_InvalidWordIndexIsNeverRaised :
    ∃ t, exec .nop State.reset = .next t ∧ t.phase = .idle := ⟨_, rfl, rfl⟩
theorem witness_ReconstructionIsTheIndexStream :
    12 ∈ [12, 15, 18, 21, 24] ∧ (List.replicate 12 2047).length = 12
      ∧ 24 ∈ [12, 15, 18, 21, 24] ∧ (List.replicate 24 2047).length = 24 := by decide
/-- The hypotheses of each clause: an invalid ROM, 13 words, the lowest failing word, a whole sentence. -/
def sentence (bad : Bool) : State :=
  (idle 12#32 0#32 0#32 (cellsAt 0x100 ((List.range 12).flatMap fun i =>
    if bad && i == 1 then List.replicate 8 0#8 else (testSlot 0).toList))).accept 7#32
set_option maxRecDepth 100000 in
theorem witness_DecodeResolvesTheWords :
    ((latched 12#32 0#32 0#32).point = .start ∧ (latched 12#32 0#32 0#32).romOk = false)
      ∧ (((idle 13#32 0#32 0#32 []).accept 7#32).point = .start
        ∧ ((idle 13#32 0#32 0#32 []).accept 7#32).romOk = true
        ∧ ((idle 13#32 0#32 0#32 []).accept 7#32).argl0.toNat ∉ [12, 15, 18, 21, 24])
      ∧ ((sentence true).romOk = true ∧ (sentence true).point = .start ∧ (sentence true).argl0.toNat = 12
        ∧ romLookup (sentence true).rom (wordOf ((sentence true).buf.readBytes 0x100 8)) ≠ none
        ∧ romLookup (sentence true).rom (wordOf ((sentence true).buf.readBytes 0x108 8)) = none)
      ∧ (sentence false).romOk = true ∧ (sentence false).point = .start
      ∧ (sentence false).argl0.toNat = 12
      ∧ ∀ i < 12, romLookup (sentence false).rom
          (wordOf ((sentence false).buf.readBytes (0x100 + 8 * i) 8)) = some 0 := by decide
theorem witness_DecidxReadsTheIndices :
    (∃ s : State, s.point = .start ∧ s.argl0.toNat ∉ [12, 15, 18, 21, 24])
      ∧ (∃ s : State, s.point = .start ∧ s.argl0.toNat = 12
        ∧ (∀ i < 1, s.buf.le16 (0x020 + 2 * i) < 2048) ∧ 2048 ≤ s.buf.le16 (0x020 + 2 * 1))
      ∧ ∃ s : State, s.point = .start ∧ s.argl0.toNat = 12
        ∧ ∀ v ∈ (List.range 12).map (fun i => s.buf.le16 (0x020 + 2 * i)), v < 2048 :=
  ⟨⟨(idle 13#32 0#32 0#32 []).accept 8#32, by decide⟩,
    ⟨(idle 12#32 0#32 0#32 (cellsAt 0x20 [0xFF#8, 0x07#8, 0x00#8, 0x08#8])).accept 8#32, by decide⟩,
    ⟨(idle 12#32 0#32 0#32 (cellsAt 0x20 (List.replicate 12 [0xFF#8, 0x07#8]).flatten)).accept 8#32,
      by decide⟩⟩
theorem witness_DecodedKeyIsWrittenWithItsVerdict :
    ∃ s : State, s.point = .afterHash ∧ s.argl0.toNat ∈ [12, 15, 18, 21, 24] :=
  ⟨{ latched 24#32 0#32 0#32 with point := .afterHash }, by decide⟩
set_option maxRecDepth 100000 in
/-- The hypotheses about ENCODE's side; `u` may be any state with the IDX and WORDS bytes copied and
the hash table of `hashKnown` chosen, such as `t` itself. -/
theorem witness_EncodeThenDecodeRestoresTheKey :
    ∃ s t u : State, s.argl0.toNat ∈ [16, 20, 24, 28, 32] ∧ s.point = .afterHash
      ∧ exec .encode s = .next t ∧ u.argl0 = t.result0 ∧ u.point = .start
      ∧ (∀ a, u.buf.read a = t.buf.read a) ∧ romValid s.rom = true ∧ u.rom = s.rom ∧ u.romOk = true
      ∧ s.d0l = u.hashD0 ((List.range 16).map s.buf.read) := by
  refine ⟨{ waiting.hashAnswer with d0l := 0x37#8 }, _,
    { (waiting.hashAnswer) with
      buf := (encodeFinish { waiting.hashAnswer with d0l := 0x37#8 }).buf, argl0 := 12#32, point := .start,
      hashKnown := [(List.replicate 16 0#8, 0x37#8)] },
    by decide, rfl, rfl, by decide, rfl, fun _ => rfl, test_rom_valid, rfl, rfl, by decide⟩
theorem witness_PortPresentsTheMessage : (List.replicate 32 0xFF#8 : List Byte).length ≤ 32 := by decide
theorem witness_AcknowledgeAnswersTheRequest :
    ∃ s s' : State, s.agenda = [.hashAck] ∧ s.hashReq = true ∧ s'.agenda = [.hashAck]
      ∧ s'.hashReq = false :=
  ⟨{ waiting with agenda := [.hashAck] }, inPhase .idle [.hashAck], by decide⟩
theorem witness_HashWaitLastsUntilAnswerOrReset :
    ∃ s : State, s.phase = .hashWait
      ∧ ∀ e ∈ s.agenda, e ≠ .hashAck ∧ e.isReset = false ∧ e.admitted = true :=
  ⟨{ waiting with agenda := [.fsm, .host (.read 0x00C#10), .internal] }, by decide⟩
theorem witness_RegistersReadAsTheMapSays :
    (inPhase .check [.host (.read 0x024#10)]).agenda = [.host (.read 0x024#10)] := by decide
/-- One agenda per clause; the two halves of the CTRL word at SOFT_RST = 0. -/
theorem witness_RegisterWritesFollowTheirAccess :
    (0x00000001#32).getLsbD 1 = false
      ∧ ∀ a ∈ [0x008#10, 0x00C#10, 0x014#10, 0x018#10, 0x01C#10, 0x000#10, 0x004#10, 0x020#10, 0x024#10],
          (inPhase .exec [.host (.write a 1#32)]).agenda = [.host (.write a 1#32)] := by decide
/-- The ends of the reserved range and a misaligned address. -/
theorem witness_MisalignedAndReservedHaveNoEffect :
    (0x002#10).toNat % 4 ≠ 0 ∧ 0x028 ≤ (0x028#10).toNat ∧ (0x1FC#10).toNat ≤ 0x1FC := by decide
theorem witness_WindowLanesAreLittleEndian :
    (inPhase .idle [.host (.read 0x3FC#10)]).agenda = [.host (.read (BitVec.ofNat 10 (0x200 + 4 * 127)))]
      ∧ (inPhase .idle [.host (.write 0x200#10 1#32)]).agenda
        = [.host (.write (BitVec.ofNat 10 (0x200 + 4 * 0)) 1#32)] := by decide
theorem witness_WindowIsClosedWhileBusy :
    waiting.phase ≠ .idle ∧ (0x200#10).toNat % 4 = 0 ∧ 0x200 ≤ (0x200#10).toNat
      ∧ (0x3FC#10).toNat % 4 = 0 ∧ 0x200 ≤ (0x3FC#10).toNat := by decide
/-- An agenda with a transaction, for the statements about every address. -/
theorem witness_BusErrorsAreExactlyTheListedOnes_ReadsHaveNoOtherSideEffect :
    (inPhase .exec [.host (.read 0x200#10)]).agenda = [.host (.read 0x200#10)] := by decide
theorem witness_IrqFollowsEnableAndDone :
    (∃ t, exec .nop State.reset = .next t ∧ t.phase = .idle)
      ∧ (∃ t, step (State.reset.withFetchWord 32 0xFF) = .next t ∧ t.phase = .idle)
      ∧ (∃ t, (inPhase .exec [.fsm]).agenda.head? = some .fsm
          ∧ step (inPhase .exec [.fsm]) = .next t ∧ t.phase = .idle)
      ∧ (∃ t, step accepting = .next t)
      ∧ (∃ t, (2#32).getLsbD 1 = true
          ∧ step (inPhase .idle [.host (.write 0x00C#10 2#32)]) = .next t)
      ∧ (∃ t, Event.isReset .hardReset = true ∧ step (inPhase .idle [.hardReset]) = .next t)
      ∧ (∃ t, step (inPhase .check []) = .next t)
      ∧ (∃ t, step (inPhase .check [.fsm]) = .next t)
      ∧ ∃ t, step (State.reset.withFetchWord 32 0) = .next t
          ∧ (State.reset.withFetchWord 32 0).done = false ∧ t.done = true :=
  ⟨⟨_, rfl, rfl⟩, ⟨_, rfl, rfl⟩, ⟨_, rfl, rfl, rfl⟩, ⟨_, rfl⟩, ⟨_, rfl, rfl⟩, ⟨_, rfl, rfl⟩, ⟨_, rfl⟩,
    ⟨_, rfl⟩, ⟨_, rfl, rfl, rfl⟩⟩
set_option maxRecDepth 100000 in
/-- Each reset event, and a command in progress whose write set is not empty. -/
theorem witness_ResetGivesTheStatedValues_ResetDisturbsOnlyTheWriteSet :
    Event.isReset .hardReset = true ∧ Event.isReset .powerOn = true
      ∧ Event.isReset (.host (.write 0x008#10 3#32)) = true ∧ waiting.writeSet.length = 240
      ∧ (inPhase .check [.hardReset]).agenda = [.hardReset] := by decide
/-- A phase and a command for each row of the table, at both ends of a range. -/
theorem witness_WriteSetsAreTheTable :
    waiting.phase = .hashWait ∧ decodeWord waiting.cmdl = .ok .encode
      ∧ ((idle 510#32 2#32 0#32 []).accept 1#32).writeSet = [510, 511]
      ∧ ((idle 510#32 3#32 0#32 []).accept 1#32).writeSet = []
      ∧ ((idle 771#32 782#32 896#32 []).accept 0x102#32).writeSet = [0x70, 0x71]
      ∧ ((idle 771#32 782#32 896#32 []).accept 0x104#32).writeSet = [] := by decide
theorem witness_CommandsWriteOnlyTheirWriteSet :
    Inv (accepting.accept 1#32) ∧ (accepting.accept 1#32).phase = .exec
      ∧ decodeWord (accepting.accept 1#32).cmdl = .ok .clear
      ∧ ∃ t, exec .clear (accepting.accept 1#32) = .next t :=
  ⟨⟨by decide, rfl, by decide,
      by show true = (true && romValid testRom); rw [test_rom_valid]; rfl,
      fun _ => by decide, by decide, fun _ => by decide, fun h => absurd h (by decide),
      fun h => absurd h (by decide)⟩, rfl, rfl, _, rfl⟩
theorem witness_EveryStepKeepsTheInvariant : Inv waiting ∧ ∃ t, step waiting = .next t :=
  ⟨witness_inv_waiting, _, rfl⟩
theorem witness_NothingWritesTheRom : ∃ t, Sys2Proof.core.run 1 accepting = .next t := ⟨_, rfl⟩
theorem witness_CommandsLeaveTheHostsRegisters_RunningCommandIgnoresArgRegisters :
    ∃ t, exec .romchk State.reset = .next t := ⟨_, rfl⟩
theorem witness_NoHiddenStateBetweenCommands :
    ∃ s s' t t' : State, s.phase = .idle
      ∧ s.agenda = [.host (.write 0x010#10 0#32), .fsm, .hashAck, .fsm] ∧ s'.ext ≠ s.ext
      ∧ s' = { s with ext := s'.ext, grp := s'.grp, d0l := s'.d0l, group := s'.group, cmdl := s'.cmdl,
                      argl0 := s'.argl0, argl1 := s'.argl1, argl2 := s'.argl2, point := s'.point,
                      hashLen := s'.hashLen, hashMsg := s'.hashMsg }
      ∧ Sys2Proof.core.run 4 s = .next t ∧ Sys2Proof.core.run 4 s' = .next t' :=
  ⟨inPhase .idle [.host (.write 0x010#10 0#32), .fsm, .hashAck, .fsm],
    { inPhase .idle [.host (.write 0x010#10 0#32), .fsm, .hashAck, .fsm] with
      ext := Vector.replicate 33 1#8 }, _, _, rfl, rfl, by decide, rfl, rfl, rfl⟩
theorem witness_BlockNeverStops : ∀ e ∈ waiting.agenda, e.admitted = true := by decide
theorem witness_OnlyTheTwoNamedEventsAreRefused :
    (inPhase .idle [.hostInReset (.read 0#10)]).agenda = [.hostInReset (.read 0#10)]
      ∧ ({ waiting with agenda := [.staleAck] } : State).hashReq = true
      ∧ (inPhase .idle [.staleAck]).hashReq = false
      ∧ ∃ r, step (inPhase .idle [.hostInReset (.read 0#10)]) = .refused r :=
  ⟨rfl, rfl, rfl, _, rfl⟩

end Sys2Proof.Tests
end

namespace Sys2Proof.Machine

/-! ### The order of words, read as "first difference" (00_scope.md R17) -/

/-- No word comes before the empty one. -/
@[simp] theorem strLt_nil_right (a : List Byte) : strLt a [] = false := by
  cases a <;> rfl

@[simp] theorem strLt_nil_cons (b : Byte) (bs : List Byte) : strLt [] (b :: bs) = true := rfl

theorem strLt_cons_cons {a b : Byte} {as bs : List Byte} :
    strLt (a :: as) (b :: bs) = true ↔ a < b ∨ a = b ∧ strLt as bs = true := by
  simp [strLt]

/-- A common beginning does not affect the order. -/
@[simp] theorem strLt_append_append (c a b : List Byte) : strLt (c ++ a) (c ++ b) = strLt a b := by
  induction c with
  | nil => rfl
  | cons x c ih => simp [strLt, ih]

/-- A word comes before each of its proper extensions. -/
theorem strLt_append_cons (a : List Byte) (x : Byte) (xs : List Byte) :
    strLt a (a ++ x :: xs) = true := by
  simpa using strLt_append_append a [] (x :: xs)

/-- The word with the smaller byte at the first difference comes first. -/
theorem strLt_of_first_difference (c : List Byte) {x y : Byte} (xs ys : List Byte) (h : x < y) :
    strLt (c ++ x :: xs) (c ++ y :: ys) = true := by
  rw [strLt_append_append]
  exact strLt_cons_cons.mpr (.inl h)

/-- Each clause of `strLt` that answers true gives one of the two cases; an equal head joins the
common beginning. -/
theorem prefix_or_first_difference_of_strLt {a b : List Byte} (h : strLt a b = true) :
    (∃ x xs, b = a ++ x :: xs)
      ∨ ∃ c x xs y ys, a = c ++ x :: xs ∧ b = c ++ y :: ys ∧ x < y := by
  induction a generalizing b with
  | nil =>
    cases b with
    | nil => simp at h
    | cons y ys => exact .inl ⟨y, ys, rfl⟩
  | cons a as ih =>
    cases b with
    | nil => simp at h
    | cons b bs =>
      rcases strLt_cons_cons.mp h with hlt | ⟨rfl, htail⟩
      · exact .inr ⟨[], a, as, b, bs, rfl, rfl, hlt⟩
      · rcases ih htail with ⟨x, xs, rfl⟩ | ⟨c, x, xs, y, ys, rfl, rfl, hxy⟩
        · exact .inl ⟨x, xs, rfl⟩
        · exact .inr ⟨a :: c, x, xs, y, ys, rfl, rfl, hxy⟩

/-- Settles O18: a common beginning cancels, which gives "if"; induction on the first word gives
"only if". `<` on bytes is by definition `<` of their `toNat`. -/
theorem wordOrderIsByteLexicographic : Obligations.WordOrderIsByteLexicographic := by
  intro a b
  constructor
  · exact prefix_or_first_difference_of_strLt
  · rintro (⟨x, xs, rfl⟩ | ⟨c, x, xs, y, ys, rfl, rfl, hxy⟩)
    · exact strLt_append_cons a x xs
    · exact strLt_of_first_difference c xs ys hxy

end Sys2Proof.Machine

namespace Sys2Proof.Machine

/-! ### What a command's step can do (45_control.md R253, R254)

`CommandEffect` lists, once for all commands, the two ways a step of EXEC ends: the completion and the
hash request. The facts about every step are read off it. -/

/-- The commands that send a hash request (60_exceptions.md R277). -/
def asksHash : Instr → Bool
  | .encode => true
  | .decode => true
  | .decidx => true
  | _ => false

/-- The checks of a codec command before its hash request (43_codec_encode.md R203,
44_codec_decode.md R223, R225). -/
def ChecksPassed (s : State) : Instr → Prop
  | .encode => s.romOk = true ∧ s.op0 ∈ Config.keyLens
  | .decode => s.romOk = true ∧ s.op0 ∈ Config.wordCounts
  | .decidx => s.op0 ∈ Config.wordCounts
  | _ => False

theorem asksHash_of_checksPassed {s : State} {i : Instr} (h : ChecksPassed s i) :
    asksHash i = true := by
  cases i <;> simp_all [ChecksPassed, asksHash]

/-- `CodecReady` of the invariant is `ChecksPassed` of the latched command. -/
theorem codecReady_iff {s : State} {i : Instr} (h : decodeWord s.cmdl = .ok i) :
    CodecReady s ↔ ChecksPassed s i := by
  cases i <;> simp [CodecReady, ChecksPassed, h]

/-- The states in which one step of command `i` from `s` can end. A codec command's buffer is known to
be canonical only where its second half runs on checked operands. -/
inductive CommandEffect (s : State) : Instr → State → Prop
  | completes {i : Instr} (b : Memory) (r : Word) (e : ErrCode) (hb : s.buf.wf → b.wf)
      (he : e ≠ .invalidWordIndex) :
      CommandEffect s i ({ s with buf := b, result0 := r }.complete e)
  | checksRom (e : ErrCode) (he : e ≠ .invalidWordIndex) :
      CommandEffect s .romchk (s.recordRomCheck.complete e)
  | codecCompletes {i : Instr} (hi : asksHash i = true) (x : Vector Byte 33) (g : Vector Byte 2)
      (n : Fin 25) (b : Memory) (r0 r1 : Word) (e : ErrCode)
      (hb : (s.point = .afterHash → ChecksPassed s i) → s.buf.wf → b.wf)
      (he : e ≠ .invalidWordIndex) :
      CommandEffect s i
        ({ s with ext := x, grp := g, group := n, buf := b, result0 := r0, result1 := r1 }.complete e)
  | codecRequests {i : Instr} (x : Vector Byte 33) (g : Vector Byte 2) (n : Fin 25) (m : List Byte)
      (hpass : ChecksPassed s i) (hm : m.length ∈ Config.keyLens) :
      CommandEffect s i ({ s with ext := x, grp := g, group := n }.hashRequest m)

/-- A completion that writes nothing but STATUS. -/
theorem CommandEffect.fails {s : State} {i : Instr} (e : ErrCode) (he : e ≠ .invalidWordIndex) :
    CommandEffect s i (s.complete e) :=
  .completes s.buf s.result0 e id he

/-- `raise` with a position, which only the codec commands do (60_exceptions.md R262). -/
theorem CommandEffect.raises {s : State} {i : Instr} (hi : asksHash i = true) (e : ErrCode) (p : Nat)
    (he : e ≠ .invalidWordIndex) : CommandEffect s i (s.raiseAt e p) :=
  .codecCompletes hi s.ext s.grp s.group s.buf s.result0 _ e (fun _ => id) he

/-! ### The BitPacker and the dictionary commands -/

theorem execClear_effect {s t : State} (h : execClear s = .next t) : CommandEffect s .clear t := by
  cases h
  split_ifs with hok
  · exact .completes _ s.result0 _
      (fun hb => Memory.wf_writeBytes hb (by simpa using byteRangeOk_iff.1 hok)) (by decide)
  · exact .fails _ (by decide)

theorem execBrev_effect {s t : State} (h : execBrev s = .next t) : CommandEffect s .brev t := by
  cases h
  split_ifs with hok
  · exact .completes _ s.result0 _
      (fun hb => Memory.wf_writeBytes hb (by simpa using byteRangeOk_iff.1 hok)) (by decide)
  · exact .fails _ (by decide)

theorem execBitx_effect {rj : Bool} {ord : BitOrder} {s t : State} (h : execBitx rj ord s = .next t) :
    CommandEffect s (.bitx rj ord) t := by
  cases h
  split_ifs with hok
  · obtain ⟨-, -, hdst, -⟩ := bitxOk_iff.1 hok
    have hspan : s.op2 + padBits (s.op1 - s.op0) rj + (s.op1 - s.op0) ≤ Config.bufBits := by
      rwa [Nat.add_assoc, padBits_add]
    exact .completes _ s.result0 _ (fun hb => Memory.wf_bitExtract hb _ _ _ _ _ _ hspan) (by decide)
  · exact .fails _ (by decide)

theorem deliverWord_effect (s : State) (i : Instr) (n : Nat) :
    CommandEffect s i ((s.deliverWord n).complete .none) :=
  .completes _ _ _ (fun hb => Memory.wf_writeBytes hb (by simp [Config.woutBase, Config.bufBytes]))
    (by decide)

theorem execDword_effect {s t : State} (h : execDword s = .next t) : CommandEffect s .dword t := by
  cases h
  split_ifs
  · exact .fails _ (by decide)
  · exact .fails _ (by decide)
  · exact deliverWord_effect s _ _

theorem execDindex_effect {s t : State} (h : execDindex s = .next t) : CommandEffect s .dindex t := by
  cases h
  split_ifs
  · exact .fails _ (by decide)
  · cases romLookup s.rom s.winWord with
    | none => exact .fails _ (by decide)
    | some n => exact deliverWord_effect s _ n

theorem execRomchk_effect {s t : State} (h : execRomchk s = .next t) : CommandEffect s .romchk t := by
  cases h
  exact .checksRom _ (by split_ifs <;> decide)

/-! ### The codec commands -/

theorem fixGroup_lt (g0 g1 : Byte) : fixGroup g0 g1 < Config.dictSize := by
  rw [fixGroup, BitVec.toNat_and]
  exact Nat.lt_succ_of_le Nat.and_le_right

/-- The InvalidWordIndex check of ENCODE never fires (43_codec_encode.md R206). -/
theorem encodeIdx_inRange (s : State) :
    s.encodeIdx.any (fun v => decide (Config.dictSize ≤ v)) = false := by
  simp only [State.encodeIdx, encodeIndices, List.any_eq_false, decide_eq_true_eq, not_le]
  intro v hv
  obtain ⟨i, -, rfl⟩ := List.mem_map.1 hv
  exact fixGroup_lt _ _

theorem wf_encodeOutputs {b : Memory} (hb : b.wf) (rom : Rom) (idx : List Nat) :
    (encodeOutputs rom b idx).wf :=
  Memory.wf_writeBytes
    (Memory.wf_writeBytes hb (by simp [Config.idxBase, Config.bufBytes]))
    (by simp [Config.wordsBase, Config.bufBytes])

theorem encodeStart_effect (s : State) : CommandEffect s .encode (encodeStart s) := by
  unfold encodeStart
  split_ifs with hrom hlen
  · exact .fails _ (by decide)
  · exact .codecRequests (i := .encode) s.ext s.grp s.group _ ⟨by simpa using hrom, hlen⟩
      (by simpa using hlen)
  · exact .fails _ (by decide)

/-- ENCODE after its acknowledge always completes without an error. -/
theorem encodeFinish_eq (s : State) :
    encodeFinish s = { s.encodeWork with
      buf := encodeOutputs s.rom s.buf s.encodeIdx,
      result0 := BitVec.ofNat 32 (nrWords s.op0),
      result1 := result1Word 0#8 (s.d0l &&& csMask (csLenOfKey s.op0)) (csLenOfKey s.op0) 0 }.complete
      .none := by
  rw [encodeFinish, if_neg (by simp [encodeIdx_inRange])]

theorem encodeFinish_effect (s : State) : CommandEffect s .encode (encodeFinish s) := by
  rw [encodeFinish_eq]
  exact .codecCompletes rfl _ _ _ _ _ _ _ (fun _ hb => wf_encodeOutputs hb _ _) (by decide)

/-- The key of a legal sentence has a legal length (44_codec_decode.md R220). -/
theorem keyLenOfWords_mem {nw : Nat} (h : nw ∈ Config.wordCounts) :
    keyLenOfWords nw ∈ Config.keyLens := by
  revert nw
  decide

theorem reconstructStart_effect {s : State} {i : Instr} (hpass : ChecksPassed s i)
    (hnw : s.op0 ∈ Config.wordCounts) (idx : List Nat) :
    CommandEffect s i (s.reconstructStart idx s.op0) := by
  refine .codecRequests _ _ _ _ hpass ?_
  have hlen := keyLenOfWords_mem hnw
  have hle : keyLenOfWords s.op0 ≤ 33 := (show ∀ n ∈ Config.keyLens, n ≤ 33 by decide) _ hlen
  simpa [hle] using hlen

theorem decodeStart_effect (s : State) : CommandEffect s .decode (decodeStart s) := by
  unfold decodeStart
  split_ifs with hrom hnw
  · exact .fails _ (by decide)
  · cases collect s.wordIndex 0 s.op0 with
    | ok idx => exact reconstructStart_effect (i := .decode) ⟨by simpa using hrom, hnw⟩ hnw idx
    | error p => exact .raises rfl _ p (by decide)
  · exact .fails _ (by decide)

theorem decidxStart_effect (s : State) : CommandEffect s .decidx (decidxStart s) := by
  unfold decidxStart
  split_ifs with hnw
  · cases collect s.entryIndex 0 s.op0 with
    | ok idx => exact reconstructStart_effect (i := .decidx) hnw hnw idx
    | error p => exact .raises rfl _ p (by decide)
  · exact .fails _ (by decide)

theorem reconstructFinish_effect {s : State} {i : Instr} (hi : asksHash i = true)
    (hnw : (s.point = .afterHash → ChecksPassed s i) → s.op0 ∈ Config.wordCounts) :
    CommandEffect s i (s.reconstructFinish s.op0) :=
  .codecCompletes hi s.ext s.grp s.group _ _ _ _
    (fun hpass hb => Memory.wf_writeBytes hb
      (by rw [length_keyFill s _ (hnw hpass)]; simp [Config.keyBase, Config.bufBytes]))
    (by split_ifs <;> decide)

theorem execEncode_effect {s t : State} (h : execEncode s = .next t) : CommandEffect s .encode t := by
  cases h
  cases s.point
  · exact encodeStart_effect s
  · exact encodeFinish_effect s

theorem execDecode_effect {s t : State} (h : execDecode s = .next t) : CommandEffect s .decode t := by
  cases h
  cases hp : s.point
  · exact decodeStart_effect s
  · exact reconstructFinish_effect rfl fun hpass => (hpass hp).2

theorem execDecidx_effect {s t : State} (h : execDecidx s = .next t) : CommandEffect s .decidx t := by
  cases h
  cases hp : s.point
  · exact decidxStart_effect s
  · exact reconstructFinish_effect rfl fun hpass => hpass hp

/-! ### Every command, and every turn of the FSM -/

/-- What a command's step can do. -/
theorem exec_effect {i : Instr} {s t : State} (h : exec i s = .next t) : CommandEffect s i t := by
  cases i with
  | nop => cases h; exact .fails _ (by decide)
  | clear => exact execClear_effect h
  | bitx rj ord => exact execBitx_effect h
  | brev => exact execBrev_effect h
  | dword => exact execDword_effect h
  | dindex => exact execDindex_effect h
  | encode => exact execEncode_effect h
  | decode => exact execDecode_effect h
  | decidx => exact execDecidx_effect h
  | romchk => exact execRomchk_effect h

/-- What the FSM's turn can do (45_control.md R250). -/
theorem fsmStep_cases {s t : State} (h : fsmStep s = .next t) :
    (s.phase = .check ∧ t = finishRomCheck s)
      ∨ t = s
      ∨ (s.phase = .exec ∧ ∃ i, decodeWord s.cmdl = .ok i ∧ CommandEffect s i t)
      ∨ (s.phase = .exec ∧ t = s.complete .badOpcode) := by
  cases hp : s.phase with
  | check => exact .inl ⟨rfl, by simpa [fsmStep, hp] using h.symm⟩
  | idle => exact .inr (.inl (by simpa [fsmStep, hp] using h.symm))
  | hashWait => exact .inr (.inl (by simpa [fsmStep, hp] using h.symm))
  | exec =>
    cases hd : decodeWord s.cmdl with
    | ok i => exact .inr (.inr (.inl ⟨rfl, i, rfl, exec_effect (fsmStep_exec hp hd ▸ h)⟩))
    | error w =>
      rw [fsmStep_illegal hp hd] at h
      cases h
      exact .inr (.inr (.inr ⟨rfl, rfl⟩))

/-! ### What a host transaction can do (20_memory.md R81 to R88) -/

theorem window_lt {a : HostAddr} {w : Nat} (h : decodeAddr a = .window w) : w < 128 := by
  have hcases := decodeAddr_cases a
  simp only [h, reduceCtorEq, and_false, exists_false, false_or, or_false,
    Target.window.injEq] at hcases
  obtain ⟨-, -, hlt, heq⟩ := hcases
  omega

/-- A transaction answers only, or it sets ACC_VIOL, writes a window word, or writes a register. -/
theorem hostTxn_cases (x : Txn) (s : State) :
    (∃ r d, hostTxn x s = s.replyWith r d)
      ∨ (∃ r d, hostTxn x s = { s with accViol := true }.replyWith r d)
      ∨ (∃ w < 128, ∃ d, hostTxn x s = { s with buf := s.buf.writeLanes w d }.replyWith .okay none)
      ∨ ∃ a d r, x = .write a d ∧ decodeAddr a = .register r
          ∧ hostTxn x s = (s.writeRegister r d).replyWith .okay none := by
  cases x with
  | read a =>
    simp only [hostTxn, hostRead]
    cases decodeAddr a with
    | misaligned => exact .inl ⟨_, _, rfl⟩
    | reserved => exact .inl ⟨_, _, rfl⟩
    | register r => exact .inl ⟨_, _, rfl⟩
    | window w =>
      cases s.busy
      · exact .inl ⟨_, _, rfl⟩
      · exact .inr (.inl ⟨_, _, rfl⟩)
  | write a d =>
    simp only [hostTxn, hostWrite]
    cases h : decodeAddr a with
    | misaligned => exact .inl ⟨_, _, rfl⟩
    | reserved => exact .inl ⟨_, _, rfl⟩
    | register r => exact .inr (.inr (.inr ⟨a, d, r, rfl, h, rfl⟩))
    | window w =>
      cases s.busy
      · exact .inr (.inr (.inl ⟨w, window_lt h, d, rfl⟩))
      · exact .inr (.inl ⟨_, _, rfl⟩)

/-! ### The write sets lie in BUF (70_reset_and_hazards.md R304) -/

theorem mem_bitxWriteSet_lt {lo hi dst a : Nat} {rj : Bool} (h : a ∈ bitxWriteSet lo hi dst rj) :
    a < Config.bufBytes := by
  unfold bitxWriteSet at h
  split_ifs at h with hok
  · obtain ⟨hlt, -, hdst, -⟩ := bitxOk_iff.1 hok
    have hpad := padBits_add (hi - lo) rj
    obtain ⟨-, ha⟩ := mem_byteRange.1 h
    simp only [Config.bufBytes]
    omega
  · cases h

theorem mem_writeSetOf_lt {s : State} {i : Instr} {a : Nat} (h : a ∈ s.writeSetOf i) :
    a < Config.bufBytes := by
  have hrange : ∀ {b n : Nat}, b + n ≤ Config.bufBytes → a ∈ byteRange b n → a < Config.bufBytes :=
    fun hle ha => (mem_byteRange.1 ha).2.trans_le hle
  cases i with
  | nop => cases h
  | romchk => cases h
  | bitx rj ord => exact mem_bitxWriteSet_lt h
  | dword => exact hrange (by decide) h
  | decode => exact hrange (by decide) h
  | decidx => exact hrange (by decide) h
  | encode => exact (List.mem_append.1 h).elim (hrange (by decide)) (hrange (by decide))
  | dindex =>
    simp only [State.writeSetOf] at h
    split_ifs at h
    · cases h
    · exact hrange (by decide) h
  | clear | brev =>
    simp only [State.writeSetOf] at h
    split_ifs at h with hok
    · exact hrange (byteRangeOk_iff.1 hok) h
    · cases h

theorem mem_writeSet_lt {s : State} {a : Nat} (h : a ∈ s.writeSet) : a < Config.bufBytes := by
  unfold State.writeSet at h
  split at h
  · cases h
  · cases h
  all_goals
    split at h
    · exact mem_writeSetOf_lt h
    · cases h

/-! ### The invariant is kept by each update -/

theorem Inv.withAgenda {s : State} (h : Inv s) (l : List Event) : Inv { s with agenda := l } :=
  { h with }

theorem Inv.replyWith {s : State} (h : Inv s) (r : BusResp) (d : Option Word) :
    Inv (s.replyWith r d) :=
  { h with }

theorem Inv.setAccViol {s : State} (h : Inv s) : Inv { s with accViol := true } := { h with }

theorem Inv.setBuf {s : State} {b : Memory} (h : Inv s) (hb : b.wf) : Inv { s with buf := b } :=
  { h with bufCanonical := hb }

theorem Inv.setWork {s : State} (h : Inv s) (x : Vector Byte 33) (g : Vector Byte 2) (n : Fin 25) :
    Inv { s with ext := x, grp := g, group := n } :=
  { h with }

/-- ROM_OK is the validity of the ROM in every phase but CHECK. -/
theorem Inv.romOk_eq {s : State} (h : Inv s) (hp : s.phase ≠ .check) :
    s.romChecked = true ∧ s.romOk = romValid s.rom := by
  have hc := h.checkedIffLeftCheck.2 hp
  exact ⟨hc, by simpa [hc] using h.romOkIsValidity⟩

theorem inv_complete {s : State} {e : ErrCode} (hb : s.buf.wf)
    (hrom : s.romChecked = true ∧ s.romOk = romValid s.rom) (he : e ≠ .invalidWordIndex) :
    Inv (s.complete e) where
  bufCanonical := hb
  requestIffWaiting := rfl
  checkedIffLeftCheck := by simp [hrom.1]
  romOkIsValidity := by simp [hrom.1, hrom.2]
  quietWhileBusy := by simp [State.busy, Phase.isBusy]
  noInvalidWordIndex := he
  lastOpIsOpcode := by simp
  waitingIsCodec := by simp
  portLength := by simp

theorem Inv.finishRomCheck {s : State} (h : Inv s) (hp : s.phase = .check) :
    Inv (finishRomCheck s) where
  bufCanonical := h.bufCanonical
  requestIffWaiting := h.requestIffWaiting.trans (by rw [hp]; rfl)
  checkedIffLeftCheck := by simp [Machine.finishRomCheck]
  romOkIsValidity := by simp [Machine.finishRomCheck]
  quietWhileBusy := by simp [State.busy, Phase.isBusy, Machine.finishRomCheck]
  noInvalidWordIndex := h.noInvalidWordIndex
  lastOpIsOpcode := by simp [Machine.finishRomCheck]
  waitingIsCodec := by simp [Machine.finishRomCheck]
  portLength := by simp [Machine.finishRomCheck]

theorem Inv.accept {s : State} (h : Inv s) (hp : s.phase = .idle) (c : Word) : Inv (s.accept c) where
  bufCanonical := h.bufCanonical
  requestIffWaiting := h.requestIffWaiting.trans (by rw [hp]; rfl)
  checkedIffLeftCheck := by simpa [hp] using h.checkedIffLeftCheck
  romOkIsValidity := h.romOkIsValidity
  quietWhileBusy := by simp
  noInvalidWordIndex := by simp
  lastOpIsOpcode := by simp
  waitingIsCodec := by simp
  portLength := by simp

theorem Inv.hashRequest {s : State} {m : List Byte} (h : Inv s) (hp : s.phase = .exec)
    (hready : CodecReady s) (hm : m.length ∈ Config.keyLens) : Inv (s.hashRequest m) where
  bufCanonical := h.bufCanonical
  requestIffWaiting := rfl
  checkedIffLeftCheck := by simpa [hp] using h.checkedIffLeftCheck
  romOkIsValidity := h.romOkIsValidity
  quietWhileBusy _ := h.quietWhileBusy (by simp [State.busy, hp, Phase.isBusy])
  noInvalidWordIndex := h.noInvalidWordIndex
  lastOpIsOpcode _ := h.lastOpIsOpcode (.inl hp)
  waitingIsCodec _ := hready
  portLength _ := by
    have hlt : m.length < 2 ^ 6 := (show ∀ n ∈ Config.keyLens, n < 2 ^ 6 by decide) _ hm
    rwa [State.hashRequest_hashLen, BitVec.toNat_ofNat, Nat.mod_eq_of_lt hlt]

/-- A request is outstanding only in HASH_WAIT. -/
theorem Inv.hashWait_of_request {s : State} (h : Inv s) (hreq : s.hashReq = true) :
    s.phase = .hashWait := by
  have hwait := h.requestIffWaiting
  rw [hreq] at hwait
  cases hp : s.phase <;> simp [hp, Phase.isHashWait] at hwait ⊢

theorem Inv.hashAnswer {s : State} (h : Inv s) : Inv s.hashAnswer := by
  unfold State.hashAnswer
  split_ifs with hreq
  · have hp := h.hashWait_of_request hreq
    exact
      { bufCanonical := h.bufCanonical
        requestIffWaiting := rfl
        checkedIffLeftCheck := by simpa [hp] using h.checkedIffLeftCheck
        romOkIsValidity := h.romOkIsValidity
        quietWhileBusy := fun _ => h.quietWhileBusy (by simp [State.busy, hp, Phase.isBusy])
        noInvalidWordIndex := h.noInvalidWordIndex
        lastOpIsOpcode := fun _ => h.lastOpIsOpcode (.inr hp)
        waitingIsCodec := fun _ => h.waitingIsCodec (.inl hp)
        portLength := by simp }
  · exact h

theorem Inv.resetDrawing {s : State} {l : List Nat} (h : Inv s)
    (hl : ∀ a ∈ l, a < Config.bufBytes) : Inv (s.resetDrawing l) where
  bufCanonical := Memory.wf_drawBytes h.bufCanonical hl
  requestIffWaiting := rfl
  checkedIffLeftCheck := by simp
  romOkIsValidity := rfl
  quietWhileBusy _ := ⟨rfl, rfl, rfl, rfl⟩
  noInvalidWordIndex := by simp
  lastOpIsOpcode := by simp
  waitingIsCodec := by simp
  portLength := by simp

theorem Inv.doReset {s : State} (h : Inv s) : Inv s.doReset :=
  h.resetDrawing fun _ => mem_writeSet_lt

theorem Inv.doPowerOn {s : State} (h : Inv s) : Inv s.doPowerOn :=
  h.resetDrawing fun _ ha => (mem_byteRange.1 ha).2.trans_le (by decide)

theorem Inv.writeStatus {s : State} (h : Inv s) (d : Word) : Inv (s.writeStatus d) := by
  unfold State.writeStatus
  split_ifs
  · exact
      { h with
        quietWhileBusy := fun hb => by
          obtain ⟨h0, h1, he, -⟩ := h.quietWhileBusy hb
          exact ⟨h0, h1, he, rfl⟩ }
  · exact { h with }

theorem Inv.writeCmd {s : State} (h : Inv s) (c : Word) : Inv (s.writeCmd c) := by
  unfold State.writeCmd
  split_ifs with hbusy
  · exact { h with }
  · exact h.accept (by cases hp : s.phase <;> simp [State.busy, hp, Phase.isBusy] at hbusy ⊢) c

theorem Inv.writeCtrl {s : State} (h : Inv s) (d : Word) : Inv (s.writeCtrl d) := by
  unfold State.writeCtrl
  split_ifs
  · exact h.doReset
  · exact { h with }

theorem Inv.writeRegister {s : State} (h : Inv s) (r : Reg) (d : Word) :
    Inv (s.writeRegister r d) := by
  cases r with
  | ctrl => exact h.writeCtrl d
  | status => exact h.writeStatus d
  | cmd => exact h.writeCmd d
  | arg0 => exact { h with }
  | arg1 => exact { h with }
  | arg2 => exact { h with }
  | id => exact h
  | param => exact h
  | result0 => exact h
  | result1 => exact h

/-! ### Each agent's step keeps the invariant -/

theorem Inv.hostTxn {s : State} (h : Inv s) (x : Txn) : Inv (hostTxn x s) := by
  rcases hostTxn_cases x s with
    ⟨r, d, heq⟩ | ⟨r, d, heq⟩ | ⟨w, hw, d, heq⟩ | ⟨a, d, r, -, -, heq⟩ <;> rw [heq]
  · exact h.replyWith _ _
  · exact h.setAccViol.replyWith _ _
  · exact (h.setBuf (Memory.wf_writeLanes d h.bufCanonical hw)).replyWith _ _
  · exact (h.writeRegister r d).replyWith _ _

theorem Inv.commandEffect {s t : State} {i : Instr} (h : Inv s) (hp : s.phase = .exec)
    (hd : decodeWord s.cmdl = .ok i) (ht : CommandEffect s i t) : Inv t := by
  have hrom := h.romOk_eq (by simp [hp])
  cases ht with
  | completes b r e hb he => exact inv_complete (hb h.bufCanonical) hrom he
  | checksRom e he => exact inv_complete h.bufCanonical ⟨rfl, rfl⟩ he
  | codecCompletes hi x g n b r0 r1 e hb he =>
    have hpass : s.point = .afterHash → ChecksPassed s i := fun hpt =>
      (codecReady_iff hd).1 (h.waitingIsCodec (.inr ⟨hp, hpt⟩))
    exact inv_complete (hb hpass h.bufCanonical) hrom he
  | codecRequests x g n m hpass hm =>
    exact (h.setWork x g n).hashRequest hp ((codecReady_iff hd).2 hpass) hm

theorem Inv.fsmStep {s t : State} (h : Inv s) (hs : fsmStep s = .next t) : Inv t := by
  rcases fsmStep_cases hs with ⟨hp, rfl⟩ | rfl | ⟨hp, i, hd, ht⟩ | ⟨hp, rfl⟩
  · exact h.finishRomCheck hp
  · exact h
  · exact h.commandEffect hp hd ht
  · exact inv_complete h.bufCanonical (h.romOk_eq (by simp [hp])) (by decide)

/-- What an event can do, where the model has a run for it. -/
theorem eventStep_cases {e : Event} {s t : State} (h : eventStep e s = .next t) :
    (∃ x, e = .host x ∧ t = hostTxn x s)
      ∨ (e = .fsm ∧ fsmStep s = .next t)
      ∨ t = s
      ∨ (e = .hashAck ∧ t = s.hashAnswer)
      ∨ (e = .hardReset ∧ t = s.doReset)
      ∨ (e = .powerOn ∧ t = s.doPowerOn) := by
  cases e with
  | host x => cases h; exact .inl ⟨x, rfl, rfl⟩
  | fsm => exact .inr (.inl ⟨rfl, h⟩)
  | internal => cases h; exact .inr (.inr (.inl rfl))
  | hashAck => cases h; exact .inr (.inr (.inr (.inl ⟨rfl, rfl⟩)))
  | staleAck =>
    simp only [eventStep] at h
    split_ifs at h
    cases h
    exact .inr (.inr (.inl rfl))
  | hardReset => cases h; exact .inr (.inr (.inr (.inr (.inl ⟨rfl, rfl⟩))))
  | powerOn => cases h; exact .inr (.inr (.inr (.inr (.inr ⟨rfl, rfl⟩))))
  | hostInReset x => cases h

theorem Inv.eventStep {e : Event} {s t : State} (h : Inv s) (hs : eventStep e s = .next t) :
    Inv t := by
  rcases eventStep_cases hs with ⟨x, -, rfl⟩ | ⟨-, hf⟩ | rfl | ⟨-, rfl⟩ | ⟨-, rfl⟩ | ⟨-, rfl⟩
  · exact h.hostTxn x
  · exact h.fsmStep hf
  · exact h
  · exact h.hashAnswer
  · exact h.doReset
  · exact h.doPowerOn

/-- Settles O54: a step is the FSM's or the oldest event's, and each of them keeps the invariant. -/
theorem everyStepKeepsTheInvariant : Obligations.EveryStepKeepsTheInvariant := by
  intro s t h hs
  cases hag : s.agenda with
  | nil => exact h.fsmStep (step_nil hag ▸ hs)
  | cons e rest => exact (h.withAgenda rest).eventStep (step_cons hag ▸ hs)

/-- Settles O53: the phase is CHECK, so the clauses about IDLE, EXEC and HASH_WAIT do not apply. -/
theorem resetMeetsTheInvariant : Obligations.ResetMeetsTheInvariant where
  bufCanonical := Memory.wf_empty
  requestIffWaiting := rfl
  checkedIffLeftCheck := by simp [State.reset]
  romOkIsValidity := rfl
  quietWhileBusy _ := ⟨rfl, rfl, rfl, rfl⟩
  noInvalidWordIndex := by simp [State.reset]
  lastOpIsOpcode := by simp [State.reset]
  waitingIsCodec := by simp [State.reset]
  portLength := by simp [State.reset]

end Sys2Proof.Machine

namespace Sys2Proof.Machine

/-! ### The phase moves (10_state.md R45, 45_control.md R250) -/

theorem CommandEffect.phase {s t : State} {i : Instr} (h : CommandEffect s i t) :
    t.phase = .idle ∨ t.phase = .hashWait := by
  cases h with
  | completes => exact .inl rfl
  | checksRom => exact .inl rfl
  | codecCompletes => exact .inl rfl
  | codecRequests => exact .inr rfl

theorem fsmStep_phase {s t : State} (h : fsmStep s = .next t) :
    t.phase = s.phase ∨ (s.phase = .check ∧ t.phase = .idle)
      ∨ (s.phase = .exec ∧ (t.phase = .idle ∨ t.phase = .hashWait)) := by
  rcases fsmStep_cases h with ⟨hp, rfl⟩ | rfl | ⟨hp, i, -, ht⟩ | ⟨hp, rfl⟩
  · exact .inr (.inl ⟨hp, rfl⟩)
  · exact .inl rfl
  · exact .inr (.inr ⟨hp, ht.phase⟩)
  · exact .inr (.inr ⟨hp, .inl rfl⟩)

@[simp] theorem State.writeStatus_phase (s : State) (d : Word) :
    (s.writeStatus d).phase = s.phase := by
  unfold State.writeStatus
  split_ifs <;> rfl

/-- A register write moves the phase only by an accept and by a soft reset. -/
theorem writeRegister_phase (s : State) (r : Reg) (d : Word) :
    (s.writeRegister r d).phase = s.phase
      ∨ (r = .cmd ∧ s.phase = .idle ∧ (s.writeRegister r d).phase = .exec)
      ∨ (r = .ctrl ∧ d.getLsbD 1 = true ∧ (s.writeRegister r d).phase = .check) := by
  cases r with
  | cmd =>
    cases hp : s.phase with
    | idle =>
      exact .inr (.inl ⟨rfl, rfl, by
        simp [State.writeRegister, State.writeCmd, State.busy, hp, Phase.isBusy]⟩)
    | _ => exact .inl (by simp [State.writeRegister, State.writeCmd, State.busy, hp, Phase.isBusy])
  | ctrl =>
    cases hd : d.getLsbD 1 with
    | true =>
      exact .inr (.inr ⟨rfl, rfl, by
        simp [State.writeRegister, State.writeCtrl, hd, State.doReset]⟩)
    | false => exact .inl (by rw [State.writeRegister, State.writeCtrl, hd]; rfl)
  | status => exact .inl (s.writeStatus_phase d)
  | _ => exact .inl rfl

theorem decodeAddr_cmd {a : HostAddr} (h : decodeAddr a = .register .cmd) : a = 0x010#10 :=
  BitVec.eq_of_toNat_eq (by simpa using (decodeAddr_register h).2.2)

theorem hostTxn_phase (x : Txn) (s : State) :
    (hostTxn x s).phase = s.phase
      ∨ (s.phase = .idle ∧ (hostTxn x s).phase = .exec ∧ ∃ c, x = .write 0x010#10 c)
      ∨ ((hostTxn x s).phase = .check ∧ (Event.host x).isReset = true) := by
  rcases hostTxn_cases x s with
    ⟨r, d, heq⟩ | ⟨r, d, heq⟩ | ⟨w, -, d, heq⟩ | ⟨a, d, r, rfl, hr, heq⟩ <;>
    rw [heq, State.replyWith_phase]
  · exact .inl rfl
  · exact .inl rfl
  · exact .inl rfl
  · rcases writeRegister_phase s r d with hp | ⟨rfl, hidle, hp⟩ | ⟨rfl, hd, hp⟩
    · exact .inl hp
    · exact .inr (.inl ⟨hidle, hp, d, by rw [decodeAddr_cmd hr]⟩)
    · exact .inr (.inr ⟨hp, by simp [Event.isReset, hr, hd]⟩)

/-- The acknowledge returns to EXEC from HASH_WAIT, where alone a request is outstanding. -/
theorem Inv.hashAnswer_phase {s : State} (h : Inv s) :
    s.hashAnswer.phase = s.phase ∨ (s.phase = .hashWait ∧ s.hashAnswer.phase = .exec) := by
  unfold State.hashAnswer
  split_ifs with hreq
  · exact .inr ⟨h.hashWait_of_request hreq, rfl⟩
  · exact .inl rfl

/-- Settles O9: the phase moves of the FSM, of a transaction, of the acknowledge and of a reset, each
stated once above. -/
theorem phaseMovesOnlyAsSpecified : Obligations.PhaseMovesOnlyAsSpecified := by
  intro s t h hs
  cases hag : s.agenda with
  | nil =>
    rcases fsmStep_phase (step_nil hag ▸ hs) with hp | ⟨hp, ht⟩ | ⟨hp, ht⟩
    · exact .inl hp
    · exact .inr (.inl ⟨hp, ht, .inl rfl⟩)
    · exact .inr (.inr (.inr (.inl ⟨hp, ht, .inl rfl⟩)))
  | cons e rest =>
    rcases eventStep_cases (step_cons hag ▸ hs) with
      ⟨x, rfl, rfl⟩ | ⟨rfl, hf⟩ | rfl | ⟨rfl, rfl⟩ | ⟨rfl, rfl⟩ | ⟨rfl, rfl⟩
    · rcases hostTxn_phase x { s with agenda := rest } with hp | ⟨hp, ht, c, rfl⟩ | ⟨ht, hx⟩
      · exact .inl hp
      · exact .inr (.inr (.inl ⟨hp, ht, c, rfl⟩))
      · exact .inr (.inr (.inr (.inr (.inr ⟨ht, _, rfl, hx⟩))))
    · rcases fsmStep_phase hf with hp | ⟨hp, ht⟩ | ⟨hp, ht⟩
      · exact .inl hp
      · exact .inr (.inl ⟨hp, ht, .inr rfl⟩)
      · exact .inr (.inr (.inr (.inl ⟨hp, ht, .inr rfl⟩)))
    · exact .inl rfl
    · rcases (h.withAgenda rest).hashAnswer_phase with hp | ⟨hp, ht⟩
      · exact .inl hp
      · exact .inr (.inr (.inr (.inr (.inl ⟨hp, ht, rfl⟩))))
    · exact .inr (.inr (.inr (.inr (.inr ⟨rfl, _, rfl, rfl⟩))))
    · exact .inr (.inr (.inr (.inr (.inr ⟨rfl, _, rfl, rfl⟩))))

/-! ### Reset (10_state.md R52) -/

/-- Every reset event sets the registers as `State.resetDrawing` does; a soft reset also answers the
write to CTRL. -/
theorem eventStep_of_isReset {e : Event} (he : e.isReset = true) (s : State) :
    ∃ l, eventStep e s = .next (s.resetDrawing l)
      ∨ eventStep e s = .next ((s.resetDrawing l).replyWith .okay none) := by
  cases e with
  | hardReset => exact ⟨_, .inl rfl⟩
  | powerOn => exact ⟨_, .inl rfl⟩
  | host x =>
    cases x with
    | read a => cases he
    | write a d =>
      obtain ⟨ha, hd⟩ : decodeAddr a = .register .ctrl ∧ d.getLsbD 1 = true := by
        simpa [Event.isReset] using he
      exact ⟨s.writeSet, .inr (by
        simp [eventStep, hostTxn, hostWrite, ha, State.writeRegister, State.writeCtrl, hd,
          State.doReset])⟩
  | _ => cases he

theorem State.resetDrawing_statusWord (s : State) (l : List Nat) :
    (s.resetDrawing l).statusWord = 0x00000001#32 := by
  show State.reset.statusWord = _
  decide

/-- Settles O49: `State.resetDrawing` gives the values of R52, whatever bytes it draws. -/
theorem resetGivesTheStatedValues : Obligations.ResetGivesTheStatedValues := by
  intro s e rest he hag
  rw [step_cons hag]
  obtain ⟨l, hs | hs⟩ := eventStep_of_isReset he { s with agenda := rest }
  · exact ⟨_, hs, rfl, State.resetDrawing_statusWord { s with agenda := rest } l, rfl, rfl, rfl, rfl, rfl,
      rfl, rfl, rfl, rfl, rfl, rfl, rfl⟩
  · exact ⟨_, hs, rfl, State.resetDrawing_statusWord { s with agenda := rest } l, rfl, rfl, rfl, rfl, rfl,
      rfl, rfl, rfl, rfl, rfl, rfl, rfl⟩

/-! ### The ROM (10_state.md R44) -/

theorem CommandEffect.rom {s t : State} {i : Instr} (h : CommandEffect s i t) : t.rom = s.rom := by
  cases h <;> rfl

theorem fsmStep_rom {s t : State} (h : fsmStep s = .next t) : t.rom = s.rom := by
  rcases fsmStep_cases h with ⟨-, rfl⟩ | rfl | ⟨-, i, -, ht⟩ | ⟨-, rfl⟩
  · rfl
  · rfl
  · exact ht.rom
  · rfl

@[simp] theorem State.writeRegister_rom (s : State) (r : Reg) (d : Word) :
    (s.writeRegister r d).rom = s.rom := by
  cases r with
  | ctrl =>
    simp only [State.writeRegister, State.writeCtrl]
    split_ifs <;> rfl
  | status =>
    simp only [State.writeRegister, State.writeStatus]
    split_ifs <;> rfl
  | cmd =>
    simp only [State.writeRegister, State.writeCmd]
    split_ifs <;> rfl
  | _ => rfl

@[simp] theorem hostTxn_rom (x : Txn) (s : State) : (hostTxn x s).rom = s.rom := by
  rcases hostTxn_cases x s with
    ⟨r, d, heq⟩ | ⟨r, d, heq⟩ | ⟨w, -, d, heq⟩ | ⟨a, d, r, -, -, heq⟩ <;> simp [heq]

@[simp] theorem State.hashAnswer_rom (s : State) : s.hashAnswer.rom = s.rom := by
  unfold State.hashAnswer
  split_ifs <;> rfl

theorem eventStep_rom {e : Event} {s t : State} (h : eventStep e s = .next t) : t.rom = s.rom := by
  rcases eventStep_cases h with ⟨x, -, rfl⟩ | ⟨-, hf⟩ | rfl | ⟨-, rfl⟩ | ⟨-, rfl⟩ | ⟨-, rfl⟩
  · exact hostTxn_rom x s
  · exact fsmStep_rom hf
  · rfl
  · exact s.hashAnswer_rom
  · rfl
  · rfl

theorem step_rom {s t : State} (h : step s = .next t) : t.rom = s.rom := by
  cases hag : s.agenda with
  | nil => exact fsmStep_rom (step_nil hag ▸ h)
  | cons e rest => exact eventStep_rom (s := { s with agenda := rest }) (step_cons hag ▸ h)

/-- A run that goes on after a step is the run from that step's state. -/
theorem run_of_step {s u : State} (h : step s = .next u) (k : Nat) :
    Sys2Proof.core.run (k + 1) s = Sys2Proof.core.run k u := by
  have hstep : Sys2Proof.core.step s = .next u := h
  simp only [Host.Core.run, hstep]

/-- A run that reaches a state has a first step. -/
theorem exists_step_of_run {k : Nat} {s t : State} (h : Sys2Proof.core.run (k + 1) s = .next t) :
    ∃ u, step s = .next u ∧ Sys2Proof.core.run k u = .next t := by
  cases hs : step s with
  | next u => exact ⟨u, rfl, run_of_step hs k ▸ h⟩
  | fault r => cases r
  | refused r =>
    have hstep : Sys2Proof.core.step s = .refused r := hs
    simp only [Host.Core.run, hstep] at h
    cases h

theorem run_rom {k : Nat} {s t : State} (h : Sys2Proof.core.run k s = .next t) : t.rom = s.rom := by
  induction k generalizing s with
  | zero => cases h; rfl
  | succ k ih =>
    obtain ⟨u, hs, hu⟩ := exists_step_of_run h
    exact (ih hu).trans (step_rom hs)

/-- Settles O55, by induction on the number of steps. -/
theorem nothingWritesTheRom : Obligations.NothingWritesTheRom := by
  intro k s t h
  exact ⟨run_rom h, by rw [run_rom h]⟩

/-! ### The frame of a command (10_state.md R41, R42) -/

theorem asksHash_iff {i : Instr} : asksHash i = true ↔ i = .encode ∨ i = .decode ∨ i = .decidx := by
  cases i <;> simp [asksHash]

/-- Only ROMCHK writes the ROM flags. -/
theorem CommandEffect.romFlags {s t : State} {i : Instr} (h : CommandEffect s i t)
    (hi : i ≠ .romchk) : t.romOk = s.romOk ∧ t.romChecked = s.romChecked := by
  cases h with
  | checksRom => exact (hi rfl).elim
  | _ => exact ⟨rfl, rfl⟩

/-- Only a command that asks the hash unit writes RESULT1, the working buffers and the hash port. -/
theorem CommandEffect.codecFields {s t : State} {i : Instr} (h : CommandEffect s i t)
    (hi : asksHash i ≠ true) :
    t.result1 = s.result1 ∧ t.ext = s.ext ∧ t.grp = s.grp ∧ t.group = s.group
      ∧ t.hashLen = s.hashLen ∧ t.hashMsg = s.hashMsg := by
  cases h with
  | completes => exact ⟨rfl, rfl, rfl, rfl, rfl, rfl⟩
  | checksRom => exact ⟨rfl, rfl, rfl, rfl, rfl, rfl⟩
  | codecCompletes hasks => exact (hi hasks).elim
  | codecRequests _ _ _ _ hpass => exact (hi (asksHash_of_checksPassed hpass)).elim

/-- Settles O56: none of the four ways a command's step can end writes the host's registers. -/
theorem commandsLeaveTheHostsRegisters : Obligations.CommandsLeaveTheHostsRegisters := by
  intro i s t h
  have hrom := (exec_effect h).romFlags
  have hcodec := (exec_effect h).codecFields
  rw [ne_eq, asksHash_iff, not_or, not_or, and_imp, and_imp] at hcodec
  cases exec_effect h <;>
    exact ⟨rfl, rfl, rfl, rfl, rfl, rfl, rfl, rfl, rfl, rfl, rfl, rfl, rfl, rfl, rfl, rfl, rfl, rfl,
      hrom, hcodec⟩

/-! ### Register reads and writes (10_state.md R32 to R40) -/

/-- CTRL reads as IRQ_EN (10_state.md R35). -/
theorem State.ctrlWord_eq (s : State) : s.ctrlWord = if s.irqEn then 1#32 else 0#32 := by
  unfold State.ctrlWord
  cases s.irqEn <;> rfl

theorem step_readRegister {s : State} {a : HostAddr} {r : Reg} {rest : List Event}
    (hag : s.agenda = .host (.read a) :: rest) (hr : decodeAddr a = .register r) :
    step s = .next { s with agenda := rest, reply := some ⟨.okay, some (s.readRegister r)⟩ } := by
  rw [step_cons hag]
  simp only [eventStep, hostTxn, hostRead, hr]
  cases r <;> rfl

theorem step_writeRegister {s : State} {a : HostAddr} {d : Word} {r : Reg} {rest : List Event}
    (hag : s.agenda = .host (.write a d) :: rest) (hr : decodeAddr a = .register r) :
    step s = .next ((State.writeRegister { s with agenda := rest } r d).replyWith .okay none) := by
  rw [step_cons hag]
  simp only [eventStep, hostTxn, hostWrite, hr]

/-- Settles O40: each address of the map decodes to its register. -/
theorem registersReadAsTheMapSays : Obligations.RegistersReadAsTheMapSays := by
  intro s a v rest hag hmem
  rw [← s.ctrlWord_eq] at hmem
  suffices h : ∃ r, decodeAddr a = .register r ∧ v = s.readRegister r by
    obtain ⟨r, hr, rfl⟩ := h
    exact step_readRegister hag hr
  simp only [List.mem_cons, Prod.mk.injEq, List.not_mem_nil, or_false] at hmem
  rcases hmem with ⟨rfl, rfl⟩ | ⟨rfl, rfl⟩ | ⟨rfl, rfl⟩ | ⟨rfl, rfl⟩ | ⟨rfl, rfl⟩ | ⟨rfl, rfl⟩
    | ⟨rfl, rfl⟩ | ⟨rfl, rfl⟩ | ⟨rfl, rfl⟩ | ⟨rfl, rfl⟩
  · exact ⟨.id, rfl, rfl⟩
  · exact ⟨.param, rfl, rfl⟩
  · exact ⟨.ctrl, rfl, rfl⟩
  · exact ⟨.status, rfl, rfl⟩
  · exact ⟨.cmd, rfl, rfl⟩
  · exact ⟨.arg0, rfl, rfl⟩
  · exact ⟨.arg1, rfl, rfl⟩
  · exact ⟨.arg2, rfl, rfl⟩
  · exact ⟨.result0, rfl, rfl⟩
  · exact ⟨.result1, rfl, rfl⟩

theorem State.writeStatus_eq (s : State) (d : Word) :
    s.writeStatus d = { s with done := s.done && !d.getLsbD 1, cmdOvr := s.cmdOvr && !d.getLsbD 5,
                               accViol := s.accViol && !d.getLsbD 6 } := by
  unfold State.writeStatus
  cases d.getLsbD 1 <;> simp [State.clearDone]

/-- Settles O42: each address decodes to its register, and the write is the register's. -/
theorem registerWritesFollowTheirAccess : Obligations.RegisterWritesFollowTheirAccess := by
  intro s d rest
  refine ⟨fun hd hag => ?_, fun hag => ?_, fun hag => ?_, fun hag => ?_, fun hag => ?_,
    fun a ha hag => ?_⟩
  · rw [step_writeRegister (r := .ctrl) hag rfl, State.writeRegister, State.writeCtrl, hd]
    rfl
  · rw [step_writeRegister (r := .status) hag rfl, State.writeRegister, State.writeStatus_eq]
    rfl
  · exact step_writeRegister (r := .arg0) hag rfl
  · exact step_writeRegister (r := .arg1) hag rfl
  · exact step_writeRegister (r := .arg2) hag rfl
  · simp only [List.mem_cons, List.not_mem_nil, or_false] at ha
    rcases ha with rfl | rfl | rfl | rfl
    · exact step_writeRegister (r := .id) hag rfl
    · exact step_writeRegister (r := .param) hag rfl
    · exact step_writeRegister (r := .result0) hag rfl
    · exact step_writeRegister (r := .result1) hag rfl

/-! ### The STATUS word (10_state.md R36) -/

theorem State.busy_eq (s : State) : s.busy = decide (s.phase ≠ .idle) := by
  unfold State.busy
  cases s.phase <;> rfl

theorem Phase.isHashWait_eq (p : Phase) : p.isHashWait = decide (p = .hashWait) := by
  cases p <;> rfl

theorem State.err_eq (s : State) : s.err = decide (s.errCode ≠ .none) := by
  unfold State.err
  cases s.errCode <;> rfl

theorem errCode_numbered (e : ErrCode) :
    (e, e.code.toNat) ∈
      [(ErrCode.none, 0), (.invalidKeyLength, 1), (.invalidWordIndex, 2), (.invalidWordCount, 3),
        (.unknownWord, 4), (.checksumMismatch, 5), (.outOfRange, 6), (.notFound, 7),
        (.badOpcode, 8), (.badArgument, 9), (.romInvalid, 10)] := by
  cases e <;> decide

theorem getLsbD_append_low {m n i : Nat} (x : BitVec m) (y : BitVec n) (h : i < n) :
    (x ++ y).getLsbD i = y.getLsbD i := by
  rw [BitVec.getLsbD_append, if_pos h]

theorem getLsbD_append_high {m n i : Nat} (x : BitVec m) (y : BitVec n) (h : n ≤ i) :
    (x ++ y).getLsbD i = x.getLsbD (i - n) := by
  rw [BitVec.getLsbD_append, if_neg (by omega)]

/-- Settles O41: each bit and field lies in one part of the concatenation that STATUS is. -/
theorem statusWordHasItsFields : Obligations.StatusWordHasItsFields := by
  intro s
  rw [← s.busy_eq, ← s.err_eq, ← s.phase.isHashWait_eq]
  simp (disch := omega) only [State.statusWord, getLsbD_append_low, getLsbD_append_high,
    extractLsb'_append_low, extractLsb'_append_high, Nat.reduceSub, BitVec.extractLsb'_eq_self,
    BitVec.getLsbD_ofBool, decide_true, Bool.true_and, true_and, and_true]
  exact errCode_numbered s.errCode

end Sys2Proof.Machine

namespace Sys2Proof.Machine

/-! ### Fields that a command does not read (10_state.md R38, R49) -/

/-- The change `f` of the state touches nothing that a command reads before its hash request, and
commutes with what such a command writes. -/
structure Unread (f : State → State) : Prop where
  op0 : ∀ s, (f s).op0 = s.op0
  op1 : ∀ s, (f s).op1 = s.op1
  op2 : ∀ s, (f s).op2 = s.op2
  buf : ∀ s, (f s).buf = s.buf
  rom : ∀ s, (f s).rom = s.rom
  romOk : ∀ s, (f s).romOk = s.romOk
  setBuf : ∀ s b, { f s with buf := b } = f { s with buf := b }
  deliverWord : ∀ s n, (f s).deliverWord n = f (s.deliverWord n)
  recordRomCheck : ∀ s, (f s).recordRomCheck = f s.recordRomCheck
  complete : ∀ s e, (f s).complete e = f (s.complete e)
  raiseAt : ∀ s e p, (f s).raiseAt e p = f (s.raiseAt e p)

section
variable {f : State → State} (hf : Unread f)
include hf

theorem Unread.winWord (s : State) : (f s).winWord = s.winWord := by
  simp only [State.winWord, hf.buf]

theorem Unread.wordIndex (s : State) : (f s).wordIndex = s.wordIndex := by
  funext i
  simp only [State.wordIndex, State.sentenceWord, hf.rom, hf.buf]

theorem Unread.entryIndex (s : State) : (f s).entryIndex = s.entryIndex := by
  funext i
  simp only [State.entryIndex, State.idxEntry, hf.buf]

/-- The commands that do not ask the hash unit commute with the change. -/
theorem Unread.exec_plain {i : Instr} {s t : State} (hi : asksHash i ≠ true)
    (h : exec i s = .next t) : exec i (f s) = .next (f t) := by
  cases i with
  | nop => cases h; exact congrArg _ (hf.complete s _)
  | clear =>
    cases h
    simp only [exec, execClear, hf.op0, hf.op1, hf.buf, hf.setBuf, hf.complete, apply_ite f]
  | bitx rj ord =>
    cases h
    simp only [exec, execBitx, hf.op0, hf.op1, hf.op2, hf.buf, hf.setBuf, hf.complete,
      apply_ite f]
  | brev =>
    cases h
    simp only [exec, execBrev, hf.op0, hf.op1, hf.buf, hf.setBuf, hf.complete, apply_ite f]
  | dword =>
    cases h
    simp only [exec, execDword, hf.romOk, hf.op0, hf.deliverWord, hf.complete, apply_ite f]
  | dindex =>
    cases h
    simp only [exec, execDindex, hf.romOk, hf.rom, hf.winWord, hf.complete, apply_ite f]
    cases romLookup s.rom s.winWord with
    | none => rfl
    | some n => simp only [hf.deliverWord, hf.complete]
  | romchk =>
    cases h
    simp only [exec, execRomchk, hf.rom, hf.recordRomCheck, hf.complete]
  | encode => exact (hi rfl).elim
  | decode => exact (hi rfl).elim
  | decidx => exact (hi rfl).elim

/-- ENCODE before its request: it completes and commutes with the change, or it requests the same
message. -/
theorem Unread.encodeStart (s : State) :
    ((encodeStart s).phase = .idle ∧ (encodeStart s).hashReq = false
        ∧ encodeStart (f s) = f (encodeStart s))
      ∨ ∃ m, encodeStart s = s.hashRequest m ∧ encodeStart (f s) = (f s).hashRequest m := by
  simp only [Machine.encodeStart, hf.romOk, hf.op0, State.keyBytes, hf.buf]
  split_ifs
  · exact .inl ⟨rfl, rfl, hf.complete s _⟩
  · exact .inr ⟨_, rfl, rfl⟩
  · exact .inl ⟨rfl, rfl, hf.complete s _⟩

/-- DECODE before its request: likewise, with the same indices. -/
theorem Unread.decodeStart (s : State) :
    ((decodeStart s).phase = .idle ∧ (decodeStart s).hashReq = false
        ∧ decodeStart (f s) = f (decodeStart s))
      ∨ ∃ idx nw, decodeStart s = s.reconstructStart idx nw
          ∧ decodeStart (f s) = (f s).reconstructStart idx nw := by
  simp only [Machine.decodeStart, hf.romOk, hf.op0, hf.wordIndex]
  split_ifs
  · exact .inl ⟨rfl, rfl, hf.complete s _⟩
  · cases collect s.wordIndex 0 s.op0 with
    | ok idx => exact .inr ⟨idx, _, rfl, rfl⟩
    | error p => exact .inl ⟨rfl, rfl, hf.raiseAt s _ p⟩
  · exact .inl ⟨rfl, rfl, hf.complete s _⟩

/-- DECIDX before its request: likewise. -/
theorem Unread.decidxStart (s : State) :
    ((decidxStart s).phase = .idle ∧ (decidxStart s).hashReq = false
        ∧ decidxStart (f s) = f (decidxStart s))
      ∨ ∃ idx nw, decidxStart s = s.reconstructStart idx nw
          ∧ decidxStart (f s) = (f s).reconstructStart idx nw := by
  simp only [Machine.decidxStart, hf.op0, hf.entryIndex]
  split_ifs
  · cases collect s.entryIndex 0 s.op0 with
    | ok idx => exact .inr ⟨idx, _, rfl, rfl⟩
    | error p => exact .inl ⟨rfl, rfl, hf.raiseAt s _ p⟩
  · exact .inl ⟨rfl, rfl, hf.complete s _⟩

end

/-! ### The ARG registers (10_state.md R38, 70_reset_and_hazards.md R313) -/

/-- The state with other values in ARG0 to ARG2. -/
def State.withArgs (x y z : Word) (s : State) : State := { s with arg0 := x, arg1 := y, arg2 := z }

theorem unread_withArgs (x y z : Word) : Unread (State.withArgs x y z) where
  op0 _ := rfl
  op1 _ := rfl
  op2 _ := rfl
  buf _ := rfl
  rom _ := rfl
  romOk _ := rfl
  setBuf _ _ := rfl
  deliverWord _ _ := rfl
  recordRomCheck _ := rfl
  complete _ _ := rfl
  raiseAt _ _ _ := rfl

section
variable (x y z : Word) (s : State)

@[simp] theorem State.withArgs_point : (s.withArgs x y z).point = s.point := rfl

theorem encodeStart_withArgs :
    encodeStart (s.withArgs x y z) = (encodeStart s).withArgs x y z := by
  obtain ⟨-, -, h⟩ | ⟨m, h, h'⟩ := (unread_withArgs x y z).encodeStart s
  · exact h
  · rw [h, h']
    rfl

theorem decodeStart_withArgs :
    decodeStart (s.withArgs x y z) = (decodeStart s).withArgs x y z := by
  obtain ⟨-, -, h⟩ | ⟨idx, nw, h, h'⟩ := (unread_withArgs x y z).decodeStart s
  · exact h
  · rw [h, h']
    rfl

theorem decidxStart_withArgs :
    decidxStart (s.withArgs x y z) = (decidxStart s).withArgs x y z := by
  obtain ⟨-, -, h⟩ | ⟨idx, nw, h, h'⟩ := (unread_withArgs x y z).decidxStart s
  · exact h
  · rw [h, h']
    rfl

theorem encodeFinish_withArgs :
    encodeFinish (s.withArgs x y z) = (encodeFinish s).withArgs x y z := by
  rw [encodeFinish_eq, encodeFinish_eq]
  rfl

theorem reconstructFinish_withArgs (nw : Nat) :
    (s.withArgs x y z).reconstructFinish nw = (s.reconstructFinish nw).withArgs x y z := rfl

end

theorem exec_withArgs {i : Instr} {s t : State} (h : exec i s = .next t) (x y z : Word) :
    exec i (s.withArgs x y z) = .next (t.withArgs x y z) := by
  by_cases hi : asksHash i = true
  · obtain rfl | rfl | rfl := asksHash_iff.1 hi
    · cases h
      simp only [exec, execEncode, State.withArgs_point]
      cases s.point
      · exact congrArg _ (encodeStart_withArgs x y z s)
      · exact congrArg _ (encodeFinish_withArgs x y z s)
    · cases h
      simp only [exec, execDecode, State.withArgs_point]
      cases s.point
      · exact congrArg _ (decodeStart_withArgs x y z s)
      · exact congrArg _ (reconstructFinish_withArgs x y z s _)
    · cases h
      simp only [exec, execDecidx, State.withArgs_point]
      cases s.point
      · exact congrArg _ (decidxStart_withArgs x y z s)
      · exact congrArg _ (reconstructFinish_withArgs x y z s _)
  · exact (unread_withArgs x y z).exec_plain hi h

/-- Settles O57: `exec` commutes with a change of ARG0 to ARG2, which no command reads. -/
theorem runningCommandIgnoresArgRegisters : Obligations.RunningCommandIgnoresArgRegisters :=
  fun _ _ _ x y z h => exec_withArgs h x y z

/-! ### The working state of the block (10_state.md R49) -/

/-- The fields that neither a register shows nor an accept writes. -/
structure Work where
  ext : Vector Byte 33
  grp : Vector Byte 2
  group : Fin 25
  d0l : Byte
  hashLen : BitVec 6
  hashMsg : BitVec 256

/-- The state with another working state. -/
def State.withWork (w : Work) (s : State) : State :=
  { s with ext := w.ext, grp := w.grp, group := w.group, d0l := w.d0l, hashLen := w.hashLen,
           hashMsg := w.hashMsg }

/-- The working state of a state. -/
def State.work (s : State) : Work := ⟨s.ext, s.grp, s.group, s.d0l, s.hashLen, s.hashMsg⟩

theorem unread_withWork (w : Work) : Unread (State.withWork w) where
  op0 _ := rfl
  op1 _ := rfl
  op2 _ := rfl
  buf _ := rfl
  rom _ := rfl
  romOk _ := rfl
  setBuf _ _ := rfl
  deliverWord _ _ := rfl
  recordRomCheck _ := rfl
  complete _ _ := rfl
  raiseAt _ _ _ := rfl

/-- A command that does not ask the hash unit completes in its first step. -/
theorem CommandEffect.completed {s t : State} {i : Instr} (h : CommandEffect s i t)
    (hi : asksHash i ≠ true) : t.phase = .idle ∧ t.hashReq = false := by
  cases h with
  | codecRequests _ _ _ _ hpass => exact (hi (asksHash_of_checksPassed hpass)).elim
  | _ => exact ⟨rfl, rfl⟩

/-- ENCODE's second half takes its digest byte from the answer and writes the working buffers itself. -/
theorem exec_encode_answered (s : State) (w : Work) (m : List Byte) (l : List Event) :
    exec .encode { ((s.withWork w).hashRequest m).hashAnswer with agenda := l }
      = exec .encode { (s.hashRequest m).hashAnswer with agenda := l } := by
  show Host.Outcome.next (encodeFinish _) = .next (encodeFinish _)
  rw [encodeFinish_eq, encodeFinish_eq]
  rfl

/-- `Reconstruct` writes the working buffers and the port, and the answer writes the digest byte. -/
theorem hashAnswer_reconstructStart (s : State) (w : Work) (idx : List Nat) (nw : Nat) :
    ((s.withWork w).reconstructStart idx nw).hashAnswer = (s.reconstructStart idx nw).hashAnswer :=
  rfl

/-- A command's first step: it completes, and keeps the change of the working state; or it waits, and
what it does after the acknowledge no longer depends on the change. -/
theorem exec_start_withWork {i : Instr} {s : State} (w : Work) (hp : s.point = .start) :
    ∃ t t', exec i s = .next t ∧ exec i (s.withWork w) = .next t'
      ∧ ((t.phase = .idle ∧ t.hashReq = false ∧ t' = t.withWork w)
        ∨ (t.hashReq = true ∧ t'.hashReq = true
          ∧ ∀ l, exec i { t'.hashAnswer with agenda := l }
              = exec i { t.hashAnswer with agenda := l })) := by
  have hf := unread_withWork w
  have hp' : (s.withWork w).point = .start := hp
  by_cases hi : asksHash i = true
  · obtain rfl | rfl | rfl := asksHash_iff.1 hi
    · refine ⟨encodeStart s, encodeStart (s.withWork w), by simp only [exec, execEncode, hp],
        by simp only [exec, execEncode, hp'], ?_⟩
      obtain h | ⟨m, h, h'⟩ := hf.encodeStart s
      · exact .inl h
      · rw [h, h']
        exact .inr ⟨rfl, rfl, exec_encode_answered s w m⟩
    · refine ⟨decodeStart s, decodeStart (s.withWork w), by simp only [exec, execDecode, hp],
        by simp only [exec, execDecode, hp'], ?_⟩
      obtain h | ⟨idx, nw, h, h'⟩ := hf.decodeStart s
      · exact .inl h
      · rw [h, h', hashAnswer_reconstructStart]
        exact .inr ⟨rfl, rfl, fun _ => rfl⟩
    · refine ⟨decidxStart s, decidxStart (s.withWork w), by simp only [exec, execDecidx, hp],
        by simp only [exec, execDecidx, hp'], ?_⟩
      obtain h | ⟨idx, nw, h, h'⟩ := hf.decidxStart s
      · exact .inl h
      · rw [h, h', hashAnswer_reconstructStart]
        exact .inr ⟨rfl, rfl, fun _ => rfl⟩
  · obtain ⟨t, ht⟩ := exec_total i s
    obtain ⟨hidle, hreq⟩ := (exec_effect ht).completed hi
    exact ⟨t, _, ht, hf.exec_plain hi ht, .inl ⟨hidle, hreq, rfl⟩⟩

/-! ### A command's run, from the accept to the completion -/

theorem run_one (s : State) : Sys2Proof.core.run 1 s = step s := by
  cases hs : step s with
  | next u => exact run_of_step hs 0
  | fault r => cases r
  | refused r =>
    have hstep : Sys2Proof.core.step s = .refused r := hs
    simp only [Host.Core.run, hstep]
    rfl

/-- After a completion the acknowledge and the FSM's turn do nothing. -/
theorem run_completed {s : State} {rest : List Event} (hag : s.agenda = .hashAck :: .fsm :: rest)
    (hp : s.phase = .idle) (hreq : s.hashReq = false) :
    Sys2Proof.core.run 2 s = .next { s with agenda := rest } := by
  have hack : step s = .next { s with agenda := .fsm :: rest } := by
    rw [step_cons hag]
    simp [eventStep, State.hashAnswer, hreq]
  rw [run_of_step hack, run_one, step_cons rfl]
  exact fsmStep_still (.inl hp)

/-- A waiting command gets its answer and takes its second step. -/
theorem run_answered {s : State} {i : Instr} {rest : List Event}
    (hag : s.agenda = .hashAck :: .fsm :: rest) (hreq : s.hashReq = true)
    (hd : decodeWord s.cmdl = .ok i) :
    Sys2Proof.core.run 2 s = exec i { s.hashAnswer with agenda := rest } := by
  have hack : step s = .next { s.hashAnswer with agenda := .fsm :: rest } := by
    rw [step_cons hag]
    simp only [eventStep, State.hashAnswer, hreq, if_true]
    rfl
  rw [run_of_step hack, run_one, step_cons rfl]
  refine fsmStep_exec ?_ ?_
  · simp [State.hashAnswer, hreq]
  · simpa [State.hashAnswer, hreq] using hd

theorem CommandEffect.agenda {s t : State} {i : Instr} (h : CommandEffect s i t) :
    t.agenda = s.agenda := by
  cases h <;> rfl

theorem CommandEffect.cmdl {s t : State} {i : Instr} (h : CommandEffect s i t) :
    t.cmdl = s.cmdl := by
  cases h <;> rfl

/-- The FSM's turn on an accepted command, then the answer and another turn: a change of the working
state at the start is at most a change of the working state at the end. -/
theorem fsmStep_run_withWork {s : State} (w : Work) {rest : List Event}
    (hag : s.agenda = .hashAck :: .fsm :: rest) (hp : s.phase = .exec) (hpt : s.point = .start) :
    ∃ u u' t w', fsmStep s = .next u ∧ fsmStep (s.withWork w) = .next u'
      ∧ Sys2Proof.core.run 2 u = .next t ∧ Sys2Proof.core.run 2 u' = .next (t.withWork w') := by
  cases hd : decodeWord s.cmdl with
  | error x =>
    exact ⟨_, _, _, w, fsmStep_illegal hp hd, fsmStep_illegal (s := s.withWork w) hp hd,
      run_completed hag rfl rfl, run_completed hag rfl rfl⟩
  | ok i =>
    obtain ⟨u, u', hu, hu', h⟩ := exec_start_withWork (i := i) w hpt
    have hagu : u.agenda = _ := (exec_effect hu).agenda.trans hag
    have hagu' : u'.agenda = _ := (exec_effect hu').agenda.trans hag
    refine ⟨u, u', ?_⟩
    rw [fsmStep_exec hp hd, fsmStep_exec (s := s.withWork w) hp hd]
    obtain ⟨hidle, hreq, rfl⟩ | ⟨hreq, hreq', hsame⟩ := h
    · exact ⟨_, w, hu, hu', run_completed hagu hidle hreq, run_completed hagu' hidle hreq⟩
    · obtain ⟨t, ht⟩ := exec_total i { u.hashAnswer with agenda := rest }
      have hdu : decodeWord u.cmdl = .ok i := (exec_effect hu).cmdl ▸ hd
      have hdu' : decodeWord u'.cmdl = .ok i := (exec_effect hu').cmdl ▸ hd
      refine ⟨t, t.work, hu, hu', (run_answered hagu hreq hdu).trans ht, ?_⟩
      exact (run_answered hagu' hreq' hdu').trans ((hsame rest).trans ht)

/-- The state after the host's write to CMD is accepted, with the events `l` to come. -/
def State.accepted (s : State) (c : Word) (l : List Event) : State :=
  (State.accept { s with agenda := l } c).replyWith .okay none

theorem step_acceptWrite {s : State} {c : Word} {rest : List Event} (hp : s.phase = .idle)
    (hag : s.agenda = .host (.write 0x010#10 c) :: rest) : step s = .next (s.accepted c rest) := by
  rw [step_writeRegister (r := .cmd) hag rfl, State.writeRegister, State.writeCmd, if_neg]
  · rfl
  · simp [State.busy, hp, Phase.isBusy]

theorem step_accepted_fsm (s : State) (c : Word) (l : List Event) :
    step (s.accepted c (.fsm :: l)) = fsmStep (s.accepted c l) := rfl

theorem step_accepted_withWork_fsm (s : State) (w : Work) (c : Word) (l : List Event) :
    step ((s.accepted c (.fsm :: l)).withWork w) = fsmStep ((s.accepted c l).withWork w) := rfl

/-- Settles O58: the accept writes every differing field but the working state, and the rest of the run
keeps the two states equal up to it. -/
theorem noHiddenStateBetweenCommands : Obligations.NoHiddenStateBetweenCommands := by
  intro s s' t t' c rest hp hag hs' ht ht'
  have hp' : s'.phase = .idle := (congrArg State.phase hs').trans hp
  have hag' : s'.agenda = _ := (congrArg State.agenda hs').trans hag
  have haccept (l : List Event) : s'.accepted c l = (s.accepted c l).withWork s'.work :=
    congrArg (State.accepted · c l) hs'
  obtain ⟨u, u', v, w', hu, hu', hv, hv'⟩ :=
    fsmStep_run_withWork (s := s.accepted c (.hashAck :: .fsm :: rest)) s'.work rfl rfl rfl
  rw [run_of_step (step_acceptWrite hp hag), run_of_step (step_accepted_fsm s c _ ▸ hu), hv] at ht
  rw [run_of_step (step_acceptWrite hp' hag'), haccept,
    run_of_step (step_accepted_withWork_fsm s _ c _ ▸ hu'), hv'] at ht'
  cases ht
  cases ht'
  exact ⟨rfl, rfl, rfl, rfl, rfl, rfl⟩

end Sys2Proof.Machine

namespace Sys2Proof.Machine

/-! ### Transactions that reach no register (20_memory.md R82, R84, R86, R88) -/

/-- A misaligned or reserved address targets neither a register nor the window. -/
theorem decodeAddr_noTarget {a : HostAddr}
    (h : a.toNat % 4 ≠ 0 ∨ (0x028 ≤ a.toNat ∧ a.toNat ≤ 0x1FC)) :
    decodeAddr a = .misaligned ∨ decodeAddr a = .reserved := by
  by_cases h4 : a.toNat % 4 = 0
  · obtain ⟨hlo, hhi⟩ := h.resolve_left (not_not_intro h4)
    exact .inr (decodeAddr_reserved h4 hlo hhi)
  · exact .inl (decodeAddr_misaligned h4)

section
variable {s : State} {a : HostAddr} {w : Nat} {d : Word} {rest : List Event}

theorem step_readNoTarget (hag : s.agenda = .host (.read a) :: rest)
    (ha : decodeAddr a = .misaligned ∨ decodeAddr a = .reserved) :
    step s = .next { s with agenda := rest, reply := some ⟨.slverr, some 0#32⟩ } := by
  rw [step_cons hag]
  rcases ha with ha | ha <;> simp only [eventStep, hostTxn, hostRead, ha, State.replyWith]

theorem step_writeNoTarget (hag : s.agenda = .host (.write a d) :: rest)
    (ha : decodeAddr a = .misaligned ∨ decodeAddr a = .reserved) :
    step s = .next { s with agenda := rest, reply := some ⟨.slverr, none⟩ } := by
  rw [step_cons hag]
  rcases ha with ha | ha <;> simp only [eventStep, hostTxn, hostWrite, ha, State.replyWith]

theorem step_readWindow_busy (hag : s.agenda = .host (.read a) :: rest)
    (ha : decodeAddr a = .window w) (hp : s.phase ≠ .idle) :
    step s = .next { s with
      accViol := true, agenda := rest, reply := some ⟨.slverr, some 0#32⟩ } := by
  rw [step_cons hag]
  simp [eventStep, hostTxn, hostRead, ha, State.busy_eq, hp, State.replyWith]

theorem step_writeWindow_busy (hag : s.agenda = .host (.write a d) :: rest)
    (ha : decodeAddr a = .window w) (hp : s.phase ≠ .idle) :
    step s = .next { s with accViol := true, agenda := rest, reply := some ⟨.slverr, none⟩ } := by
  rw [step_cons hag]
  simp [eventStep, hostTxn, hostWrite, ha, State.busy_eq, hp, State.replyWith]

theorem step_readWindow_idle (hag : s.agenda = .host (.read a) :: rest)
    (ha : decodeAddr a = .window w) (hp : s.phase = .idle) :
    step s = .next { s with
      agenda := rest, reply := some ⟨.okay, some (s.buf.readLanes w)⟩ } := by
  rw [step_cons hag]
  simp [eventStep, hostTxn, hostRead, ha, State.busy_eq, hp, State.replyWith]

theorem step_writeWindow_idle (hag : s.agenda = .host (.write a d) :: rest)
    (ha : decodeAddr a = .window w) (hp : s.phase = .idle) :
    step s = .next { s with
      buf := s.buf.writeLanes w d, agenda := rest, reply := some ⟨.okay, none⟩ } := by
  rw [step_cons hag]
  simp [eventStep, hostTxn, hostWrite, ha, State.busy_eq, hp, State.replyWith]

end

/-- Settles O43: such an address has no target, whatever the phase. -/
theorem misalignedAndReservedHaveNoEffect : Obligations.MisalignedAndReservedHaveNoEffect :=
  fun _ _ _ _ ha => ⟨fun hag => step_readNoTarget hag (decodeAddr_noTarget ha),
    fun hag => step_writeNoTarget hag (decodeAddr_noTarget ha)⟩

/-- Settles O45: every aligned address from 0x200 on is a window word. -/
theorem windowIsClosedWhileBusy : Obligations.WindowIsClosedWhileBusy :=
  fun _ _ _ _ hp h4 hlo => ⟨fun hag => step_readWindow_busy hag (decodeAddr_window h4 hlo) hp,
    fun hag => step_writeWindow_busy hag (decodeAddr_window h4 hlo) hp⟩

/-- Settles O47: by the four targets of an address; only the window while BUSY sets ACC_VIOL. -/
theorem readsHaveNoOtherSideEffect : Obligations.ReadsHaveNoOtherSideEffect := by
  intro s a rest hag
  rcases decodeAddr_cases a with
    ⟨h4, ha⟩ | ⟨-, -, hhi, ha⟩ | ⟨h4, hlo, -, ha⟩ | ⟨-, hhi, r, ha⟩
  · exact ⟨_, step_readNoTarget hag (.inl ha), by simp [h4]⟩
  · have hlo : ¬ 0x200 ≤ a.toNat := by omega
    exact ⟨_, step_readNoTarget hag (.inr ha), by simp [hlo]⟩
  · by_cases hp : s.phase = .idle
    · exact ⟨_, step_readWindow_idle hag ha hp, by simp [hp]⟩
    · exact ⟨_, step_readWindow_busy hag ha hp, by simp [h4, hlo, hp]⟩
  · have hlo : ¬ 0x200 ≤ a.toNat := by omega
    exact ⟨_, step_readRegister hag ha, by simp [hlo]⟩

/-! ### The lanes of a window word (20_memory.md R84) -/

theorem decodeAddr_windowWord {w : Nat} (h : w < 128) :
    decodeAddr (BitVec.ofNat 10 (0x200 + 4 * w)) = .window w := by
  have ha : (BitVec.ofNat 10 (0x200 + 4 * w)).toNat = 0x200 + 4 * w :=
    Nat.mod_eq_of_lt (by omega)
  rw [decodeAddr_window (by omega) (by omega), ha]
  exact congrArg Target.window (by omega)

theorem Memory.extractLsb'_readLanes (m : Memory) (w : Nat) {j : Nat} (h : j < 4) :
    (m.readLanes w).extractLsb' (8 * j) 8 = m.read (4 * w + j) := by
  unfold Memory.readLanes
  interval_cases j <;>
    simp (disch := omega) only [extractLsb'_append_low, extractLsb'_append_high, Nat.reduceMul,
      Nat.reduceSub, BitVec.extractLsb'_eq_self, Nat.add_zero]

theorem Memory.read_writeLanes_lane (m : Memory) (w : Nat) (d : Word) {j : Nat} (h : j < 4) :
    (m.writeLanes w d).read (4 * w + j) = d.extractLsb' (8 * j) 8 := by
  rw [Memory.writeLanes, Memory.read_writeBytes,
    if_pos ⟨Nat.le_add_right .., Nat.add_lt_add_left h _⟩, Nat.add_sub_cancel_left]
  interval_cases j <;> rfl

theorem Memory.read_writeLanes_outside {m : Memory} {w x : Nat} {d : Word}
    (h : x < 4 * w ∨ 4 * w + 4 ≤ x) : (m.writeLanes w d).read x = m.read x :=
  Memory.read_writeBytes_outside h

/-- Settles O44: the address decodes to its word, whose lanes the laws above give. -/
theorem windowLanesAreLittleEndian : Obligations.WindowLanesAreLittleEndian := by
  intro s w d rest hw hp
  have ha := decodeAddr_windowWord hw
  exact ⟨fun hag => ⟨_, step_readWindow_idle hag ha hp,
      fun _ hj => s.buf.extractLsb'_readLanes w hj⟩,
    fun hag => ⟨_, step_writeWindow_idle hag ha hp,
      fun _ hj => s.buf.read_writeLanes_lane w d hj, fun _ => Memory.read_writeLanes_outside⟩⟩

end Sys2Proof.Machine

namespace Sys2Proof

open Sys2Proof.Laws

/-! ### The fields of a command word (30_encoding.md R120) -/

theorem ofBool_getLsbD (c : Word) (n : Nat) : BitVec.ofBool (c.getLsbD n) = c.extractLsb' n 1 := by
  apply BitVec.eq_of_getLsbD_eq
  intro k hk
  obtain rfl : k = 0 := by omega
  simp

/-- A word is its reserved bits, ORD, RJ and OP. -/
theorem word_eq_fields (c : Word) :
    c.extractLsb' 10 22 ++ BitVec.ofBool (c.getLsbD 9) ++ BitVec.ofBool (c.getLsbD 8)
      ++ c.extractLsb' 0 8 = c := by
  rw [ofBool_getLsbD, ofBool_getLsbD,
    BitVec.extractLsb'_append_extractLsb'_eq_extractLsb' (rfl : 10 = 9 + 1),
    BitVec.extractLsb'_append_extractLsb'_eq_extractLsb' (rfl : 9 = 8 + 1)]
  exact BitVec.extractLsb'_append_extractLsb' (w := 24) (len := 8)

/-! ### Decoding against encoding (30_encoding.md R120, R121) -/

/-- The opcode map inverts `Instr.opcode`; where only BITX may set RJ and ORD, it loses neither bit. -/
theorem fields_of_decodeOpcode {op : Nat} {rj ord : Bool} {i : Instr}
    (hmod : op ≠ 0x02 → (rj || ord) = false) (h : decodeOpcode op rj ord = .ok i) :
    op = i.opcode.toNat ∧ rj = i.rjBit ∧ ord = i.ordBit := by
  unfold decodeOpcode at h
  split at h <;> cases h
  case h_3 => exact ⟨rfl, rfl, by cases ord <;> rfl⟩
  all_goals exact ⟨rfl, Bool.or_eq_false_iff.mp (hmod (by decide))⟩

theorem fields_of_decodeWord {c : Word} {i : Instr} (h : decodeWord c = .ok i) :
    c.extractLsb' 10 22 = 0#22 ∧ c.getLsbD 9 = i.ordBit ∧ c.getLsbD 8 = i.rjBit
      ∧ c.extractLsb' 0 8 = i.opcode := by
  simp only [decodeWord] at h
  split_ifs at h with hres hmod
  obtain ⟨hop, hrj, hord⟩ := fields_of_decodeOpcode (by simpa using hmod) h
  exact ⟨not_not.mp hres, hord, hrj, BitVec.eq_of_toNat_eq hop⟩

theorem encodeWord_of_decodeWord {c : Word} {i : Instr} (h : decodeWord c = .ok i) :
    encodeWord i = c := by
  obtain ⟨hres, hord, hrj, hop⟩ := fields_of_decodeWord h
  rw [encodeWord, ← hres, ← hord, ← hrj, ← hop, word_eq_fields]

@[simp] theorem decodeWord_encodeWord (i : Instr) : decodeWord (encodeWord i) = .ok i := by
  cases i with
  | bitx rj ord => cases rj <;> cases ord <;> decide
  | _ => decide

theorem decodeWord_eq_ok_iff {c : Word} {i : Instr} : decodeWord c = .ok i ↔ encodeWord i = c :=
  ⟨encodeWord_of_decodeWord, fun h => h ▸ decodeWord_encodeWord i⟩

/-- Settles O2: the commands that `c` decodes to are those whose encoding is `c`. -/
theorem decodingInvertsEncoding : Obligations.DecodingInvertsEncoding :=
  ⟨fun i _ => decodeWord_encodeWord i, fun _ _ => encodeWord_of_decodeWord⟩

/-! ### The valid words (30_encoding.md R122) -/

/-- Every command the syntax can write: BITX with its four field values, and one per other opcode. -/
def commands : List Instr :=
  [.nop, .clear, .bitx false .msb, .bitx true .msb, .bitx false .lsb, .bitx true .lsb, .brev, .dword,
    .dindex, .encode, .decode, .decidx, .romchk]

theorem mem_commands (i : Instr) : i ∈ commands := by
  cases i with
  | bitx rj ord => cases rj <;> cases ord <;> decide
  | _ => decide

/-- The 13 words of 30_encoding.md R122. -/
def commandWords : List Word :=
  [0x000#32, 0x001#32, 0x002#32, 0x102#32, 0x202#32, 0x302#32, 0x003#32, 0x004#32, 0x005#32,
    0x006#32, 0x007#32, 0x008#32, 0x009#32]

theorem map_encodeWord_commands : commands.map encodeWord = commandWords := by decide

theorem exists_decodeWord_iff_mem_commandWords {c : Word} :
    (∃ i, decodeWord c = .ok i) ↔ c ∈ commandWords := by
  simp only [decodeWord_eq_ok_iff, ← map_encodeWord_commands, List.mem_map, mem_commands, true_and]

theorem encodeValid : ∀ i : Instr, EncodeValid.Statement i
  | .nop => EncodeValid.nop
  | .clear => EncodeValid.clear
  | .bitx rj ord => EncodeValid.bitx rj ord
  | .brev => EncodeValid.brev
  | .dword => EncodeValid.dword
  | .dindex => EncodeValid.dindex
  | .encode => EncodeValid.encode
  | .decode => EncodeValid.decode
  | .decidx => EncodeValid.decidx
  | .romchk => EncodeValid.romchk

/-- `valid(c)` as 30_encoding.md R122 writes it. -/
theorem validWord_iff {c : Word} :
    validWord c = true ↔
      (c.extractLsb' 0 8 = 0x02#8 ∧ c.extractLsb' 10 22 = 0#22)
        ∨ (c.extractLsb' 0 8 ∈ plainOpcodes ∧ c.extractLsb' 8 24 = 0#24) := by
  simp only [validWord, Bool.or_eq_true, Bool.and_eq_true, beq_iff_eq, List.contains_iff_mem]

theorem bitxWord_mem_commandWords :
    ∀ rj ord : Bool, 0#22 ++ BitVec.ofBool ord ++ BitVec.ofBool rj ++ 0x02#8 ∈ commandWords := by
  decide

theorem plainWord_mem_commandWords : ∀ op ∈ plainOpcodes, 0#24 ++ op ∈ commandWords := by decide

/-- The fields that `valid(c)` fixes leave RJ and ORD of BITX, or nothing but the opcode. -/
theorem mem_commandWords_of_validWord {c : Word} (h : validWord c = true) : c ∈ commandWords := by
  obtain ⟨hop, hres⟩ | ⟨hop, hupper⟩ := validWord_iff.mp h
  · rw [← word_eq_fields c, hop, hres]
    exact bitxWord_mem_commandWords _ _
  · rw [← BitVec.extractLsb'_append_extractLsb' (w := 24) (len := 8) (x := c), hupper]
    exact plainWord_mem_commandWords _ hop

theorem exists_decodeWord_iff_validWord {c : Word} :
    (∃ i, decodeWord c = .ok i) ↔ validWord c = true where
  mp := by
    rintro ⟨i, h⟩
    exact encodeWord_of_decodeWord h ▸ (encodeValid i).1
  mpr h := exists_decodeWord_iff_mem_commandWords.mpr (mem_commandWords_of_validWord h)

/-- Settles O3: a word decodes exactly when it is some command's encoding. -/
theorem decodableWordsAreExactlyTheValidOnes : Obligations.DecodableWordsAreExactlyTheValidOnes := by
  intro c
  refine ⟨exists_decodeWord_iff_validWord.trans validWord_iff,
    exists_decodeWord_iff_mem_commandWords, ?_⟩
  cases decodeWord c with
  | ok i => exact .inl ⟨i, rfl⟩
  | error why => exact .inr ⟨why, rfl⟩

/-! ### The opcode map (30_encoding.md R121) -/

theorem opcode_lt_reserved (i : Instr) : i.opcode.toNat < 0x0A := by
  cases i <;> simp [Instr.opcode]

/-- Settles O1: each word is its command's encoding, and no command has a reserved opcode. -/
theorem opcodeMapDecodesEachWord : Obligations.OpcodeMapDecodesEachWord := by
  refine ⟨decodeWord_encodeWord .nop, decodeWord_encodeWord .clear,
    decodeWord_encodeWord (.bitx false .msb), decodeWord_encodeWord (.bitx true .msb),
    decodeWord_encodeWord (.bitx false .lsb), decodeWord_encodeWord (.bitx true .lsb),
    decodeWord_encodeWord .brev, decodeWord_encodeWord .dword, decodeWord_encodeWord .dindex,
    decodeWord_encodeWord .encode, decodeWord_encodeWord .decode, decodeWord_encodeWord .decidx,
    decodeWord_encodeWord .romchk, fun c i hop h => ?_⟩
  obtain ⟨-, -, -, hbyte⟩ := fields_of_decodeWord h
  exact (opcode_lt_reserved i).not_ge (hbyte ▸ hop)

end Sys2Proof

namespace Sys2Proof.Machine

/-! ### A valid ROM (40_dictionary.md R151) -/

theorem slotValid_iff {slot : Slot} :
    slotValid slot = true ↔
      slot.toList = slotOf (wordOf slot.toList) ∧ 1 ≤ (wordOf slot.toList).length := by
  simp only [slotValid, Bool.and_eq_true, decide_eq_true_eq, Bool.not_eq_true',
    List.isEmpty_eq_false_iff, ← List.length_pos_iff, Nat.succ_le_iff]

/-- `romValid`, index by index. -/
theorem romValid_iff {rom : Rom} :
    romValid rom = true ↔
      (∀ (i : Nat) (h : i < 2048),
          rom[i].toList = slotOf (wordOf rom[i].toList) ∧ 1 ≤ (wordOf rom[i].toList).length)
        ∧ ∀ (i : Nat) (h : i + 1 < 2048),
            strLt (wordOf rom[i].toList) (wordOf rom[i + 1].toList) = true := by
  rw [romValid, Bool.and_eq_true, strictlyAscending_iff]
  simp only [List.all_eq_true, List.forall_mem_iff_getElem, slotValid_iff, List.length_map,
    Vector.length_toList, Vector.getElem_toList, List.getElem_map]

section
variable {rom : Rom} (hv : romValid rom = true)
include hv

/-- Any two slots in order, not only neighbours. -/
theorem strLt_of_romValid {i j : Nat} (hj : j < 2048) (hij : i < j) :
    strLt (wordOf rom[i].toList) (wordOf rom[j].toList) = true := by
  have hasc := (Bool.and_eq_true_iff.mp hv).2
  have hlen : j < (rom.toList.map fun slot => wordOf slot.toList).length := by simpa using hj
  simpa using strLt_of_strictlyAscending hasc i j hlen hij

/-- No word occurs twice: the earlier of two slots would come strictly before itself. -/
theorem eq_of_wordOf_eq {i j : Nat} (hi : i < 2048) (hj : j < 2048)
    (h : wordOf rom[i].toList = wordOf rom[j].toList) : i = j := by
  rcases Nat.lt_trichotomy i j with hij | hij | hji
  · simpa [h, strLt_irrefl] using strLt_of_romValid hv hj hij
  · exact hij
  · simpa [h, strLt_irrefl] using strLt_of_romValid hv hi hji

/-- The first match is the only one (40_dictionary.md R155). -/
theorem romLookup_eq_some_iff {w : List Byte} {i : Nat} :
    romLookup rom w = some i ↔ ∃ h : i < 2048, wordOf (rom[i]'h).toList = w := by
  rw [romLookup_some]
  constructor
  · rintro ⟨hi, hw, -⟩
    exact ⟨hi, hw⟩
  · rintro ⟨hi, hw⟩
    exact ⟨hi, hw, fun j hj hjw => hj.ne (eq_of_wordOf_eq hv _ hi (hjw.trans hw.symm))⟩

end

/-- Settles O17: `romValid` is stated slot by slot, and strictly ascending words are distinct. -/
theorem romValidityIsTheStatedPredicate : Obligations.RomValidityIsTheStatedPredicate :=
  fun _ => ⟨romValid_iff, fun hv _ _ hi hj => eq_of_wordOf_eq hv hi hj⟩

/-- Settles O19: distinct words make the first match the only one. -/
theorem lookupIsTheUniqueMatch : Obligations.LookupIsTheUniqueMatch :=
  fun _ hv _ => ⟨fun _ => romLookup_eq_some_iff hv, romLookup_none,
    fun _ _ hi hj hiw hjw => eq_of_wordOf_eq hv hi hj (hiw.trans hjw.symm)⟩

/-! ### A slot delivered to WOUT (40_dictionary.md R154, R156) -/

theorem State.read_deliverWord_wout (s : State) {i j : Nat} (hi : i < 2048) (hj : j < 8) :
    (s.deliverWord i).buf.read (0x058 + j) = s.rom[i][j] := by
  rw [State.deliverWord_buf, Memory.read_writeBytes, romSlot_eq _ _ hi,
    if_pos (by simp [Config.woutBase]; omega)]
  simp [Config.woutBase, List.getD_eq_getElem?_getD, hj]

theorem State.read_deliverWord_outside (s : State) (i : Nat) {a : Nat} (ha : a < 0x058 ∨ 0x060 ≤ a) :
    (s.deliverWord i).buf.read a = s.buf.read a :=
  Memory.read_writeBytes_outside (by simpa [Config.woutBase] using ha)

/-- The whole state after a delivery that completes. -/
theorem State.complete_deliverWord (s : State) (i : Nat) :
    (s.deliverWord i).complete .none = { s with
      buf := (s.deliverWord i).buf, result0 := BitVec.ofNat 32 i, errCode := .none, done := true,
      hashReq := false, phase := .idle } := rfl

/-! ### The branches of DWORD and DINDEX (40_dictionary.md R154, R156) -/

section
variable {s : State}

theorem exec_dword_romInvalid (h : s.romOk = false) :
    exec .dword s = .next (s.complete .romInvalid) := by
  simp [exec, execDword, h]

theorem exec_dword_outOfRange (h : s.romOk = true) (hi : 2048 ≤ s.argl0.toNat) :
    exec .dword s = .next (s.complete .outOfRange) := by
  simp [exec, execDword, h, hi]

theorem exec_dword_delivers (h : s.romOk = true) (hi : s.argl0.toNat < 2048) :
    exec .dword s = .next ((s.deliverWord s.argl0.toNat).complete .none) := by
  simp [exec, execDword, h, hi]

theorem exec_dindex_romInvalid (h : s.romOk = false) :
    exec .dindex s = .next (s.complete .romInvalid) := by
  simp [exec, execDindex, h]

theorem exec_dindex_notFound (h : s.romOk = true) (hw : romLookup s.rom s.winWord = none) :
    exec .dindex s = .next (s.complete .notFound) := by
  simp [exec, execDindex, h, hw]

theorem exec_dindex_delivers {i : Nat} (h : s.romOk = true)
    (hw : romLookup s.rom s.winWord = some i) :
    exec .dindex s = .next ((s.deliverWord i).complete .none) := by
  simp [exec, execDindex, h, hw]

end

/-- Settles O22: the branches of DWORD; RESULT0 is INDEX itself, a 32-bit number. -/
theorem dwordDeliversTheSlot : Obligations.DwordDeliversTheSlot := by
  refine ⟨decodeWord_encodeWord .dword, fun s => ⟨exec_dword_romInvalid, exec_dword_outOfRange,
    fun hok hi => ⟨(s.deliverWord s.argl0.toNat).buf, ?_,
      fun j hj => s.read_deliverWord_wout hi hj, fun a ha => s.read_deliverWord_outside _ ha⟩⟩⟩
  rw [exec_dword_delivers hok hi, State.complete_deliverWord, BitVec.ofNat_toNat, BitVec.setWidth_eq]

/-- Settles O23: the branches of DINDEX; a slot that `lookup` finds lies in the ROM. -/
theorem dindexFindsTheWord : Obligations.DindexFindsTheWord := by
  refine ⟨decodeWord_encodeWord .dindex, fun s => ⟨exec_dindex_romInvalid, exec_dindex_notFound,
    fun i hok hw => ?_⟩⟩
  obtain ⟨hi, -, -⟩ := romLookup_some.mp hw
  exact ⟨hi, (s.deliverWord i).buf, exec_dindex_delivers hok hw,
    fun j hj => s.read_deliverWord_wout hi hj, fun a ha => s.read_deliverWord_outside i ha⟩

/-! ### The dictionary laws (40_dictionary.md R157) -/

/-- Eight bytes that agree with a slot are the slot. -/
theorem Memory.readBytes_eq_slot {m : Memory} {a : Nat} {slot : Slot}
    (h : ∀ (j : Nat) (hj : j < 8), m.read (a + j) = slot[j]) : m.readBytes a 8 = slot.toList := by
  apply List.ext_getElem (by simp)
  intro j h1 h2
  simpa [Memory.getElem_readBytes] using h j (by simpa using h2)

/-- Settles O24: WIN holds the slot that DWORD delivered, whose word no other slot of a valid ROM
holds; the second law is the branch of DINDEX that finds the word. -/
theorem dictionaryRoundTrips : Obligations.DictionaryRoundTrips := by
  constructor
  · intro s t u hv hok hi ht hrom huok hcopy
    rw [exec_dword_delivers hok hi] at ht
    cases ht
    have hwin : u.buf.readBytes Config.winBase 8 = s.rom[s.argl0.toNat].toList :=
      Memory.readBytes_eq_slot fun j hj => (hcopy j hj).trans (s.read_deliverWord_wout hi hj)
    have hfound : romLookup u.rom u.winWord = some s.argl0.toNat := by
      rw [hrom, romLookup_eq_some_iff hv]
      exact ⟨hi, congrArg wordOf hwin.symm⟩
    exact ⟨_, exec_dindex_delivers huok hfound, rfl, by simp⟩
  · intro s i _ hok hw
    obtain ⟨hi, hword, -⟩ := romLookup_some.mp hw
    exact ⟨hi, _, exec_dindex_delivers hok hw, fun j hj => s.read_deliverWord_wout hi hj, hword⟩

/-! ### The ROM checks (40_dictionary.md R152, R158) -/

theorem fsmStep_check {s : State} (hp : s.phase = .check) : fsmStep s = .next (finishRomCheck s) := by
  simp [fsmStep, hp]

/-- A write to CMD is dropped while the block is busy (45_control.md R252). -/
theorem step_dropWrite {s : State} {c : Word} {rest : List Event} (hp : s.phase ≠ .idle)
    (hag : s.agenda = .host (.write 0x010#10 c) :: rest) :
    step s = .next { s with cmdOvr := true, agenda := rest, reply := some ⟨.okay, none⟩ } := by
  rw [step_writeRegister (r := .cmd) hag rfl, State.writeRegister, State.writeCmd, if_pos]
  · rfl
  · simp [State.busy_eq, hp]

/-- Settles O20: in CHECK the FSM's turn is `finishRomCheck`, and a write to CMD is dropped. That the
check is one FSM step is the model's count (log 2). -/
theorem romCheckEndsInIdle : Obligations.RomCheckEndsInIdle := by
  intro s hp
  refine ⟨fun hag => ?_, fun rest hag => ?_, fun rest hag => step_cons hag,
    fun c rest hag => step_dropWrite (by simp [hp]) hag⟩
  · rw [step_nil hag, fsmStep_check hp]
    rfl
  · rw [step_cons hag]
    exact fsmStep_check hp

/-- Settles O21: ROMCHK records the check and completes with its verdict. -/
theorem romchkRecordsValidity : Obligations.RomchkRecordsValidity :=
  ⟨decodeWord_encodeWord .romchk, fun _ => rfl⟩

end Sys2Proof.Machine

namespace Sys2Proof.Machine

/-! ### CLEAR (41_bitpacker.md R176) -/

section
variable {s : State}

theorem exec_clear_zeroes (h : s.argl0.toNat + s.argl1.toNat ≤ 512) :
    exec .clear s = .next
      ({ s with buf := s.buf.writeBytes s.op0 (List.replicate s.op1 0#8) }.complete .none) :=
  congrArg Host.Outcome.next (if_pos (byteRangeOk_iff.2 h))

theorem exec_clear_badArgument (h : 512 < s.argl0.toNat + s.argl1.toNat) :
    exec .clear s = .next (s.complete .badArgument) :=
  congrArg Host.Outcome.next (if_neg fun hok => h.not_ge (byteRangeOk_iff.1 hok))

end

theorem Memory.read_writeBytes_zeros (m : Memory) (b n a : Nat) :
    (m.writeBytes b (List.replicate n 0#8)).read a =
      if b ≤ a ∧ a < b + n then 0#8 else m.read a := by
  rw [Memory.read_writeBytes, List.length_replicate, getD_replicate_zero]

/-- Settles O12: the two branches of CLEAR, and what a written range of zeros reads as. -/
theorem clearZeroesItsRange : Obligations.ClearZeroesItsRange :=
  ⟨decodeWord_encodeWord .clear, fun s =>
    ⟨fun h => ⟨_, exec_clear_zeroes h, s.buf.read_writeBytes_zeros _ _⟩, exec_clear_badArgument⟩⟩

/-! ### BITX (41_bitpacker.md R173, R174) -/

section
variable {s : State} {rj : Bool} {ord : BitOrder}

theorem exec_bitx_copies (h : bitxOk s.op0 s.op1 s.op2 rj = true) :
    exec (.bitx rj ord) s = .next
      ({ s with buf := s.buf.bitExtract s.op2 s.buf.read s.op0 s.op1 rj ord }.complete .none) :=
  congrArg Host.Outcome.next (if_pos h)

theorem exec_bitx_badArgument (h : ¬ bitxOk s.op0 s.op1 s.op2 rj = true) :
    exec (.bitx rj ord) s = .next (s.complete .badArgument) :=
  congrArg Host.Outcome.next (if_neg h)

/-- Completing with ERRCODE 0 tells that the four checks passed and what BUF became. -/
theorem bitx_completed {t : State} (h : exec (.bitx rj ord) s = .next t) (he : t.errCode = .none) :
    s.op0 < s.op1 ∧ t.buf = s.buf.bitExtract s.op2 s.buf.read s.op0 s.op1 rj ord := by
  by_cases hok : bitxOk s.op0 s.op1 s.op2 rj = true
  · rw [exec_bitx_copies hok] at h
    cases h
    exact ⟨(bitxOk_iff.1 hok).1, rfl⟩
  · rw [exec_bitx_badArgument hok] at h
    cases h
    cases he

end

/-- BITX's words: RJ is bit 8 and ORD is bit 9, LSB where it is 1 (30_encoding.md R120). -/
theorem encodeWord_bitx (rj lsb : Bool) :
    encodeWord (.bitx rj (if lsb then .lsb else .msb))
      = 0x00000002#32 ||| (BitVec.ofBool rj).setWidth 32 <<< 8
          ||| (BitVec.ofBool lsb).setWidth 32 <<< 9 := by
  revert rj lsb
  decide

section
variable (m : Memory) (A : Nat → Byte) (lo hi dst : Nat) (rj : Bool) (ord : BitOrder)

theorem Memory.bitGet_bitExtract_outside {x : Nat}
    (hx : ¬ (dst + padBits (hi - lo) rj ≤ x ∧ x < dst + padBits (hi - lo) rj + (hi - lo))) :
    bitGet (m.bitExtract dst A lo hi rj ord).read x ord = bitGet m.read x ord := by
  rw [Memory.bitGet_bitExtract, decide_eq_false hx, Bool.false_and, Bool.or_false]

theorem Memory.bitGet_bitExtract_inside {k : Nat} (hk : k < hi - lo) :
    bitGet (m.bitExtract dst A lo hi rj ord).read (dst + padBits (hi - lo) rj + k) ord
      = (bitGet m.read (dst + padBits (hi - lo) rj + k) ord || bitGet A (lo + k) ord) := by
  rw [Memory.bitGet_bitExtract, decide_eq_true ⟨Nat.le_add_right _ _, Nat.add_lt_add_left hk _⟩,
    Bool.true_and, Nat.add_sub_cancel_left]

/-- The bytes outside the destination span keep all their bits. -/
theorem Memory.read_bitExtract_outside {a : Nat}
    (ha : a < (dst + padBits (hi - lo) rj) / 8
      ∨ (dst + padBits (hi - lo) rj + (hi - lo) - 1) / 8 < a) :
    (m.bitExtract dst A lo hi rj ord).read a = m.read a :=
  byte_eq_of_bitGet (ord := ord) fun x hx =>
    m.bitGet_bitExtract_outside A lo hi dst rj ord (by omega)

end

/-- Settles O15: the two branches of BITX, with what `BitExtract` does to every bit of BUF and to the
bytes outside its destination. -/
theorem bitxOrsTheSpanOrRefuses : Obligations.BitxOrsTheSpanOrRefuses := by
  refine ⟨fun rj lsb => encodeWord_bitx rj lsb ▸ decodeWord_encodeWord _, ?_⟩
  rintro rj ord s lo hi dst n c p rfl rfl rfl rfl rfl rfl
  refine ⟨fun hok => ⟨_, exec_bitx_copies (bitxOk_iff.2 hok),
      s.buf.bitGet_bitExtract _ _ _ _ rj ord,
      fun a ha => s.buf.read_bitExtract_outside _ _ _ _ rj ord ha⟩,
    fun hbad => exec_bitx_badArgument fun hok => ?_⟩
  obtain ⟨hlt, hhi, hdst, hdisjoint⟩ := bitxOk_iff.1 hok
  rcases hbad with h | h | h | h
  · exact hlt.not_ge h
  · exact hhi.not_gt h
  · exact hdst.not_gt h
  · exact h hdisjoint

/-! ### The value of a span of bits (41_bitpacker.md R175) -/

/-- The number whose binary digits are the `n` bits from bit address `a` on, the first the most
significant: V of 41_bitpacker.md R175. -/
def spanValue (A : Nat → Byte) (a n : Nat) (ord : BitOrder) : Nat :=
  ((List.range n).map fun k => (bitGet A (a + k) ord).toNat * 2 ^ (n - 1 - k)).sum

theorem spanValue_congr {A B : Nat → Byte} {a b n : Nat} {ord : BitOrder}
    (h : ∀ k < n, bitGet A (a + k) ord = bitGet B (b + k) ord) :
    spanValue A a n ord = spanValue B b n ord :=
  congrArg List.sum (List.map_congr_left fun k hk => by rw [h k (List.mem_range.1 hk)])

theorem spanValue_eq_zero {A : Nat → Byte} {a n : Nat} {ord : BitOrder}
    (h : ∀ k < n, bitGet A (a + k) ord = false) : spanValue A a n ord = 0 := by
  rw [spanValue, List.sum_eq_zero_iff]
  simp +contextual [h]

/-- A span that is cut in two: the first part carries the higher weights. -/
theorem spanValue_add (A : Nat → Byte) (a m n : Nat) (ord : BitOrder) :
    spanValue A a (m + n) ord = spanValue A a m ord * 2 ^ n + spanValue A (a + m) n ord := by
  simp only [spanValue, List.range_add, List.map_append, List.sum_append, List.map_map,
    ← List.sum_map_mul_right]
  congr 2 <;> refine List.map_congr_left fun k hk => ?_
  · have hk := List.mem_range.1 hk
    rw [Nat.mul_assoc, ← Nat.pow_add, show m - 1 - k + n = m + n - 1 - k by omega]
  · rw [Function.comp_apply, Nat.add_assoc, show m + n - 1 - (m + k) = n - 1 - k by omega]

/-- A byte is its own eight bits read MSB first. -/
theorem spanValue_byte (A : Nat → Byte) {a : Nat} (ha : a % 8 = 0) :
    spanValue A a 8 .msb = (A (a / 8)).toNat := by
  rw [toNat_byte]
  refine congrArg List.sum (List.map_congr_left fun k hk => ?_)
  have hk := List.mem_range.1 hk
  simp only [bitGet, wpos, show (a + k) / 8 = a / 8 by omega, show (a + k) % 8 = k by omega]

/-- Two neighbouring bytes read MSB first are a big-endian number. -/
theorem spanValue_two_bytes (A : Nat → Byte) {a : Nat} (ha : a % 8 = 0) :
    spanValue A a 16 .msb = (A (a / 8)).toNat * 256 + (A (a / 8 + 1)).toNat := by
  rw [← show (a + 8) / 8 = a / 8 + 1 by omega, ← spanValue_byte A ha,
    ← spanValue_byte A (a := a + 8) (by omega)]
  exact spanValue_add A a 8 8 .msb

theorem bitGet_eq_false_of_byte {A : Nat → Byte} {x : Nat} {ord : BitOrder} (h : A (x / 8) = 0#8) :
    bitGet A x ord = false := by
  simp [bitGet, h]

section
variable {m : Memory} {A : Nat → Byte} {lo hi dst : Nat}

/-- `BitExtract` into a zero container leaves there the value of the source span: the padding on the
left weighs nothing. -/
theorem Memory.spanValue_bitExtract {rj : Bool} {ord : BitOrder}
    (hzero : ∀ k < containerBits (hi - lo) rj, bitGet m.read (dst + k) ord = false) :
    spanValue (m.bitExtract dst A lo hi rj ord).read dst (containerBits (hi - lo) rj) ord
      = spanValue A lo (hi - lo) ord := by
  rw [← padBits_add] at hzero ⊢
  have hpad : spanValue (m.bitExtract dst A lo hi rj ord).read dst (padBits (hi - lo) rj) ord = 0 :=
    spanValue_eq_zero fun k hk => by
      rw [Memory.bitGet_bitExtract_outside _ _ _ _ _ _ _ (by omega), hzero k (by omega)]
  rw [spanValue_add, hpad, Nat.zero_mul, Nat.zero_add]
  refine spanValue_congr fun k hk => ?_
  rw [Memory.bitGet_bitExtract_inside _ _ _ _ _ _ _ hk, Nat.add_assoc, hzero _ (by omega),
    Bool.false_or]

theorem Memory.toNat_bitExtract_byte (hal : dst % 8 = 0) (hlt : lo < hi) (hn : hi - lo ≤ 8)
    (hz : m.read (dst / 8) = 0#8) :
    ((m.bitExtract dst A lo hi true .msb).read (dst / 8)).toNat = spanValue A lo (hi - lo) .msb := by
  have hc : containerBits (hi - lo) true = 8 := by
    simp only [containerBits, if_true]
    omega
  rw [← spanValue_byte _ hal, ← hc]
  refine Memory.spanValue_bitExtract fun k hk => bitGet_eq_false_of_byte ?_
  rwa [show (dst + k) / 8 = dst / 8 by omega]

theorem Memory.toNat_bitExtract_two_bytes (hal : dst % 8 = 0) (hn8 : 8 < hi - lo)
    (hn16 : hi - lo ≤ 16) (hz : m.read (dst / 8) = 0#8) (hz' : m.read (dst / 8 + 1) = 0#8) :
    ((m.bitExtract dst A lo hi true .msb).read (dst / 8)).toNat * 256
        + ((m.bitExtract dst A lo hi true .msb).read (dst / 8 + 1)).toNat
      = spanValue A lo (hi - lo) .msb := by
  have hc : containerBits (hi - lo) true = 16 := by
    simp only [containerBits, if_true]
    omega
  rw [← spanValue_two_bytes _ hal, ← hc]
  refine Memory.spanValue_bitExtract fun k hk => bitGet_eq_false_of_byte ?_
  obtain h | h : (dst + k) / 8 = dst / 8 ∨ (dst + k) / 8 = dst / 8 + 1 := by omega
  · rwa [h]
  · rwa [h]

end

/-- Settles O16: the first two laws are what `BitExtract` does to every bit; the third is the value it
leaves in a zero container of one or of two bytes. -/
theorem completedBitxObeysItsLaws : Obligations.CompletedBitxObeysItsLaws := by
  rintro rj ord s t lo dst n p v hexec herr rfl rfl rfl rfl rfl
  obtain ⟨hlt, hbuf⟩ := bitx_completed hexec herr
  rw [hbuf]
  refine ⟨fun x hx => s.buf.bitGet_bitExtract_outside _ _ _ _ rj ord hx,
    fun k hk => s.buf.bitGet_bitExtract_inside _ _ _ _ rj ord hk, ?_, ?_⟩
  · rintro rfl rfl hal hn hz
    exact Memory.toNat_bitExtract_byte hal hlt hn hz
  · rintro rfl rfl hal hn8 hn16 hz hz'
    exact Memory.toNat_bitExtract_two_bytes hal hn8 hn16 hz hz'

end Sys2Proof.Machine

namespace Sys2Proof.Machine

/-! ### The byte reversal (42_bitorder.md R190) -/

/-- `rev4` of 42_bitorder.md R190, as its table of the 16 nibbles. -/
def rev4 (x : Nat) : Nat :=
  [0x0, 0x8, 0x4, 0xC, 0x2, 0xA, 0x6, 0xE, 0x1, 0x9, 0x5, 0xD, 0x3, 0xB, 0x7, 0xF].getD x 0

/-- The nibbles change places and each of them is reversed. -/
theorem toNat_rev8 (v : Byte) :
    (rev8 v).toNat = 16 * rev4 (v.toNat % 16) + rev4 (v.toNat / 16) := by
  revert v
  decide

/-- Settles O13: bit `j` and bit `7 - j` change places, which twice changes nothing. -/
theorem byteReversalIsAnInvolution : Obligations.ByteReversalIsAnInvolution :=
  fun v => ⟨getLsbD_rev8 v, toNat_rev8 v, rev8_rev8 v⟩

/-! ### The group fixups (42_bitorder.md R192) -/

/-- Two bytes in a row are a big-endian number. -/
theorem toNat_append_byte (x y : Byte) : (x ++ y : BitVec 16).toNat = x.toNat * 256 + y.toNat := by
  rw [BitVec.toNat_append, ← Nat.shiftLeft_add_eq_or_of_lt y.isLt, Nat.shiftLeft_eq]

theorem fixGroup_eq (g0 g1 : Byte) :
    fixGroup g0 g1 = ((rev8 g0).toNat * 256 + (rev8 g1).toNat) % 2048 := by
  rw [fixGroup, BitVec.toNat_and, toNat_append_byte]
  exact Nat.and_two_pow_sub_one_eq_mod _ 11

theorem unfixGroup_getElem_zero (v : Nat) :
    (unfixGroup v)[0] = rev8 (BitVec.ofNat 8 (v / 256)) := rfl

theorem unfixGroup_getElem_one (v : Nat) :
    (unfixGroup v)[1] = rev8 (BitVec.ofNat 8 (v % 256)) := rfl

/-- The two reversals of each byte cancel and leave the big-endian bytes of the index. -/
theorem fixGroup_unfixGroup {v : Nat} (hv : v < 2048) :
    fixGroup (unfixGroup v)[0] (unfixGroup v)[1] = v := by
  rw [fixGroup_eq, unfixGroup_getElem_zero, unfixGroup_getElem_one, rev8_rev8, rev8_rev8,
    BitVec.toNat_ofNat, BitVec.toNat_ofNat]
  omega

/-- Settles O27: `fix` reads the big-endian value of the reversed bytes, which `unfix` wrote. -/
theorem groupFixupsAreInverse : Obligations.GroupFixupsAreInverse :=
  ⟨fixGroup_eq, fun v hv =>
    ⟨unfixGroup_getElem_zero v, unfixGroup_getElem_one v, fixGroup_unfixGroup hv⟩⟩

/-! ### BREV (42_bitorder.md R191) -/

/-- BUF with each byte of a range reversed: what BREV writes. -/
def Memory.reverseRange (m : Memory) (b n : Nat) : Memory :=
  m.writeBytes b ((m.readBytes b n).map rev8)

theorem Memory.read_reverseRange (m : Memory) (b n a : Nat) :
    (m.reverseRange b n).read a = if b ≤ a ∧ a < b + n then rev8 (m.read a) else m.read a := by
  rw [Memory.reverseRange, Memory.read_writeBytes, List.length_map, Memory.length_readBytes]
  split_ifs with h
  · rw [getD_map_readBytes _ _ _ _ (by omega), Nat.add_sub_cancel' h.1]
  · rfl

/-- A byte of the range is reversed twice, any other byte never. -/
theorem Memory.read_reverseRange_twice (m : Memory) (b n a : Nat) :
    ((m.reverseRange b n).reverseRange b n).read a = m.read a := by
  rw [Memory.read_reverseRange, Memory.read_reverseRange]
  split_ifs
  · exact rev8_rev8 _
  · rfl

section
variable {s : State}

theorem exec_brev_reverses (h : s.argl0.toNat + s.argl1.toNat ≤ 512) :
    exec .brev s = .next ({ s with buf := s.buf.reverseRange s.op0 s.op1 }.complete .none) :=
  congrArg Host.Outcome.next (if_pos (byteRangeOk_iff.2 h))

theorem exec_brev_badArgument (h : 512 < s.argl0.toNat + s.argl1.toNat) :
    exec .brev s = .next (s.complete .badArgument) :=
  congrArg Host.Outcome.next (if_neg fun hok => h.not_ge (byteRangeOk_iff.1 hok))

end

/-- Settles O14: the two branches of BREV, what a reversed range reads as, and the same of the second
BREV, whose operands are those of the first. -/
theorem brevReversesEachByte : Obligations.BrevReversesEachByte := by
  refine ⟨decodeWord_encodeWord .brev, fun s => ⟨fun h => ?_, exec_brev_badArgument⟩⟩
  exact ⟨_, exec_brev_reverses h, s.buf.read_reverseRange _ _,
    _, exec_brev_reverses h, s.buf.read_reverseRange_twice _ _⟩

end Sys2Proof.Machine

namespace Sys2Proof.Machine

/-! ### The lengths and the checksum mask (43_codec_encode.md R200, R201) -/

theorem keyLens_le {n : Nat} (h : n ∈ Config.keyLens) : n ≤ 32 := by
  revert n
  decide

/-- Settles O25: the tables are finite; the second form of `cs_len(L)` divides by 4 after cancelling 8. -/
theorem lengthTablesAreInverse : Obligations.LengthTablesAreInverse := by
  have csLen (n : Nat) : csLenOfKey n = n * 8 / 32 := by
    simp only [csLenOfKey]
    omega
  exact ⟨rfl, rfl, rfl, rfl, fun n => ⟨rfl, csLen n⟩, fun _ => ⟨rfl, rfl⟩, by decide⟩

/-- Bit `j` of the mask of `n` top bits. -/
theorem getLsbD_csMask (n j : Nat) (hj : j < 8) :
    (csMask n).getLsbD j = decide (8 - n ≤ j) := by
  have hones : (0xFF#8).getLsbD (j - (8 - n)) = true := by
    rw [show (0xFF#8) = BitVec.allOnes 8 from rfl, BitVec.getLsbD_allOnes]
    exact decide_eq_true (by omega)
  rw [csMask, BitVec.getLsbD_shiftLeft, hones, Bool.and_true, decide_eq_true hj, Bool.true_and,
    ← decide_not, decide_eq_decide, Nat.not_lt]

/-- Settles O26: the five masks, and what ANDing with a mask does to each bit. -/
theorem checksumMaskKeepsTheTopBits : Obligations.ChecksumMaskKeepsTheTopBits :=
  ⟨rfl, fun n _ d j hj => by rw [BitVec.getLsbD_and, getLsbD_csMask n j hj]⟩

/-! ### The index of a group (43_codec_encode.md R204, R206) -/

/-- A span of `n` bits is a number of at most `n` bits. -/
theorem spanValue_lt (A : Nat → Byte) (a n : Nat) (ord : BitOrder) :
    spanValue A a n ord < 2 ^ n := by
  induction n with
  | zero => simp [spanValue]
  | succ n ih =>
    have hbit : spanValue A (a + n) 1 ord < 2 := by
      simpa [spanValue] using Bool.toNat_lt (bitGet A (a + n) ord)
    rw [spanValue_add, Nat.pow_succ]
    omega

/-- The numbering lemma (42_bitorder.md R193) for spans. -/
theorem spanValue_rev8 (A : Nat → Byte) (a n : Nat) :
    spanValue (fun k => rev8 (A k)) a n .lsb = spanValue A a n .msb := by
  simp only [spanValue, bitGet_rev8]

/-- The numbering lemma for spans, read the other way. -/
theorem spanValue_rev8_msb (A : Nat → Byte) (a n : Nat) :
    spanValue (fun k => rev8 (A k)) a n .msb = spanValue A a n .lsb := by
  simp only [spanValue, bitGet_rev8_msb]

/-- The eleven stream bits of a group follow five zeros, which weigh nothing. -/
theorem spanValue_encodeGroup (ext : Vector Byte 33) (i : Nat) :
    spanValue (byteAt (encodeGroup ext i)) 0 16 .lsb
      = spanValue (byteAt ext) (11 * i) 11 .lsb := by
  have hzeros : spanValue (byteAt (encodeGroup ext i)) 0 5 .lsb = 0 :=
    spanValue_eq_zero fun k hk => by
      rw [bitGet_encodeGroup, decide_eq_false (by omega), Bool.false_and]
  have hbits : spanValue (byteAt (encodeGroup ext i)) 5 11 .lsb
      = spanValue (byteAt ext) (11 * i) 11 .lsb :=
    spanValue_congr fun k hk => by
      rw [bitGet_encodeGroup, decide_eq_true (by omega), Bool.true_and, Nat.add_sub_cancel_left]
  rw [spanValue_add _ 0 5 11, hzeros, hbits, Nat.zero_mul, Nat.zero_add]

/-- The corrected 16-bit value of a group, before `fix` masks it, is the value of its stream bits. -/
theorem toNat_rev8_encodeGroup (ext : Vector Byte 33) (i : Nat) :
    (rev8 (byteAt (encodeGroup ext i) 0)).toNat * 256 + (rev8 (byteAt (encodeGroup ext i) 1)).toNat
      = spanValue (byteAt ext) (11 * i) 11 .lsb := by
  rw [← spanValue_encodeGroup, ← spanValue_rev8_msb, spanValue_two_bytes _ (Nat.zero_mod 8)]

/-- An eleven-bit value passes the mask of `fix` unchanged. -/
theorem encodeIndex_eq (ext : Vector Byte 33) (i : Nat) :
    encodeIndex ext i = spanValue (byteAt ext) (11 * i) 11 .lsb := by
  rw [encodeIndex, fixGroup_eq, toNat_rev8_encodeGroup]
  exact Nat.mod_eq_of_lt (spanValue_lt _ _ 11 _)

theorem streamIndex_eq (e : List Byte) (i : Nat) :
    streamIndex e i = spanValue (listBytes e) (11 * i) 11 .msb := rfl

theorem streamIndex_lt (e : List Byte) (i : Nat) : streamIndex e i < 2048 :=
  spanValue_lt (listBytes e) (11 * i) 11 .msb

/-- EXT holds the reversed bytes of `key ‖ d0`, so LSB-first extraction reads their MSB-first stream. -/
theorem encodeIndex_encodeExt {key : List Byte} (d0 : Byte) (i : Nat) (h : key.length ≤ 32) :
    encodeIndex (encodeExt key d0) i = streamIndex (key ++ [d0]) i := by
  rw [encodeIndex_eq, byteAt_encodeExt key d0 h, spanValue_rev8, streamIndex_eq]
  rfl

/-- Settles O28: the group of the pipeline is the group of the MSB-first stream, a number of 11 bits. -/
theorem encodeIndexIsTheStreamGroup : Obligations.EncodeIndexIsTheStreamGroup :=
  fun key d0 i hkey _ =>
    ⟨encodeIndex_encodeExt d0 i (keyLens_le hkey), streamIndex_lt (key ++ [d0]) i⟩

/-- No way a command's step can end in IDLE leaves InvalidWordIndex. -/
theorem CommandEffect.errCode_ne {s t : State} {i : Instr} (h : CommandEffect s i t)
    (hidle : t.phase = .idle) : t.errCode ≠ .invalidWordIndex := by
  cases h with
  | completes _ _ _ _ he => exact he
  | checksRom _ he => exact he
  | codecCompletes _ _ _ _ _ _ _ _ _ he => exact he
  | codecRequests => cases hidle

/-- Settles O31: ENCODE's check never fires, no other command raises the error, and the value of a
group is one of 11 bits before `fix` masks it. -/
theorem invalidWordIndexIsNeverRaised : Obligations.InvalidWordIndexIsNeverRaised := by
  refine ⟨fun i s t h => (exec_effect h).errCode_ne, fun ext i => ⟨fixGroup_lt _ _, ?_⟩⟩
  rw [toNat_rev8_encodeGroup]
  exact spanValue_lt _ _ 11 _

/-! ### ENCODE up to its hash request (43_codec_encode.md R203, 60_exceptions.md R276, R277) -/

section
variable {s : State}

theorem exec_encode_start (hp : s.point = .start) : exec .encode s = .next (encodeStart s) := by
  simp only [exec, execEncode, hp]

theorem encodeStart_romInvalid (h : s.romOk = false) : encodeStart s = s.complete .romInvalid :=
  if_pos h

theorem encodeStart_invalidKeyLength (h : s.romOk = true) (hlen : s.op0 ∉ Config.keyLens) :
    encodeStart s = s.complete .invalidKeyLength := by
  rw [encodeStart, if_neg (by simp [h]), if_neg hlen]

theorem encodeStart_requests (h : s.romOk = true) (hlen : s.op0 ∈ Config.keyLens) :
    encodeStart s = s.hashRequest (s.keyBytes s.op0) := by
  rw [encodeStart, if_neg (by simp [h]), if_pos hlen]

end

section
variable (s : State) {m : List Byte} (hm : m.length ≤ 32)
include hm

theorem State.toNat_hashRequest_hashLen : (s.hashRequest m).hashLen.toNat = m.length := by
  rw [State.hashRequest_hashLen, BitVec.toNat_ofNat, Nat.mod_eq_of_lt (by omega)]

/-- The port's bytes are the message and zeros after it. -/
theorem State.hashRequest_hashMsg_byte (j : Nat) :
    (s.hashRequest m).hashMsg.extractLsb' (8 * j) 8 = m.getD j 0#8 :=
  natOfBytes_port_byte hm j

theorem State.portMessage_hashRequest : (s.hashRequest m).portMessage = m := by
  rw [State.portMessage, s.toNat_hashRequest_hashLen hm]
  refine List.ext_getElem (by simp) fun j h1 h2 => ?_
  rw [List.getElem_map, List.getElem_range, s.hashRequest_hashMsg_byte hm, List.getD_eq_getElem _ _ h2]

end

/-- Settles O29: the three branches of the first half of ENCODE, and what the port carries for a message
of at most 32 bytes. -/
theorem encodeChecksThenRequestsTheHash : Obligations.EncodeChecksThenRequestsTheHash := by
  refine ⟨decodeWord_encodeWord .encode, fun s hp => ?_⟩
  rw [exec_encode_start hp]
  refine ⟨fun hrom => by rw [encodeStart_romInvalid hrom]; rfl,
    fun hrom hlen => by rw [encodeStart_invalidKeyLength hrom hlen]; rfl, fun hrom hlen => ?_⟩
  have hkey : (s.keyBytes s.op0).length = s.op0 := Memory.length_readBytes _ _ _
  have hle : (s.keyBytes s.op0).length ≤ 32 := hkey.trans_le (keyLens_le hlen)
  refine ⟨_, congrArg _ (encodeStart_requests hrom hlen), rfl,
    (s.toNat_hashRequest_hashLen hle).trans hkey,
    (s.portMessage_hashRequest hle).trans (keyBytes_eq s _), fun j hj => ?_⟩
  rw [s.hashRequest_hashMsg_byte hle]
  exact List.getD_eq_default _ _ (hkey.trans_le hj)

/-! ### ENCODE from the acknowledge on (43_codec_encode.md R203, R205, R208) -/

section
variable {rom : Rom} {b : Memory} {idx : List Nat}

theorem read_encodeOutputs_outside {a : Nat}
    (ha : a < 0x020 ∨ (0x050 ≤ a ∧ a < 0x100) ∨ 0x1C0 ≤ a) :
    (encodeOutputs rom b idx).read a = b.read a := by
  rw [encodeOutputs, Memory.read_writeBytes_outside (by simp [Config.wordsBase]; omega),
    Memory.read_writeBytes_outside (by simp [Config.idxBase]; omega)]

theorem read_encodeOutputs_idx {i j : Nat} (hi : i < 24) (hj : j < 2) :
    (encodeOutputs rom b idx).read (0x020 + 2 * i + j)
      = ((idx[i]?.map le16Bytes).getD [0#8, 0#8]).getD j 0#8 := by
  rw [encodeOutputs, Memory.read_writeBytes_outside (by simp [Config.wordsBase]; omega),
    Memory.read_writeBytes, length_idxRegion, if_pos (by simp [Config.idxBase]; omega),
    show 0x020 + 2 * i + j - Config.idxBase = 2 * i + j by simp [Config.idxBase]; omega,
    getD_idxRegion idx hi hj]

theorem read_encodeOutputs_words {i j : Nat} (hi : i < 24) (hj : j < 8) :
    (encodeOutputs rom b idx).read (0x100 + 8 * i + j)
      = ((idx[i]?.map fun v => (romSlot rom v).toList).getD (List.replicate 8 0#8)).getD j 0#8 := by
  rw [encodeOutputs, Memory.read_writeBytes, length_wordsRegion,
    if_pos (by simp [Config.wordsBase]; omega),
    show 0x100 + 8 * i + j - Config.wordsBase = 8 * i + j by simp [Config.wordsBase]; omega,
    getD_wordsRegion rom idx hi hj]

/-- IDX entry `i` is index `i`, and 0 where there is none. -/
theorem le16_encodeOutputs (hidx : ∀ v ∈ idx, v < 2048) {i : Nat} (hi : i < 24) :
    (encodeOutputs rom b idx).le16 (0x020 + 2 * i) = idx.getD i 0 := by
  have h0 := read_encodeOutputs_idx (rom := rom) (b := b) (idx := idx) hi (j := 0) (by decide)
  have h1 := read_encodeOutputs_idx (rom := rom) (b := b) (idx := idx) hi (j := 1) (by decide)
  rw [List.getD_eq_getElem?_getD]
  cases hv : idx[i]? with
  | none =>
    rw [hv] at h0 h1
    exact Memory.le16_eq (by decide) h0 h1
  | some v =>
    rw [hv] at h0 h1
    exact Memory.le16_eq ((hidx v (List.mem_of_getElem? hv)).trans (by decide)) h0 h1

end

theorem State.encodeIdx_lt (s : State) : ∀ v ∈ s.encodeIdx, v < 2048 :=
  List.forall_mem_map.2 fun _ _ => fixGroup_lt _ _

/-- The bytes whose MSB-first stream ENCODE cuts into groups, `key ‖ d0` (43_codec_encode.md R204). -/
def State.encodeStream (s : State) : List Byte :=
  (List.range s.argl0.toNat).map s.buf.read ++ [s.d0l]

section
variable {s : State} (hlen : s.argl0.toNat ∈ [16, 20, 24, 28, 32])
include hlen

/-- The indices ENCODE writes are the groups of the stream. -/
theorem State.encodeIdx_eq :
    s.encodeIdx = (List.range (nrWords s.op0)).map (streamIndex s.encodeStream) := by
  have hle : (s.keyBytes s.op0).length ≤ 32 := by simpa using keyLens_le hlen
  refine List.map_congr_left fun i _ => ?_
  rw [encodeIndex_encodeExt _ _ hle, keyBytes_eq]
  rfl

theorem State.getElem?_encodeIdx (i : Nat) :
    s.encodeIdx[i]? = if i < nrWords s.op0 then some (streamIndex s.encodeStream i) else none := by
  rw [State.encodeIdx_eq hlen, List.getElem?_map]
  split_ifs with hi
  · rw [List.getElem?_range hi]
    rfl
  · rw [List.getElem?_eq_none (by simpa using hi)]
    rfl

theorem State.getD_encodeIdx (i : Nat) :
    s.encodeIdx.getD i 0 = if i < nrWords s.op0 then streamIndex s.encodeStream i else 0 := by
  rw [List.getD_eq_getElem?_getD, State.getElem?_encodeIdx hlen]
  split_ifs <;> rfl

theorem State.getD_encodeIdx_lt (i : Nat) : s.encodeIdx.getD i 0 < 2048 := by
  rw [State.getD_encodeIdx hlen]
  split_ifs
  · exact streamIndex_lt _ _
  · decide

/-- Byte `j` of WORDS slot `i` is that of the index's ROM slot, and 0 where there is no index. -/
theorem State.read_encodeOutputs_encodeIdx {i j : Nat} (hi : i < 24) (hj : j < 8) :
    (encodeOutputs s.rom s.buf s.encodeIdx).read (0x100 + 8 * i + j)
      = if i < nrWords s.op0 then
          (romSlot s.rom (streamIndex s.encodeStream i)).toList.getD j 0#8
        else 0#8 := by
  rw [read_encodeOutputs_words hi hj, State.getElem?_encodeIdx hlen]
  split_ifs
  · rfl
  · exact getD_replicate_zero 8 j

end

theorem exec_encode_afterHash {s : State} (hp : s.point = .afterHash) :
    exec .encode s = .next (encodeFinish s) := by
  simp only [exec, execEncode, hp]

/-- RESULT1 without FAIL_POS and without a received checksum (10_state.md R40). -/
theorem result1Word_encode (exp : Byte) {cl : Nat} (hcl : cl < 32) :
    result1Word 0#8 exp cl 0 = BitVec.ofNat 32 (exp.toNat * 2 ^ 8 + cl * 2 ^ 16) := by
  rw [result1Word_eq 0#8 exp hcl (by decide)]
  simp

/-- Settles O30: ENCODE's indices are the groups of the stream, and each is written with its slot. -/
theorem encodeWritesTheSentence : Obligations.EncodeWritesTheSentence := by
  rintro s n cl e hp hlen rfl rfl rfl
  have hcl : s.argl0.toNat / 4 < 32 := by have := keyLens_le hlen; omega
  refine ⟨(show ∀ L ∈ Config.keyLens,
      (L, nrWords L) ∈ [(16, 12), (20, 15), (24, 18), (28, 21), (32, 24)] by decide) _ hlen,
    encodeOutputs s.rom s.buf s.encodeIdx, s.encodeWork.ext, s.encodeWork.grp, s.encodeWork.group,
    ?_, fun i hi => ?_, fun i hi j hj => ?_, fun a ha => read_encodeOutputs_outside ha⟩
  · rw [exec_encode_afterHash hp, encodeFinish_eq, ← result1Word_encode _ hcl]
    rfl
  · rw [le16_encodeOutputs s.encodeIdx_lt hi]
    exact ⟨State.getD_encodeIdx hlen i, State.getD_encodeIdx_lt hlen i⟩
  · exact State.read_encodeOutputs_encodeIdx hlen hi hj

end Sys2Proof.Machine

namespace Sys2Proof.Machine

/-! ### The lengths of a sentence (44_codec_decode.md R220) -/

/-- The key's bits and the checksum's are all the bits of the sentence. -/
theorem wordCounts_lengths {nw : Nat} (h : nw ∈ Config.wordCounts) :
    nw ≤ 24 ∧ keyLenOfWords nw ≤ 32 ∧ csLenOfWords nw ≤ 8
      ∧ 8 * keyLenOfWords nw + csLenOfWords nw = 11 * nw := by
  revert nw
  decide

/-! ### The stream of the indices (44_codec_decode.md R224) -/

theorem natBit_eq (v w : Nat) : natBit v w = (v.testBit w).toNat := (Nat.toNat_testBit v w).symm

section
variable {idx : List Nat} (hlen : idx.length ≤ 24)
include hlen

/-- The placed groups, read LSB-first, are the stream. -/
theorem indexStream_eq (n : Nat) :
    indexStream idx n = (bitGet (byteAt (placeGroups idx)) n .lsb).toNat := by
  rw [bitGet_placeGroups idx hlen, indexStream]
  split_ifs with h
  · rw [natBit_eq, decide_eq_true h, Bool.true_and]
  · rw [decide_eq_false h, Bool.false_and, Bool.toNat_false]

/-- A stream byte is the reversed byte of the placed groups: both are the number whose digits are the
same eight bits. -/
theorem streamByte_eq (k : Nat) : streamByte idx k = rev8 (byteAt (placeGroups idx) k) := by
  have hvalue : ((List.range 8).map fun b => indexStream idx (8 * k + b) * 2 ^ (7 - b)).sum
      = (rev8 (byteAt (placeGroups idx) k)).toNat := by
    calc ((List.range 8).map fun b => indexStream idx (8 * k + b) * 2 ^ (7 - b)).sum
        = spanValue (byteAt (placeGroups idx)) (8 * k) 8 .lsb := by
          simp only [indexStream_eq hlen, spanValue]
      _ = spanValue (fun j => rev8 (byteAt (placeGroups idx) j)) (8 * k) 8 .msb :=
          (spanValue_rev8_msb _ _ _).symm
      _ = (rev8 (byteAt (placeGroups idx) k)).toNat := by
          rw [spanValue_byte _ (Nat.mul_mod_right 8 k), Nat.mul_div_cancel_left k (by decide)]
  rw [streamByte, hvalue, BitVec.ofNat_toNat, BitVec.setWidth_eq]

/-- Bit `j` of a stream byte, as a bit of the index it lies in. -/
theorem getLsbD_streamByte (k : Nat) {j : Nat} (hj : j < 8) :
    (streamByte idx k).getLsbD j
      = (decide (8 * k + (7 - j) < 11 * idx.length)
          && (idx.getD ((8 * k + (7 - j)) / 11) 0).testBit (10 - (8 * k + (7 - j)) % 11)) := by
  rw [streamByte_eq hlen, getLsbD_rev8_bitGet _ k j hj, bitGet_placeGroups idx hlen]

theorem byteAt_decodeExt {nw k : Nat} (hk : k ≤ keyLenOfWords nw) :
    byteAt (decodeExt idx nw) k = streamByte idx k := by
  rw [decodeExt, byteAt_reverseFirst _ _ k (Nat.lt_succ_of_le hk), streamByte_eq hlen]

/-- The decoded key is the first bytes of the stream. -/
theorem take_decodeExt {nw : Nat} (hle : keyLenOfWords nw ≤ 32) :
    (decodeExt idx nw).toList.take (keyLenOfWords nw)
      = (List.range (keyLenOfWords nw)).map (streamByte idx) := by
  have hcount : ((decodeExt idx nw).toList.take (keyLenOfWords nw)).length
      = ((List.range (keyLenOfWords nw)).map (streamByte idx)).length := by
    rw [List.length_take, Vector.length_toList, List.length_map, List.length_range]
    omega
  refine List.ext_getElem hcount fun k _ h2 => ?_
  have hk : k < keyLenOfWords nw := by simpa using h2
  rw [List.getElem_take, List.getElem_map, List.getElem_range, ← byteAt_decodeExt hlen hk.le, byteAt,
    List.getD_eq_getElem]

end

/-- Settles O32: step 4 turns the placed groups into the stream's bytes; below its top `cs_len` bits
the last one lies past the `11 * nw` bits of the stream. -/
theorem reconstructionIsTheIndexStream : Obligations.ReconstructionIsTheIndexStream := by
  rintro idx nw hnw rfl
  obtain ⟨hlen, -, -, hbits⟩ := wordCounts_lengths hnw
  refine ⟨fun k hk => byteAt_decodeExt hlen hk, fun j hj => ?_⟩
  rw [byteAt_decodeExt hlen le_rfl, getLsbD_streamByte hlen _ (by omega), decide_eq_false (by omega),
    Bool.false_and]

/-! ### `Reconstruct` up to its hash request (44_codec_decode.md R222, 60_exceptions.md R277) -/

/-- The request of `Reconstruct`: what it leaves unchanged, EXT, and the key on the hash port. -/
theorem State.reconstructStart_requestsKey (s : State) {idx : List Nat} {nw : Nat}
    (hnw : nw ∈ Config.wordCounts) (hlen : idx.length = nw) :
    let t := s.reconstructStart idx nw
    t = { s with ext := t.ext, grp := t.grp, group := t.group, hashLen := t.hashLen,
                 hashMsg := t.hashMsg, hashReq := true, phase := .hashWait }
      ∧ (∀ k ≤ keyLenOfWords nw, byteAt t.ext k = streamByte idx k)
      ∧ t.hashLen.toNat = keyLenOfWords nw
      ∧ t.portMessage = (List.range (keyLenOfWords nw)).map (streamByte idx)
      ∧ ∀ j, keyLenOfWords nw ≤ j → t.hashMsg.extractLsb' (8 * j) 8 = 0#8 := by
  obtain ⟨hle, hkey, -, -⟩ := wordCounts_lengths hnw
  have hidx : idx.length ≤ 24 := hlen.trans_le hle
  have htake := take_decodeExt hidx hkey
  have hmlen : ((decodeExt idx nw).toList.take (keyLenOfWords nw)).length = keyLenOfWords nw := by
    simp [htake]
  have hm := hmlen.trans_le hkey
  refine ⟨rfl, fun k hk => byteAt_decodeExt hidx hk, (State.toNat_hashRequest_hashLen _ hm).trans hmlen,
    (State.portMessage_hashRequest _ hm).trans htake, fun j hj => ?_⟩
  exact (State.hashRequest_hashMsg_byte _ hm j).trans (List.getD_eq_default _ _ (hmlen.trans_le hj))

/-- `raise` with a position writes FAIL_POS and zeros to RESULT1 (60_exceptions.md R262; log 20). -/
theorem State.raiseAt_eq (s : State) (e : ErrCode) {p : Nat} (hp : p < 32) :
    s.raiseAt e p = { s with
      result1 := BitVec.ofNat 32 (p * 2 ^ 24), errCode := e, done := true, hashReq := false,
      phase := .idle } := by
  rw [State.raiseAt, result1Word_eq 0#8 0#8 (by decide) hp]
  simp [State.complete]

/-! ### DECODE up to its hash request (44_codec_decode.md R223) -/

section
variable {s : State}

theorem exec_decode_start (hp : s.point = .start) : exec .decode s = .next (decodeStart s) := by
  simp only [exec, execDecode, hp]

theorem decodeStart_romInvalid (h : s.romOk = false) : decodeStart s = s.complete .romInvalid :=
  if_pos h

theorem decodeStart_invalidWordCount (h : s.romOk = true) (hnw : s.op0 ∉ Config.wordCounts) :
    decodeStart s = s.complete .invalidWordCount := by
  rw [decodeStart, if_neg (by simp [h]), if_neg hnw]

theorem decodeStart_unknownWord (h : s.romOk = true) (hnw : s.op0 ∈ Config.wordCounts) {p : Nat}
    (hp : p < s.op0) (hfound : ∀ i < p, s.wordIndex i ≠ none) (hnone : s.wordIndex p = none) :
    decodeStart s = s.raiseAt .unknownWord p := by
  have hcollect : collect s.wordIndex 0 s.op0 = .error p := by
    simpa using collect_error s.wordIndex (i := 0) hp (by simpa using hfound) (by simpa using hnone)
  rw [decodeStart, if_neg (by simp [h]), if_pos hnw, hcollect]

theorem decodeStart_requests (h : s.romOk = true) (hnw : s.op0 ∈ Config.wordCounts) {idx : List Nat}
    (hlen : idx.length = s.op0) (hfound : ∀ (i : Nat) (h : i < idx.length), s.wordIndex i = some idx[i]) :
    decodeStart s = s.reconstructStart idx s.op0 := by
  have hcollect := collect_ok s.wordIndex idx 0 (by simpa using hfound)
  rw [decodeStart, if_neg (by simp [h]), if_pos hnw, ← hlen, hcollect]

/-! ### DECIDX up to its hash request (44_codec_decode.md R225) -/

theorem exec_decidx_start (hp : s.point = .start) : exec .decidx s = .next (decidxStart s) := by
  simp only [exec, execDecidx, hp]

theorem State.entryIndex_of_lt {i : Nat} (h : s.idxEntry i < 2048) :
    s.entryIndex i = some (s.idxEntry i) := if_pos h

theorem State.entryIndex_of_ge {i : Nat} (h : 2048 ≤ s.idxEntry i) : s.entryIndex i = none :=
  if_neg h.not_gt

theorem decidxStart_invalidWordCount (hnw : s.op0 ∉ Config.wordCounts) :
    decidxStart s = s.complete .invalidWordCount := by
  rw [decidxStart, if_neg hnw]

theorem decidxStart_outOfRange (hnw : s.op0 ∈ Config.wordCounts) {p : Nat} (hp : p < s.op0)
    (hlegal : ∀ i < p, s.idxEntry i < 2048) (hlarge : 2048 ≤ s.idxEntry p) :
    decidxStart s = s.raiseAt .outOfRange p := by
  have hcollect : collect s.entryIndex 0 s.op0 = .error p := by
    simpa using collect_error s.entryIndex (i := 0) hp
      (fun i hi => by simp [State.entryIndex_of_lt (hlegal i hi)])
      (by simpa using State.entryIndex_of_ge hlarge)
  rw [decidxStart, if_pos hnw, hcollect]

theorem decidxStart_requests (hnw : s.op0 ∈ Config.wordCounts)
    (hlegal : ∀ i < s.op0, s.idxEntry i < 2048) :
    decidxStart s = s.reconstructStart ((List.range s.op0).map s.idxEntry) s.op0 := by
  have hcollect := collect_ok s.entryIndex ((List.range s.op0).map s.idxEntry) 0 fun i hi => by
    simpa using State.entryIndex_of_lt (hlegal i (by simpa using hi))
  rw [List.length_map, List.length_range] at hcollect
  rw [decidxStart, if_pos hnw, hcollect]

end

/-- Settles O33: the four branches of the first half of DECODE; `collect` finds the lowest position
that does not resolve, or every index. -/
theorem decodeResolvesTheWords : Obligations.DecodeResolvesTheWords := by
  refine ⟨decodeWord_encodeWord .decode, ?_⟩
  rintro s nw hp rfl
  rw [exec_decode_start hp]
  refine ⟨fun hrom => by rw [decodeStart_romInvalid hrom]; rfl,
    fun hrom hnw => by rw [decodeStart_invalidWordCount hrom hnw]; rfl,
    fun p hrom hnw hlt hfound hnone => ?_, fun idx hrom hnw hlen hfound => ?_⟩
  · have hle := (wordCounts_lengths hnw).1
    rw [decodeStart_unknownWord hrom hnw hlt hfound hnone, s.raiseAt_eq _ (by omega)]
  · exact ⟨_, congrArg _ (decodeStart_requests hrom hnw hlen hfound),
      s.reconstructStart_requestsKey hnw hlen⟩

/-- Settles O34: the three branches of the first half of DECIDX, none of which reads ROM_OK. -/
theorem decidxReadsTheIndices : Obligations.DecidxReadsTheIndices := by
  refine ⟨decodeWord_encodeWord .decidx, ?_⟩
  rintro s nw hp rfl
  rw [exec_decidx_start hp]
  refine ⟨fun hnw => by rw [decidxStart_invalidWordCount hnw]; rfl,
    fun p hnw hlt hlegal hlarge => ?_, fun idx hnw hidx hlegal => ?_⟩
  · have hle := (wordCounts_lengths hnw).1
    rw [decidxStart_outOfRange hnw hlt hlegal hlarge, s.raiseAt_eq _ (by omega)]
  · subst hidx
    have hentries : ∀ i < s.op0, s.idxEntry i < 2048 := fun i hi =>
      hlegal _ (List.mem_map_of_mem (List.mem_range.2 hi))
    exact ⟨_, congrArg _ (decidxStart_requests hnw hentries),
      s.reconstructStart_requestsKey hnw (by simp)⟩

/-! ### `Reconstruct` from the acknowledge on (44_codec_decode.md R222, R226, R228) -/

/-- The second half of both decode commands is `Reconstruct`'s. -/
theorem exec_decodes_afterHash {i : Instr} {s : State} (hi : i = .decode ∨ i = .decidx)
    (hp : s.point = .afterHash) : exec i s = .next (s.reconstructFinish s.op0) := by
  obtain rfl | rfl := hi
  · simp only [exec, execDecode, hp]
  · simp only [exec, execDecidx, hp]

section
variable (s : State) {nw : Nat} (hnw : nw ∈ Config.wordCounts)
include hnw

/-- KEY holds the decoded key and zeros after it. -/
theorem State.read_reconstructFinish_key {k : Nat} (hk : k < 32) :
    (s.reconstructFinish nw).buf.read k = if k < keyLenOfWords nw then byteAt s.ext k else 0#8 := by
  have hkey := (wordCounts_lengths hnw).2.1
  have hlen : (s.decodedKey nw).length = keyLenOfWords nw := by
    rw [State.decodedKey, List.length_take, Vector.length_toList]
    omega
  rw [State.reconstructFinish, State.complete_buf, Memory.read_writeBytes, length_keyFill s nw hnw,
    if_pos (by simpa [Config.keyBase] using hk), Config.keyBase, Nat.sub_zero]
  split_ifs with hlt
  · rw [List.getD_append _ _ _ _ (hlen.symm ▸ hlt), State.decodedKey, List.getD_eq_getElem?_getD,
      List.getElem?_take_of_lt hlt, byteAt, List.getD_eq_getElem?_getD]
  · rw [List.getD_append_right _ _ _ _ (by omega), getD_replicate_zero]

theorem State.read_reconstructFinish_outside {a : Nat} (ha : 32 ≤ a) :
    (s.reconstructFinish nw).buf.read a = s.buf.read a :=
  Memory.read_writeBytes_outside (.inr (by rw [length_keyFill s nw hnw]; simpa [Config.keyBase] using ha))

end

/-- Settles O35: both commands end in the second half of `Reconstruct`, which writes the 32 bytes of
KEY and compares the two checksum bytes. -/
theorem decodedKeyIsWrittenWithItsVerdict : Obligations.DecodedKeyIsWrittenWithItsVerdict := by
  rintro i s nw n cl recv exp hi hp rfl hnw rfl rfl rfl rfl
  change s.op0 ∈ Config.wordCounts at hnw
  have hcl : csLenOfWords s.op0 < 32 := by have := (wordCounts_lengths hnw).2.2.1; omega
  have hresult : result1Word (s.receivedChecksum s.op0) (s.expectedChecksum s.op0)
        (csLenOfWords s.op0) 0
      = BitVec.ofNat 32 ((s.receivedChecksum s.op0).toNat + (s.expectedChecksum s.op0).toNat * 2 ^ 8
          + csLenOfWords s.op0 * 2 ^ 16) := by
    rw [result1Word_eq _ _ hcl (by decide), Nat.zero_mul, Nat.add_zero]
  refine ⟨(s.reconstructFinish s.op0).buf, ?_, fun k hk => s.read_reconstructFinish_key hnw hk,
    fun a ha => s.read_reconstructFinish_outside hnw ha⟩
  rw [exec_decodes_afterHash hi hp, ite_not]
  simp only [State.reconstructFinish, hresult]
  rfl

/-! ### ENCODE's indices decoded (44_codec_decode.md R227) -/

/-- Bit `k` of a span, the first the most significant. -/
theorem testBit_spanValue (A : Nat → Byte) (a : Nat) {n k : Nat} (ord : BitOrder) (hk : k < n) :
    (spanValue A a n ord).testBit (n - 1 - k) = bitGet A (a + k) ord := by
  induction n with
  | zero => omega
  | succ n ih =>
    have hlast : spanValue A a (n + 1) ord = Nat.bit (bitGet A (a + n) ord) (spanValue A a n ord) := by
      rw [spanValue_add, Nat.bit_val, Nat.mul_comm]
      simp [spanValue]
    obtain rfl | hlt := Nat.eq_or_lt_of_le (Nat.le_of_lt_succ hk)
    · rw [hlast, Nat.add_sub_cancel, Nat.sub_self, Nat.testBit_bit_zero]
    · rw [hlast, show n + 1 - 1 - k = n - 1 - k + 1 by omega, Nat.testBit_bit_succ, ih hlt]

/-- The word count of a legal key is legal, and gives the key length back. -/
theorem nrWords_lengths {n : Nat} (h : n ∈ Config.keyLens) :
    nrWords n ∈ Config.wordCounts ∧ keyLenOfWords (nrWords n) = n := by
  revert n
  decide

@[simp] theorem State.length_encodeIdx (s : State) : s.encodeIdx.length = nrWords s.op0 := by
  simp [State.encodeIdx, encodeIndices]

section
variable {s : State} (hlen : s.op0 ∈ Config.keyLens)
include hlen

/-- The stream of ENCODE's indices is the stream ENCODE cut into groups, up to its last group. -/
theorem State.getLsbD_streamByte_encodeIdx (k : Nat) {j : Nat} (hj : j < 8) :
    (streamByte s.encodeIdx k).getLsbD j
      = (decide (8 * k + (7 - j) < 11 * nrWords s.op0)
          && (listBytes s.encodeStream k).getLsbD j) := by
  have hle := (wordCounts_lengths (nrWords_lengths hlen).1).1
  rw [getLsbD_streamByte (by simpa using hle) k hj, State.length_encodeIdx]
  by_cases h : 8 * k + (7 - j) < 11 * nrWords s.op0
  · have hbit : bitGet (listBytes s.encodeStream) (8 * k + (7 - j)) .msb
        = (listBytes s.encodeStream k).getLsbD j := by
      rw [bitGet, wpos, show (8 * k + (7 - j)) / 8 = k by omega,
        show 7 - (8 * k + (7 - j)) % 8 = j by omega]
    rw [State.getD_encodeIdx hlen, if_pos (by omega), streamIndex_eq,
      testBit_spanValue _ _ (n := 11) .msb (Nat.mod_lt _ (by decide)), Nat.div_add_mod, hbit]
  · simp only [decide_eq_false h, Bool.false_and]

/-- The first bytes of the stream are the key. -/
theorem State.streamByte_encodeIdx_key {k : Nat} (hk : k < s.op0) :
    streamByte s.encodeIdx k = s.buf.read k := by
  obtain ⟨hnw, hkey⟩ := nrWords_lengths hlen
  obtain ⟨-, -, -, hbits⟩ := wordCounts_lengths hnw
  have hbyte : listBytes s.encodeStream k = s.buf.read k := by
    rw [listBytes, State.encodeStream, List.getD_append _ _ _ _ (by simpa using hk),
      List.getD_eq_getElem _ _ (by simpa using hk), List.getElem_map, List.getElem_range]
  refine BitVec.eq_of_getLsbD_eq fun j hj => ?_
  rw [State.getLsbD_streamByte_encodeIdx hlen k hj, decide_eq_true (by omega), Bool.true_and, hbyte]

/-- The byte after the key is the digest byte under the checksum mask. -/
theorem State.streamByte_encodeIdx_checksum :
    streamByte s.encodeIdx s.op0 = s.d0l &&& csMask (csLenOfWords (nrWords s.op0)) := by
  obtain ⟨hnw, hkey⟩ := nrWords_lengths hlen
  obtain ⟨-, -, -, hbits⟩ := wordCounts_lengths hnw
  have hbyte : listBytes s.encodeStream s.op0 = s.d0l := by
    rw [listBytes, State.encodeStream, List.getD_append_right _ _ _ _ (by simp)]
    simp
  refine BitVec.eq_of_getLsbD_eq fun j hj => ?_
  rw [State.getLsbD_streamByte_encodeIdx hlen _ hj, hbyte, BitVec.getLsbD_and, getLsbD_csMask _ j hj,
    Bool.and_comm]
  exact congrArg _ (decide_eq_decide.2 (by omega))

/-- `Reconstruct` over ENCODE's indices, answered with the digest byte ENCODE had: the checksum bytes
agree, and the key is ENCODE's. -/
theorem State.reconstructFinish_encodeIdx {a : State} (hd0l : a.d0l = s.d0l)
    (hext : ∀ k ≤ s.op0, byteAt a.ext k = streamByte s.encodeIdx k) :
    let w := a.reconstructFinish (nrWords s.op0)
    w.errCode = .none ∧ w.result0 = s.argl0 ∧ ∀ k < s.op0, w.buf.read k = s.buf.read k := by
  obtain ⟨hnw, hkey⟩ := nrWords_lengths hlen
  have hverdict : a.receivedChecksum (nrWords s.op0) = a.expectedChecksum (nrWords s.op0) := by
    rw [State.receivedChecksum, hkey, hext _ le_rfl, State.streamByte_encodeIdx_checksum hlen,
      State.expectedChecksum, hd0l]
  refine ⟨if_pos hverdict, ?_, fun k hk => ?_⟩
  · rw [State.reconstructFinish, State.complete_result0, hkey, BitVec.ofNat_toNat, BitVec.setWidth_eq]
  · rw [State.read_reconstructFinish_key _ hnw (hk.trans_le (keyLens_le hlen)), hkey, if_pos hk,
      hext k hk.le, State.streamByte_encodeIdx_key hlen hk]

/-- A decode command that resolves ENCODE's indices asks for the hash of the key and, answered with the
digest byte ENCODE had, completes without an error and with the key. -/
theorem State.decodes_encodeIdx {i : Instr} {u : State} (hi : i = .decode ∨ i = .decidx)
    (hop : u.op0 = nrWords s.op0) (hstart : exec i u = .next (u.reconstructStart s.encodeIdx u.op0))
    (hd0 : s.d0l = u.hashD0 ((List.range s.op0).map s.buf.read)) :
    ∃ v w, exec i u = .next v ∧ v.portMessage = (List.range s.op0).map s.buf.read
      ∧ exec i v.hashAnswer = .next w ∧ w.errCode = .none ∧ w.result0 = s.argl0
      ∧ ∀ k < s.op0, w.buf.read k = s.buf.read k := by
  obtain ⟨hnw, hkey⟩ := nrWords_lengths hlen
  obtain ⟨hframe, hext, -, hport, -⟩ :=
    u.reconstructStart_requestsKey (hop ▸ hnw) (s.length_encodeIdx.trans hop.symm)
  generalize u.reconstructStart s.encodeIdx u.op0 = v at hstart hframe hext hport
  rw [hop, hkey] at hext hport
  have hmsg : v.portMessage = (List.range s.op0).map s.buf.read :=
    hport.trans (List.map_congr_left fun k hk =>
      State.streamByte_encodeIdx_key hlen (List.mem_range.1 hk))
  have hd0l : v.hashD0 v.portMessage = s.d0l := by
    rw [hd0, hmsg, State.hashD0, State.hashD0, hframe]
  have hanswer : v.hashAnswer =
      { v with d0l := s.d0l, hashReq := false, phase := .exec, point := .afterHash } := by
    rw [State.hashAnswer, if_pos (congrArg State.hashReq hframe), hd0l]
  have hexec : exec i v.hashAnswer = .next (v.hashAnswer.reconstructFinish (nrWords s.op0)) := by
    rw [exec_decodes_afterHash hi (by rw [hanswer]), ← hop, hanswer, State.op0, hframe]
  exact ⟨v, _, hstart, hmsg, hexec,
    State.reconstructFinish_encodeIdx hlen (by rw [hanswer]) (by rwa [hanswer])⟩

/-- DECIDX reads from IDX the indices ENCODE wrote. -/
theorem State.exec_decidx_encodeIdx {u : State} (hp : u.point = .start)
    (hop : u.op0 = nrWords s.op0)
    (hcopy : ∀ a, 0x020 ≤ a → a < 0x050 →
      u.buf.read a = (encodeOutputs s.rom s.buf s.encodeIdx).read a) :
    exec .decidx u = .next (u.reconstructStart s.encodeIdx u.op0) := by
  have hnw : u.op0 ∈ Config.wordCounts := hop ▸ (nrWords_lengths hlen).1
  have hle := (wordCounts_lengths hnw).1
  have hentry (i : Nat) (hi : i < u.op0) : u.idxEntry i = s.encodeIdx.getD i 0 := by
    rw [← le16_encodeOutputs (rom := s.rom) (b := s.buf) s.encodeIdx_lt (by omega : i < 24)]
    simp only [State.idxEntry, Memory.le16, Config.idxBase]
    rw [hcopy _ (by omega) (by omega), hcopy _ (by omega) (by omega)]
  have hentries : (List.range u.op0).map u.idxEntry = s.encodeIdx :=
    List.ext_getElem (by simp [hop]) fun i h1 h2 => by
      rw [List.getElem_map, List.getElem_range, hentry i (by simpa using h1),
        List.getD_eq_getElem _ _ h2]
  rw [exec_decidx_start hp, decidxStart_requests hnw, hentries]
  exact fun i hi => (hentry i hi).trans_lt (State.getD_encodeIdx_lt hlen i)

/-- Over a valid ROM, DECODE finds in WORDS the indices ENCODE wrote the words of. -/
theorem State.exec_decode_encodeIdx {u : State} (hv : romValid s.rom = true) (hrom : u.rom = s.rom)
    (hok : u.romOk = true) (hp : u.point = .start) (hop : u.op0 = nrWords s.op0)
    (hcopy : ∀ a, 0x100 ≤ a → a < 0x1C0 →
      u.buf.read a = (encodeOutputs s.rom s.buf s.encodeIdx).read a) :
    exec .decode u = .next (u.reconstructStart s.encodeIdx u.op0) := by
  have hnw : u.op0 ∈ Config.wordCounts := hop ▸ (nrWords_lengths hlen).1
  have hle := (wordCounts_lengths hnw).1
  have hcount : s.encodeIdx.length = u.op0 := s.length_encodeIdx.trans hop.symm
  rw [exec_decode_start hp, decodeStart_requests hok hnw hcount fun i hi => ?_]
  have hlt : s.encodeIdx[i] < 2048 := s.encodeIdx_lt _ (List.getElem_mem hi)
  have hslot : u.buf.readBytes (0x100 + 8 * i) 8 = s.rom[s.encodeIdx[i]].toList :=
    Memory.readBytes_eq_slot fun j hj => by
      rw [hcopy _ (by omega) (by omega), read_encodeOutputs_words (by omega) hj,
        List.getElem?_eq_getElem hi, Option.map_some, Option.getD_some, romSlot_eq _ _ hlt,
        List.getD_eq_getElem _ _ (by simpa using hj), Vector.getElem_toList]
  rw [State.wordIndex, hrom, romLookup_eq_some_iff hv]
  exact ⟨hlt, congrArg wordOf hslot.symm⟩

end

/-- Settles O36: each decode command resolves ENCODE's indices, whose stream is the key and the
checksum bits of its digest byte. -/
theorem encodeThenDecodeRestoresTheKey : Obligations.EncodeThenDecodeRestoresTheKey := by
  rintro s t n rfl hlen hp ht
  change s.op0 ∈ Config.keyLens at hlen
  rw [exec_encode_afterHash hp, encodeFinish_eq] at ht
  cases ht
  have hop (u : State) (h : u.argl0 = BitVec.ofNat 32 (nrWords s.op0)) : u.op0 = nrWords s.op0 := by
    have hle := (wordCounts_lengths (nrWords_lengths hlen).1).1
    rw [State.op0, h, BitVec.toNat_ofNat, Nat.mod_eq_of_lt (by omega)]
  exact ⟨fun u hargl hstart hcopy hd0 =>
      State.decodes_encodeIdx hlen (.inr rfl) (hop u hargl)
        (State.exec_decidx_encodeIdx hlen hstart (hop u hargl) hcopy) hd0,
    fun u hv hrom hok hargl hstart hcopy hd0 =>
      State.decodes_encodeIdx hlen (.inl rfl) (hop u hargl)
        (State.exec_decode_encodeIdx hlen hv hrom hok hstart (hop u hargl) hcopy) hd0⟩

end Sys2Proof.Machine

namespace Sys2Proof.Machine

/-! ### The accept (45_control.md R251, R252) -/

/-- Settles O5: the accepted write is the host's step, and EXEC is a busy phase. -/
theorem acceptLatchesCommandAndOperands : Obligations.AcceptLatchesCommandAndOperands :=
  fun _ _ _ hp hag => ⟨_, step_acceptWrite hp hag, rfl, (statusWordHasItsFields _).1⟩

/-- Settles O6: in every phase but IDLE the write is dropped. -/
theorem commandWriteWhileBusyIsDropped : Obligations.CommandWriteWhileBusyIsDropped :=
  fun _ _ _ => step_dropWrite

/-! ### The FSM's step in EXEC (45_control.md R250, R254) -/

theorem State.withFetchWord_cmdl (s : State) (c : Word) : (s.withFetchWord 32 c.toNat).cmdl = c := by
  rw [State.withFetchWord, State.accept_cmdl, Nat.mod_eq_of_lt c.isLt, BitVec.ofNat_toNat,
    BitVec.setWidth_eq]

/-- Settles O4: the step is the FSM's in each case, and `withFetchWord` latches a word that decodes to
its command. -/
theorem stepRunsTheDecodedCommand : Obligations.StepRunsTheDecodedCommand := by
  refine ⟨fun s i hp hd => ⟨fun hag => ?_, fun rest hag => ?_⟩, fun s i => ⟨?_, ?_⟩⟩
  · rw [step_nil hag, fsmStep_exec hp hd]
  · rw [step_cons hag]
    exact fsmStep_exec hp hd
  · rw [step_nil rfl]
    refine fsmStep_exec rfl ?_
    rw [State.withFetchWord_cmdl, decodeWord_encodeWord]
  · exact s.withFetchWord_cmdl (encodeWord i)

/-! ### NOP and illegal words (45_control.md R255, R256) -/

/-- Settles O11: the meaning of NOP is the completion without an error. -/
theorem nopOnlyCompletes : Obligations.NopOnlyCompletes :=
  ⟨decodeWord_encodeWord .nop, fun _ => rfl⟩

/-- Settles O7: the word is accepted like any other, and the FSM's turn finds no command in it. -/
theorem illegalWordCompletesWithBadOpcode : Obligations.IllegalWordCompletesWithBadOpcode := by
  intro s c rest hp hbad hag
  refine ⟨_, step_acceptWrite hp hag, ?_⟩
  cases hd : decodeWord c with
  | ok i => exact absurd hd (hbad i)
  | error w =>
    rw [step_accepted_fsm, fsmStep_illegal (s := s.accepted c rest) rfl hd]
    rfl

/-! ### Completion or hash request (45_control.md R253, R254, 60_exceptions.md R277) -/

/-- How R253 leaves the block: DONE set, no request outstanding, the phase IDLE. -/
def State.Completed (t : State) : Prop := t.done = true ∧ t.hashReq = false ∧ t.phase = .idle

theorem State.completed_complete (s : State) (e : ErrCode) : (s.complete e).Completed := ⟨rfl, rfl, rfl⟩

/-- A command's step completes it, or asks the hash unit with the port, the working buffers, the group
counter and the phase alone changed. -/
theorem CommandEffect.completed_or_requests {s t : State} {i : Instr} (h : CommandEffect s i t) :
    t.Completed
      ∨ (asksHash i = true
        ∧ t = { s with ext := t.ext, grp := t.grp, group := t.group, hashLen := t.hashLen,
                       hashMsg := t.hashMsg, hashReq := true, phase := .hashWait }) := by
  cases h with
  | completes => exact .inl (State.completed_complete _ _)
  | checksRom => exact .inl (State.completed_complete _ _)
  | codecCompletes => exact .inl (State.completed_complete _ _)
  | codecRequests _ _ _ _ hpass => exact .inr ⟨asksHash_of_checksPassed hpass, rfl⟩

/-- After its hash answer a command asks no more: the codec commands run their second half, and the
others never ask. -/
theorem completed_of_afterHash {i : Instr} {s t : State} (hp : s.point = .afterHash)
    (h : exec i s = .next t) : t.Completed := by
  obtain hdone | ⟨hi, -⟩ := (exec_effect h).completed_or_requests
  · exact hdone
  · obtain rfl | hdec := asksHash_iff.1 hi
    · rw [exec_encode_afterHash hp, encodeFinish_eq] at h
      cases h
      exact State.completed_complete _ _
    · rw [exec_decodes_afterHash hdec hp] at h
      cases h
      exact State.completed_complete _ _

/-- Settles O8: the two ways a command's step ends; after the hash answer only the completion is left. -/
theorem commandStepCompletesOrAsksTheHash : Obligations.CommandStepCompletesOrAsksTheHash := by
  intro i s
  obtain ⟨t, ht⟩ := exec_total i s
  refine ⟨t, ht, ?_⟩
  obtain hp | hp : s.point = .start ∨ s.point = .afterHash := by cases s.point <;> simp
  · exact (exec_effect ht).completed_or_requests.imp_right fun ⟨hi, heq⟩ =>
      ⟨asksHash_iff.1 hi, hp, heq⟩
  · exact .inl (completed_of_afterHash hp ht)

/-! ### A command's run completes -/

theorem CommandEffect.lastOp {s t : State} {i : Instr} (h : CommandEffect s i t) :
    t.lastOp = s.lastOp := by
  cases h <;> rfl

/-- After the acknowledge of a request the FSM stands at the second half of the command (log 3). -/
theorem State.hashAnswer_point {s : State} (hreq : s.hashReq = true) :
    s.hashAnswer.point = .afterHash := by
  rw [State.hashAnswer, if_pos hreq]

@[simp] theorem State.hashAnswer_lastOp (s : State) : s.hashAnswer.lastOp = s.lastOp := by
  unfold State.hashAnswer
  split_ifs <;> rfl

/-- A waiting command has completed after its answer and another turn of the FSM. -/
theorem run_answered_completed {u : State} {i : Instr} {rest : List Event}
    (hag : u.agenda = .hashAck :: .fsm :: rest) (hreq : u.hashReq = true)
    (hd : decodeWord u.cmdl = .ok i) :
    ∃ t, Sys2Proof.core.run 2 u = .next t ∧ t.Completed ∧ t.lastOp = u.lastOp ∧ t.agenda = rest := by
  obtain ⟨t, ht⟩ := exec_total i { u.hashAnswer with agenda := rest }
  have hafter := State.hashAnswer_point hreq
  exact ⟨t, (run_answered hag hreq hd).trans ht,
    completed_of_afterHash (s := { u.hashAnswer with agenda := rest }) hafter ht,
    (exec_effect ht).lastOp.trans u.hashAnswer_lastOp, (exec_effect ht).agenda⟩

/-- The FSM's turn on a command word in EXEC, then the answer and another turn, complete it. -/
theorem fsmStep_run_completed {s : State} {rest : List Event} (hp : s.phase = .exec)
    (hag : s.agenda = .hashAck :: .fsm :: rest) :
    ∃ u t, fsmStep s = .next u ∧ Sys2Proof.core.run 2 u = .next t
      ∧ t.Completed ∧ t.lastOp = s.lastOp ∧ t.agenda = rest := by
  cases hd : decodeWord s.cmdl with
  | error w =>
    exact ⟨_, _, fsmStep_illegal hp hd, run_completed hag rfl rfl, s.completed_complete .badOpcode,
      rfl, rfl⟩
  | ok i =>
    obtain ⟨u, hu⟩ := exec_total i s
    have heff := exec_effect hu
    have hagu : u.agenda = _ := heff.agenda.trans hag
    refine ⟨u, ?_⟩
    rw [fsmStep_exec hp hd, ← heff.lastOp]
    obtain ⟨hdone, hreq, hidle⟩ | ⟨-, heq⟩ := heff.completed_or_requests
    · exact ⟨_, hu, run_completed hagu hidle hreq, ⟨hdone, hreq, hidle⟩, rfl, rfl⟩
    · obtain ⟨t, ht⟩ := run_answered_completed hagu (congrArg State.hashReq heq) (heff.cmdl ▸ hd)
      exact ⟨t, hu, ht⟩

/-- Settles O10: the accept leaves the block in EXEC, and from there the three turns complete any
word. -/
theorem acceptedCommandCompletesOnceTheHashAnswers :
    Obligations.AcceptedCommandCompletesOnceTheHashAnswers := by
  intro s c rest hp hag
  obtain ⟨u, t, hu, ht, ⟨hdone, hreq, hidle⟩, hlast, hrest⟩ :=
    fsmStep_run_completed (s := s.accepted c (.hashAck :: .fsm :: rest)) rfl rfl
  refine ⟨t, ?_, hidle, hdone, hreq, hlast, hrest⟩
  rw [run_of_step (step_acceptWrite hp hag), run_of_step (step_accepted_fsm s c _ ▸ hu), ht]

end Sys2Proof.Machine

namespace Sys2Proof.Machine

/-! ### The hash port (60_exceptions.md R276, R277, R278) -/

/-- Settles O37: a byte of the port is that of the message, and zero where the message has none. -/
theorem portPresentsTheMessage : Obligations.PortPresentsTheMessage := by
  intro s m hm
  refine ⟨rfl, s.toNat_hashRequest_hashLen hm, fun j hj => ?_, fun j hj => ?_,
    s.portMessage_hashRequest hm⟩
  · rw [s.hashRequest_hashMsg_byte hm, List.getD_eq_getElem _ _ hj]
  · rw [s.hashRequest_hashMsg_byte hm, List.getD_eq_default _ _ hj]

theorem State.hashAnswer_of_request {s : State} (hreq : s.hashReq = true) :
    s.hashAnswer = { s with
      d0l := s.hashD0 s.portMessage, hashReq := false, phase := .exec, point := .afterHash } :=
  if_pos hreq

theorem State.hashAnswer_of_noRequest {s : State} (hreq : s.hashReq = false) : s.hashAnswer = s :=
  if_neg (by simp [hreq])

/-- Settles O38: the acknowledge's two cases; neither HASH_D0 nor the port's message depends on the
agenda. -/
theorem acknowledgeAnswersTheRequest : Obligations.AcknowledgeAnswersTheRequest := by
  intro s rest hag
  rw [step_cons hag]
  exact ⟨fun hreq => congrArg _ (State.hashAnswer_of_request (s := { s with agenda := rest }) hreq),
    fun hreq => congrArg _ (State.hashAnswer_of_noRequest (s := { s with agenda := rest }) hreq)⟩

/-! ### Bus errors (60_exceptions.md R267) -/

section
variable {s : State} {x : Txn} {a : HostAddr} {rest : List Event}
  (hx : x = .read a ∨ ∃ d, x = .write a d) (hag : s.agenda = .host x :: rest)
include hx hag

theorem step_noTarget (ha : decodeAddr a = .misaligned ∨ decodeAddr a = .reserved) :
    ∃ r, r.resp = .slverr ∧ step s = .next { s with agenda := rest, reply := some r } := by
  obtain rfl | ⟨d, rfl⟩ := hx
  · exact ⟨_, rfl, step_readNoTarget hag ha⟩
  · exact ⟨_, rfl, step_writeNoTarget hag ha⟩

theorem step_window_busy {w : Nat} (ha : decodeAddr a = .window w) (hp : s.phase ≠ .idle) :
    ∃ r, r.resp = .slverr
      ∧ step s = .next { s with accViol := true, agenda := rest, reply := some r } := by
  obtain rfl | ⟨d, rfl⟩ := hx
  · exact ⟨_, rfl, step_readWindow_busy hag ha hp⟩
  · exact ⟨_, rfl, step_writeWindow_busy hag ha hp⟩

theorem step_window_idle {w : Nat} (ha : decodeAddr a = .window w) (hp : s.phase = .idle) :
    ∃ t r, step s = .next t ∧ t.reply = some r ∧ r.resp = .okay := by
  obtain rfl | ⟨d, rfl⟩ := hx
  · exact ⟨_, _, step_readWindow_idle hag ha hp, rfl, rfl⟩
  · exact ⟨_, _, step_writeWindow_idle hag ha hp, rfl, rfl⟩

theorem step_register {g : Reg} (ha : decodeAddr a = .register g) :
    ∃ t r, step s = .next t ∧ t.reply = some r ∧ r.resp = .okay := by
  obtain rfl | ⟨d, rfl⟩ := hx
  · exact ⟨_, _, step_readRegister hag ha, rfl, rfl⟩
  · exact ⟨_, _, step_writeRegister hag ha, rfl, rfl⟩

/-- The four targets of an address: SLVERR for those that R267 lists, with ACC_VIOL alone written, and
OKAY for the others. -/
theorem step_transaction :
    ∃ t r, step s = .next t ∧ t.reply = some r
      ∧ (r.resp = .slverr ↔
          (a.toNat % 4 ≠ 0 ∨ (0x028 ≤ a.toNat ∧ a.toNat ≤ 0x1FC)
            ∨ (0x200 ≤ a.toNat ∧ s.phase ≠ .idle)))
      ∧ (r.resp = .slverr →
          t = { s with
            accViol := s.accViol || decide (a.toNat % 4 = 0 ∧ 0x200 ≤ a.toNat), agenda := rest,
            reply := some r }) := by
  rcases decodeAddr_cases a with
    ⟨h4, ha⟩ | ⟨-, hlo, hhi, ha⟩ | ⟨h4, hlo, -, ha⟩ | ⟨h4, hhi, g, ha⟩
  · obtain ⟨r, hr, hs⟩ := step_noTarget hx hag (.inl ha)
    exact ⟨_, r, hs, rfl, by simp [hr, h4], by simp [h4]⟩
  · obtain ⟨r, hr, hs⟩ := step_noTarget hx hag (.inr ha)
    have hwin : ¬ 0x200 ≤ a.toNat := by omega
    exact ⟨_, r, hs, rfl, by simp [hr, hlo, hhi], by simp [hwin]⟩
  · by_cases hp : s.phase = .idle
    · obtain ⟨t, r, hs, hr, hok⟩ := step_window_idle hx hag ha hp
      have hres : ¬ a.toNat ≤ 0x1FC := by omega
      exact ⟨t, r, hs, hr, by simp [hok, h4, hres, hp], by simp [hok]⟩
    · obtain ⟨r, hr, hs⟩ := step_window_busy hx hag ha hp
      exact ⟨_, r, hs, rfl, by simp [hr, hlo, hp], by simp [h4, hlo]⟩
  · obtain ⟨t, r, hs, hr, hok⟩ := step_register hx hag ha
    have hres : ¬ 0x028 ≤ a.toNat := by omega
    have hwin : ¬ 0x200 ≤ a.toNat := by omega
    exact ⟨t, r, hs, hr, by simp [hok, h4, hres, hwin], by simp [hok]⟩

end

/-- Settles O46: `step_transaction` says which targets answer SLVERR, and a write to CMD while BUSY is
dropped with OKAY. -/
theorem busErrorsAreExactlyTheListedOnes : Obligations.BusErrorsAreExactlyTheListedOnes := by
  intro s x a rest hx hag
  obtain ⟨t, r, hs, hr, hslverr, hframe⟩ := step_transaction hx hag
  refine ⟨t, r, hs, hr, hslverr, hframe, fun c hc hp => ?_⟩
  rw [step_dropWrite hp (hc ▸ hag)] at hs
  cases hs
  cases hr
  exact ⟨rfl, rfl⟩

/-! ### DONE and the interrupt (60_exceptions.md R270, 10_state.md R51) -/

theorem State.irq_of_done {s : State} (h : s.done = true) : s.irq = s.irqEn := by
  rw [State.irq, h, Bool.and_true]

theorem State.irq_of_notDone {s : State} (h : s.done = false) : s.irq = false := by
  rw [State.irq, h, Bool.and_false]

theorem CommandEffect.irqEn {s t : State} {i : Instr} (h : CommandEffect s i t) :
    t.irqEn = s.irqEn := by
  cases h <;> rfl

/-- A command's step ends in IDLE only by its completion. -/
theorem CommandEffect.done_of_idle {s t : State} {i : Instr} (h : CommandEffect s i t)
    (hidle : t.phase = .idle) : t.done = true ∧ t.irq = s.irqEn := by
  obtain ⟨hdone, -⟩ | ⟨-, heq⟩ := h.completed_or_requests
  · exact ⟨hdone, (State.irq_of_done hdone).trans h.irqEn⟩
  · rw [heq] at hidle
    cases hidle

theorem CommandEffect.done_cases {s t : State} {i : Instr} (h : CommandEffect s i t) :
    t.done = s.done ∨ t.phase = .idle := by
  obtain ⟨-, -, hidle⟩ | ⟨-, heq⟩ := h.completed_or_requests
  · exact .inr hidle
  · exact .inl (by rw [heq])

/-- The FSM's turn from EXEC ends in IDLE only by a completion, with an error or without one. -/
theorem fsmStep_done_of_idle {s t : State} (hp : s.phase = .exec) (h : fsmStep s = .next t)
    (hidle : t.phase = .idle) : t.done = true ∧ t.irq = s.irqEn := by
  rcases fsmStep_cases h with ⟨hcheck, -⟩ | rfl | ⟨-, i, -, ht⟩ | ⟨-, rfl⟩
  · cases hp.symm.trans hcheck
  · cases hp.symm.trans hidle
  · exact ht.done_of_idle hidle
  · exact ⟨rfl, State.irq_of_done rfl⟩

/-- The FSM's turn changes DONE only by a completion; the end of the ROM check leaves it. -/
theorem fsmStep_done_cases {s t : State} (h : fsmStep s = .next t) :
    t.done = s.done ∨ (s.phase = .exec ∧ t.phase = .idle) := by
  rcases fsmStep_cases h with ⟨-, rfl⟩ | rfl | ⟨hp, i, -, ht⟩ | ⟨hp, rfl⟩
  · exact .inl rfl
  · exact .inl rfl
  · exact ht.done_cases.imp_right fun hidle => ⟨hp, hidle⟩
  · exact .inr ⟨hp, rfl⟩

/-- No register write sets DONE. -/
theorem State.done_of_writeRegister {s : State} {r : Reg} {d : Word}
    (h : (s.writeRegister r d).done = true) : s.done = true := by
  cases r with
  | ctrl =>
    simp only [State.writeRegister, State.writeCtrl] at h
    split_ifs at h
    · cases h
    · exact h
  | status =>
    rw [State.writeRegister, State.writeStatus_eq] at h
    exact Bool.and_elim_left h
  | cmd =>
    simp only [State.writeRegister, State.writeCmd] at h
    split_ifs at h
    · exact h
    · cases h
  | _ => exact h

theorem done_of_hostTxn {x : Txn} {s : State} (h : (hostTxn x s).done = true) : s.done = true := by
  rcases hostTxn_cases x s with
    ⟨r, d, heq⟩ | ⟨r, d, heq⟩ | ⟨w, -, d, heq⟩ | ⟨a, d, r, -, -, heq⟩ <;> rw [heq] at h
  · exact h
  · exact h
  · exact h
  · exact State.done_of_writeRegister h

@[simp] theorem State.hashAnswer_done (s : State) : s.hashAnswer.done = s.done := by
  unfold State.hashAnswer
  split_ifs <;> rfl

/-- Of the events only the FSM's turn can set DONE. -/
theorem eventStep_sets_done {e : Event} {s t : State} (h : eventStep e s = .next t)
    (hs : s.done = false) (ht : t.done = true) : e = .fsm := by
  rcases eventStep_cases h with ⟨x, -, rfl⟩ | ⟨hfsm, -⟩ | rfl | ⟨-, rfl⟩ | ⟨-, rfl⟩ | ⟨-, rfl⟩
  · cases hs.symm.trans (done_of_hostTxn ht)
  · exact hfsm
  · cases hs.symm.trans ht
  · cases hs.symm.trans (s.hashAnswer_done ▸ ht)
  · cases ht
  · cases ht

/-- The FSM moves when its turn is the oldest event, or when there is none. -/
theorem step_fsmTurn {s : State} (h : s.agenda.head? = none ∨ s.agenda.head? = some .fsm) :
    step s = fsmStep { s with agenda := s.agenda.tail } := by
  cases hag : s.agenda with
  | nil => rw [step_nil hag, List.tail_nil, ← hag]
  | cons e rest =>
    obtain rfl : e = .fsm := by simpa [hag] using h
    exact step_cons hag

/-- A step that sets DONE is a completion by the FSM. -/
theorem step_sets_done {s t : State} (h : step s = .next t) (hs : s.done = false)
    (ht : t.done = true) :
    s.phase = .exec ∧ t.phase = .idle
      ∧ (s.agenda.head? = none ∨ s.agenda.head? = some .fsm) := by
  have hturn : s.agenda.head? = none ∨ s.agenda.head? = some .fsm := by
    cases hag : s.agenda with
    | nil => exact .inl rfl
    | cons e rest =>
      exact .inr (congrArg some
        (eventStep_sets_done (s := { s with agenda := rest }) (step_cons hag ▸ h) hs ht))
  rw [step_fsmTurn hturn] at h
  obtain heq | ⟨hp, hidle⟩ := fsmStep_done_cases h
  · cases hs.symm.trans (heq.symm.trans ht)
  · exact ⟨hp, hidle, hturn⟩

theorem step_reset_done {s t : State} {e : Event} {rest : List Event} (he : e.isReset = true)
    (hag : s.agenda = e :: rest) (h : step s = .next t) : t.done = false := by
  rw [step_cons hag] at h
  obtain ⟨l, hs | hs⟩ := eventStep_of_isReset he { s with agenda := rest }
  · cases hs.symm.trans h
    rfl
  · cases hs.symm.trans h
    rfl

theorem step_clearDone {s t : State} {d : Word} {rest : List Event} (hd : d.getLsbD 1 = true)
    (hag : s.agenda = .host (.write 0x00C#10 d) :: rest) (h : step s = .next t) :
    t.done = false := by
  rw [step_writeRegister (r := .status) hag rfl, State.writeRegister, State.writeStatus_eq, hd] at h
  cases h
  exact Bool.and_false _

/-- Settles O48: `irq` follows DONE, and each agent's step says what it does to DONE. -/
theorem irqFollowsEnableAndDone : Obligations.IrqFollowsEnableAndDone := by
  have hclear {t : State} (h : t.done = false) : t.done = false ∧ t.irq = false :=
    ⟨h, State.irq_of_notDone h⟩
  refine ⟨fun s => Bool.and_eq_true_iff, fun i s t h => (exec_effect h).done_of_idle,
    fun s t hp hturn h => ?_, fun s t c rest hp hag h => hclear ?_,
    fun s t d rest hd hag h => hclear (step_clearDone hd hag h),
    fun s t e rest he hag h => hclear (step_reset_done he hag h),
    fun s t hp hturn h => ?_, fun s t => step_sets_done⟩
  · rw [step_fsmTurn hturn] at h
    exact fsmStep_done_of_idle (s := { s with agenda := s.agenda.tail }) hp h
  · rw [step_acceptWrite hp hag] at h
    cases h
    rfl
  · rw [step_fsmTurn hturn, fsmStep_check (s := { s with agenda := s.agenda.tail }) hp] at h
    cases h
    exact ⟨rfl, rfl⟩

/-! ### The block never stops (60_exceptions.md R260) -/

theorem fsmStep_total (s : State) : ∃ t, fsmStep s = .next t := by
  cases hp : s.phase with
  | check => exact ⟨_, fsmStep_check hp⟩
  | idle => exact ⟨_, fsmStep_still (.inl hp)⟩
  | hashWait => exact ⟨_, fsmStep_still (.inr hp)⟩
  | exec =>
    cases hd : decodeWord s.cmdl with
    | ok i => exact fsmStep_exec hp hd ▸ exec_total i s
    | error w => exact ⟨_, fsmStep_illegal hp hd⟩

theorem fsmStep_agenda {s t : State} (h : fsmStep s = .next t) : t.agenda = s.agenda := by
  rcases fsmStep_cases h with ⟨-, rfl⟩ | rfl | ⟨-, i, -, ht⟩ | ⟨-, rfl⟩
  · rfl
  · rfl
  · exact ht.agenda
  · rfl

theorem eventStep_total {e : Event} (he : e.admitted = true) (s : State) :
    ∃ t, eventStep e s = .next t := by
  cases e with
  | fsm => exact fsmStep_total s
  | staleAck => cases he
  | hostInReset x => cases he
  | _ => exact ⟨_, rfl⟩

@[simp] theorem State.writeRegister_agenda (s : State) (r : Reg) (d : Word) :
    (s.writeRegister r d).agenda = s.agenda := by
  cases r with
  | ctrl =>
    simp only [State.writeRegister, State.writeCtrl]
    split_ifs <;> rfl
  | status => rw [State.writeRegister, State.writeStatus_eq]
  | cmd =>
    simp only [State.writeRegister, State.writeCmd]
    split_ifs <;> rfl
  | _ => rfl

@[simp] theorem hostTxn_agenda (x : Txn) (s : State) : (hostTxn x s).agenda = s.agenda := by
  rcases hostTxn_cases x s with
    ⟨r, d, heq⟩ | ⟨r, d, heq⟩ | ⟨w, -, d, heq⟩ | ⟨a, d, r, -, -, heq⟩ <;> simp [heq]

@[simp] theorem State.hashAnswer_agenda (s : State) : s.hashAnswer.agenda = s.agenda := by
  unfold State.hashAnswer
  split_ifs <;> rfl

theorem eventStep_agenda {e : Event} {s t : State} (h : eventStep e s = .next t) :
    t.agenda = s.agenda := by
  rcases eventStep_cases h with ⟨x, -, rfl⟩ | ⟨-, hf⟩ | rfl | ⟨-, rfl⟩ | ⟨-, rfl⟩ | ⟨-, rfl⟩
  · exact hostTxn_agenda x s
  · exact fsmStep_agenda hf
  · rfl
  · exact s.hashAnswer_agenda
  · rfl
  · rfl

/-- A step takes the oldest event off the agenda and does nothing else to it. -/
theorem step_agenda {s t : State} (h : step s = .next t) : t.agenda = s.agenda.tail := by
  cases hag : s.agenda with
  | nil => exact (fsmStep_agenda (step_nil hag ▸ h)).trans hag
  | cons e rest => exact eventStep_agenda (s := { s with agenda := rest }) (step_cons hag ▸ h)

/-- Only the two events of log 12, which no admitted agenda holds, have no next state. -/
theorem step_total {s : State} (h : ∀ e ∈ s.agenda, e.admitted = true) : ∃ t, step s = .next t := by
  cases hag : s.agenda with
  | nil => exact step_nil hag ▸ fsmStep_total s
  | cons e rest =>
    exact step_cons hag ▸ eventStep_total (h e (hag ▸ List.mem_cons_self)) _

/-- Settles O59, by induction on the number of steps: a step leaves the agenda's other events. -/
theorem blockNeverStops : Obligations.BlockNeverStops := by
  intro k
  induction k with
  | zero => exact fun s _ => ⟨s, rfl⟩
  | succ k ih =>
    intro s hadm
    obtain ⟨u, hu⟩ := step_total hadm
    rw [run_of_step hu]
    exact ih u fun e he => hadm e (List.mem_of_mem_tail (step_agenda hu ▸ he))

end Sys2Proof.Machine

namespace Sys2Proof.Machine

/-! ### A request that nobody answers (70_reset_and_hazards.md R317) -/

/-- What a waiting command shows of itself, apart from STATUS's sticky flags and DONE. -/
structure Pending where
  phase : Phase
  hashReq : Bool
  hashMsg : BitVec 256
  result0 : Word
  errCode : ErrCode
  buf : Memory

/-- The pending command of a state. -/
def State.pending (s : State) : Pending :=
  ⟨s.phase, s.hashReq, s.hashMsg, s.result0, s.errCode, s.buf⟩

theorem State.pending_writeStatus (s : State) (d : Word) :
    (s.writeStatus d).pending = s.pending := by
  rw [State.writeStatus_eq]
  rfl

theorem State.pending_writeCmd {s : State} (hp : s.phase = .hashWait) (c : Word) :
    (s.writeCmd c).pending = s.pending := by
  rw [State.writeCmd, if_pos (by simp [State.busy_eq, hp])]
  rfl

theorem State.pending_writeCtrl {d : Word} (hd : d.getLsbD 1 = false) (s : State) :
    (s.writeCtrl d).pending = s.pending := by
  rw [State.writeCtrl, hd]
  rfl

/-- In HASH_WAIT a register write, but for SOFT_RST, leaves the pending command alone. -/
theorem State.pending_writeRegister {s : State} (hp : s.phase = .hashWait) {g : Reg} {d : Word}
    (hd : g = .ctrl → d.getLsbD 1 = false) : (s.writeRegister g d).pending = s.pending := by
  cases g with
  | ctrl => exact State.pending_writeCtrl (hd rfl) s
  | status => exact s.pending_writeStatus d
  | cmd => exact State.pending_writeCmd hp d
  | _ => rfl

/-- In HASH_WAIT a transaction, but for a soft reset, leaves the pending command alone. -/
theorem step_host_pending {s : State} {x : Txn} {rest : List Event} (hp : s.phase = .hashWait)
    (hag : s.agenda = .host x :: rest) (hx : (Event.host x).isReset = false) :
    ∃ t, step s = .next t ∧ t.pending = s.pending := by
  obtain ⟨a, ha⟩ : ∃ a, x = .read a ∨ ∃ d, x = .write a d := by
    cases x with
    | read a => exact ⟨a, .inl rfl⟩
    | write a d => exact ⟨a, .inr ⟨d, rfl⟩⟩
  rcases decodeAddr_cases a with ⟨-, ht⟩ | ⟨-, -, -, ht⟩ | ⟨-, -, -, ht⟩ | ⟨-, -, g, ht⟩
  · obtain ⟨r, -, hs⟩ := step_noTarget ha hag (.inl ht)
    exact ⟨_, hs, rfl⟩
  · obtain ⟨r, -, hs⟩ := step_noTarget ha hag (.inr ht)
    exact ⟨_, hs, rfl⟩
  · obtain ⟨r, -, hs⟩ := step_window_busy ha hag ht (by simp [hp])
    exact ⟨_, hs, rfl⟩
  · obtain rfl | ⟨d, rfl⟩ := ha
    · exact ⟨_, step_readRegister hag ht, rfl⟩
    · refine ⟨_, step_writeRegister hag ht, ?_⟩
      refine State.pending_writeRegister (s := { s with agenda := rest }) hp fun hg => ?_
      simpa [Event.isReset, ht, hg] using hx

/-- An event that the spec has a run for in every state and that does not end the wait for the hash
unit. -/
def Event.isQuiet (e : Event) : Prop := e ≠ .hashAck ∧ e.isReset = false ∧ e.admitted = true

theorem step_pending {s : State} (hp : s.phase = .hashWait) (hq : ∀ e ∈ s.agenda, e.isQuiet) :
    ∃ t, step s = .next t ∧ t.pending = s.pending := by
  cases hag : s.agenda with
  | nil => exact ⟨s, (step_nil hag).trans (fsmStep_still (.inr hp)), rfl⟩
  | cons e rest =>
    obtain ⟨hack, hreset, hadm⟩ := hq e (hag ▸ List.mem_cons_self)
    cases e with
    | host x => exact step_host_pending hp hag hreset
    | fsm => exact ⟨_, (step_cons hag).trans (fsmStep_still (.inr hp)), rfl⟩
    | internal => exact ⟨_, step_cons hag, rfl⟩
    | hashAck => exact (hack rfl).elim
    | staleAck => cases hadm
    | hostInReset x => cases hadm
    | hardReset => cases hreset
    | powerOn => cases hreset

theorem run_pending (k : Nat) {s : State} (hp : s.phase = .hashWait)
    (hq : ∀ e ∈ s.agenda, e.isQuiet) :
    ∃ t, Sys2Proof.core.run k s = .next t ∧ t.pending = s.pending := by
  induction k generalizing s with
  | zero => exact ⟨s, rfl, rfl⟩
  | succ k ih =>
    obtain ⟨u, hu, hsame⟩ := step_pending hp hq
    obtain ⟨t, ht, hsame'⟩ := ih ((congrArg Pending.phase hsame).trans hp)
      fun e he => hq e (List.mem_of_mem_tail (step_agenda hu ▸ he))
    exact ⟨t, (run_of_step hu k).trans ht, hsame'.trans hsame⟩

/-- Settles O39: no step without an acknowledge or a reset changes the pending command, and HASH_WAIT
shows as STATUS bits 0 and 7. -/
theorem hashWaitLastsUntilAnswerOrReset : Obligations.HashWaitLastsUntilAnswerOrReset := by
  intro k s hp hq
  obtain ⟨t, ht, hsame⟩ := run_pending k hp hq
  have htp : t.phase = .hashWait := (congrArg Pending.phase hsame).trans hp
  obtain ⟨hbusy, -, -, -, -, -, -, hwait, -⟩ := statusWordHasItsFields t
  exact ⟨t, ht, htp, congrArg Pending.hashReq hsame, congrArg Pending.hashMsg hsame,
    congrArg Pending.result0 hsame, congrArg Pending.errCode hsame, congrArg Pending.buf hsame,
    by simp [hbusy, htp], by simp [hwait, htp]⟩

/-! ### The two refusals (70_reset_and_hazards.md R300, R302) -/

theorem fsmStep_ne_refused (s : State) (r : Refusal) : fsmStep s ≠ .refused r := by
  obtain ⟨t, ht⟩ := fsmStep_total s
  simp [ht]

theorem eventStep_refused {e : Event} {s : State} {r : Refusal} (h : eventStep e s = .refused r) :
    r = .hostDuringReset ∨ r = .staleAcknowledge := by
  cases e with
  | hostInReset x => cases h; exact .inl rfl
  | staleAck =>
    simp only [eventStep] at h
    split_ifs at h
    cases h
    exact .inr rfl
  | fsm => exact (fsmStep_ne_refused s r h).elim
  | _ => cases h

/-- Settles O60: the FSM's turn is never refused, and of the events only the two named ones are. -/
theorem onlyTheTwoNamedEventsAreRefused : Obligations.OnlyTheTwoNamedEventsAreRefused := by
  refine fun s rest => ⟨fun x hag => step_cons hag, fun hag hreq => ?_, fun hag hreq => ?_,
    fun r h => ?_⟩
  · rw [step_cons hag]
    exact if_pos hreq
  · rw [step_cons hag]
    exact if_neg (by simp [hreq])
  · cases hag : s.agenda with
    | nil => exact (fsmStep_ne_refused s r (step_nil hag ▸ h)).elim
    | cons e rest => exact eventStep_refused (step_cons hag ▸ h)

/-! ### The write set of the command in progress (70_reset_and_hazards.md R303, R304) -/

section
variable {s : State}

theorem State.writeSet_of_quiet (hp : s.phase = .check ∨ s.phase = .idle) : s.writeSet = [] := by
  unfold State.writeSet
  obtain hp | hp := hp <;> rw [hp]

theorem State.writeSet_of_decoded {i : Instr} (hp : s.phase = .exec ∨ s.phase = .hashWait)
    (hd : decodeWord s.cmdl = .ok i) : s.writeSet = s.writeSetOf i := by
  unfold State.writeSet
  obtain hp | hp := hp <;> rw [hp, hd]

theorem State.writeSet_of_illegal (hd : ∀ i, decodeWord s.cmdl ≠ .ok i) : s.writeSet = [] := by
  unfold State.writeSet
  cases h : decodeWord s.cmdl with
  | ok i => exact (hd i h).elim
  | error w => cases s.phase <;> rfl

end

section
variable {s : State} {a : Nat}

theorem State.mem_writeSetOf_clear :
    a ∈ s.writeSetOf .clear ↔ s.argl0.toNat + s.argl1.toNat ≤ 512
      ∧ s.argl0.toNat ≤ a ∧ a < s.argl0.toNat + s.argl1.toNat := by
  rw [State.writeSetOf, List.mem_ite_nil_right, byteRangeOk_iff, mem_byteRange]

theorem State.mem_writeSetOf_brev :
    a ∈ s.writeSetOf .brev ↔ s.argl0.toNat + s.argl1.toNat ≤ 512
      ∧ s.argl0.toNat ≤ a ∧ a < s.argl0.toNat + s.argl1.toNat :=
  State.mem_writeSetOf_clear

theorem State.mem_writeSetOf_bitx {rj : Bool} {ord : BitOrder} :
    a ∈ s.writeSetOf (.bitx rj ord) ↔ bitxOk s.op0 s.op1 s.op2 rj = true
      ∧ (s.op2 + padBits (s.op1 - s.op0) rj) / 8 ≤ a
      ∧ a ≤ (s.op2 + padBits (s.op1 - s.op0) rj + (s.op1 - s.op0) - 1) / 8 := by
  rw [State.writeSetOf, bitxWriteSet, List.mem_ite_nil_right]
  refine and_congr_right fun hok => ?_
  have hlt := (bitxOk_iff.1 hok).1
  rw [mem_byteRange]
  omega

theorem State.mem_writeSetOf_dword : a ∈ s.writeSetOf .dword ↔ 0x058 ≤ a ∧ a ≤ 0x05F :=
  mem_byteRange.trans (and_congr_right' Nat.lt_succ_iff)

theorem State.mem_writeSetOf_dindex :
    a ∈ s.writeSetOf .dindex ↔
      ¬ (s.romOk = true ∧ romLookup s.rom s.winWord = none) ∧ 0x058 ≤ a ∧ a ≤ 0x05F := by
  rw [State.writeSetOf, List.mem_ite_nil_left, Bool.and_eq_true, Option.isNone_iff_eq_none]
  exact and_congr_right' (State.mem_writeSetOf_dword (s := s))

theorem State.mem_writeSetOf_encode :
    a ∈ s.writeSetOf .encode ↔ (0x020 ≤ a ∧ a ≤ 0x04F) ∨ (0x100 ≤ a ∧ a ≤ 0x1BF) := by
  rw [State.writeSetOf, List.mem_append, mem_byteRange, mem_byteRange]
  simp only [Config.idxBase, Config.wordsBase]
  omega

theorem State.mem_writeSetOf_decode : a ∈ s.writeSetOf .decode ↔ a ≤ 0x01F := by
  rw [State.writeSetOf, mem_byteRange]
  simp only [Config.keyBase]
  omega

theorem State.mem_writeSetOf_decidx : a ∈ s.writeSetOf .decidx ↔ a ≤ 0x01F :=
  State.mem_writeSetOf_decode (s := s)

end

/-- Settles O51: the rows of the table, command by command. -/
theorem writeSetsAreTheTable : Obligations.WriteSetsAreTheTable := by
  intro s a hp
  refine ⟨fun i hd hi => ?_, fun hd => ?_, fun i hd hi => ?_, ?_, fun hd => ?_, fun hd => ?_,
    fun hd => ?_, fun i hd hi => ?_⟩
  · rw [State.writeSet_of_decoded hp hd]
    obtain rfl | rfl := hi <;> exact List.not_mem_nil
  · rw [State.writeSet_of_illegal hd]
    exact List.not_mem_nil
  · rw [State.writeSet_of_decoded hp hd]
    obtain rfl | rfl := hi
    · exact State.mem_writeSetOf_clear
    · exact State.mem_writeSetOf_brev
  · rintro rj ord n c p hd rfl rfl rfl
    rw [State.writeSet_of_decoded hp hd, State.mem_writeSetOf_bitx, bitxOk_iff]
    rfl
  · rw [State.writeSet_of_decoded hp hd, State.mem_writeSetOf_dword]
  · rw [State.writeSet_of_decoded hp hd, State.mem_writeSetOf_dindex]
  · rw [State.writeSet_of_decoded hp hd, State.mem_writeSetOf_encode]
  · rw [State.writeSet_of_decoded hp hd]
    obtain rfl | rfl := hi
    · exact State.mem_writeSetOf_decode
    · exact State.mem_writeSetOf_decidx

/-! ### A reset and BUF (70_reset_and_hazards.md R303, R305) -/

theorem nodup_bitxWriteSet (lo hi dst : Nat) (rj : Bool) : (bitxWriteSet lo hi dst rj).Nodup := by
  unfold bitxWriteSet
  split_ifs
  · exact nodup_byteRange _ _
  · exact List.nodup_nil

/-- No address stands in a write set twice; ENCODE's two regions are apart. -/
theorem State.nodup_writeSetOf (s : State) (i : Instr) : (s.writeSetOf i).Nodup := by
  cases i with
  | nop => exact List.nodup_nil
  | romchk => exact List.nodup_nil
  | bitx rj ord => exact nodup_bitxWriteSet _ _ _ _
  | dword => exact nodup_byteRange _ _
  | decode => exact nodup_byteRange _ _
  | decidx => exact nodup_byteRange _ _
  | encode =>
    refine List.nodup_append'.2 ⟨nodup_byteRange _ _, nodup_byteRange _ _, fun a hidx hwords => ?_⟩
    rw [mem_byteRange] at hidx hwords
    simp only [Config.idxBase, Config.wordsBase] at hidx hwords
    omega
  | clear | brev =>
    simp only [State.writeSetOf]
    split_ifs
    · exact nodup_byteRange _ _
    · exact List.nodup_nil
  | dindex =>
    simp only [State.writeSetOf]
    split_ifs
    · exact List.nodup_nil
    · exact nodup_byteRange _ _

theorem State.nodup_writeSet (s : State) : s.writeSet.Nodup := by
  unfold State.writeSet
  split
  · exact List.nodup_nil
  · exact List.nodup_nil
  all_goals
    split
    · exact s.nodup_writeSetOf _
    · exact List.nodup_nil

/-- A hard reset and a soft one differ in the reply alone. -/
theorem step_reset {s : State} {e : Event} {rest : List Event} (he : e.isReset = true)
    (hne : e ≠ .powerOn) (hag : s.agenda = e :: rest) :
    ∃ r, step s = .next { s.doReset with agenda := rest, reply := r } := by
  cases e with
  | hardReset => exact ⟨s.reply, step_cons hag⟩
  | powerOn => exact (hne rfl).elim
  | host x =>
    cases x with
    | read a => cases he
    | write a d =>
      obtain ⟨ha, hd⟩ : decodeAddr a = .register .ctrl ∧ d.getLsbD 1 = true := by
        simpa [Event.isReset] using he
      refine ⟨some ⟨.okay, none⟩, ?_⟩
      rw [step_writeRegister hag ha, State.writeRegister, State.writeCtrl, if_pos hd]
      rfl
  | _ => cases he

theorem State.doPowerOn_freeCount (s : State) : s.doPowerOn.freeCount = s.freeCount + 512 :=
  congrArg (s.freeCount + ·) (length_byteRange 0 _)

/-- Byte `a` of BUF is draw number `a` of a power-on. -/
theorem State.read_doPowerOn (s : State) {a : Nat} (ha : a < 512) :
    s.doPowerOn.buf.read a = Config.freeByte (s.freeCount + a) := by
  have hdraw := s.buf.read_drawBytes_byteRange (c := s.freeCount) (b := 0) ha
  rwa [Nat.zero_add, ← State.resetDrawing_buf] at hdraw

/-- Settles O50: a reset draws the bytes of the write set, in which no address stands twice, and a
power-on those of all of BUF. -/
theorem resetDisturbsOnlyTheWriteSet : Obligations.ResetDisturbsOnlyTheWriteSet := by
  intro s e rest hag
  refine ⟨fun he hne => ?_, ?_⟩
  · obtain ⟨r, hs⟩ := step_reset he hne hag
    have houtside : ∀ a, a ∉ s.writeSet → s.doReset.buf.read a = s.buf.read a :=
      fun _ ha => Memory.read_drawBytes_outside ha
    refine ⟨_, hs, rfl, rfl, houtside, fun hp a => houtside a ?_,
      fun k hk => Memory.read_drawBytes s.nodup_writeSet hk, s.nodup_writeSet, rfl⟩
    rw [State.writeSet_of_quiet hp]
    exact List.not_mem_nil
  · rintro rfl
    refine ⟨_, step_cons hag, State.doPowerOn_freeCount { s with agenda := rest },
      fun a ha => State.read_doPowerOn { s with agenda := rest } ha⟩

/-! ### A command and BUF (70_reset_and_hazards.md R304, 20_memory.md R92) -/

section
variable (s : State)

theorem encodeStart_buf : (encodeStart s).buf = s.buf := by
  unfold encodeStart
  split_ifs <;> rfl

theorem decodeStart_buf : (decodeStart s).buf = s.buf := by
  unfold decodeStart
  split_ifs
  · rfl
  · cases collect s.wordIndex 0 s.op0 <;> rfl
  · rfl

theorem decidxStart_buf : (decidxStart s).buf = s.buf := by
  unfold decidxStart
  split_ifs
  · cases collect s.entryIndex 0 s.op0 <;> rfl
  · rfl

end

section
variable {s t : State} {a : Nat}

theorem exec_clear_buf (h : exec .clear s = .next t) (ha : a ∉ s.writeSetOf .clear) :
    t.buf.read a = s.buf.read a := by
  rw [State.mem_writeSetOf_clear, ← byteRangeOk_iff] at ha
  cases h
  split_ifs with hok
  · exact (s.buf.read_writeBytes_zeros _ _ _).trans (if_neg fun hin => ha ⟨hok, hin⟩)
  · rfl

theorem exec_brev_buf (h : exec .brev s = .next t) (ha : a ∉ s.writeSetOf .brev) :
    t.buf.read a = s.buf.read a := by
  rw [State.mem_writeSetOf_brev, ← byteRangeOk_iff] at ha
  cases h
  split_ifs with hok
  · exact (s.buf.read_reverseRange _ _ _).trans (if_neg fun hin => ha ⟨hok, hin⟩)
  · rfl

theorem exec_bitx_buf {rj : Bool} {ord : BitOrder} (h : exec (.bitx rj ord) s = .next t)
    (ha : a ∉ s.writeSetOf (.bitx rj ord)) : t.buf.read a = s.buf.read a := by
  rw [State.mem_writeSetOf_bitx] at ha
  cases h
  split_ifs with hok
  · have hout : ¬ _ := fun hspan => ha ⟨hok, hspan⟩
    exact s.buf.read_bitExtract_outside _ _ _ _ rj ord (by omega)
  · rfl

theorem exec_dword_buf (h : exec .dword s = .next t) (ha : a ∉ s.writeSetOf .dword) :
    t.buf.read a = s.buf.read a := by
  rw [State.mem_writeSetOf_dword] at ha
  cases h
  split_ifs
  · rfl
  · rfl
  · exact s.read_deliverWord_outside _ (by omega)

theorem exec_dindex_buf (h : exec .dindex s = .next t) (ha : a ∉ s.writeSetOf .dindex) :
    t.buf.read a = s.buf.read a := by
  rw [State.mem_writeSetOf_dindex] at ha
  cases h
  split_ifs
  · rfl
  · cases hw : romLookup s.rom s.winWord with
    | none => rfl
    | some n =>
      have hout : ¬ _ := fun hwout => ha ⟨by simp [hw], hwout⟩
      exact s.read_deliverWord_outside n (by omega)

theorem exec_encode_buf (h : exec .encode s = .next t) (ha : a ∉ s.writeSetOf .encode) :
    t.buf.read a = s.buf.read a := by
  rw [State.mem_writeSetOf_encode] at ha
  cases hp : s.point with
  | start =>
    rw [exec_encode_start hp] at h
    cases h
    rw [encodeStart_buf]
  | afterHash =>
    rw [exec_encode_afterHash hp] at h
    cases h
    rw [encodeFinish_eq]
    exact read_encodeOutputs_outside (by omega)

/-- The second half writes all of KEY and no more where the number of words is legal. -/
theorem exec_decodes_buf {i : Instr} (hi : i = .decode ∨ i = .decidx)
    (hnw : s.point = .afterHash → s.op0 ∈ Config.wordCounts) (h : exec i s = .next t)
    (ha : a ∉ s.writeSetOf .decode) : t.buf.read a = s.buf.read a := by
  rw [State.mem_writeSetOf_decode] at ha
  cases hp : s.point with
  | start =>
    obtain rfl | rfl := hi
    · rw [exec_decode_start hp] at h
      cases h
      rw [decodeStart_buf]
    · rw [exec_decidx_start hp] at h
      cases h
      rw [decidxStart_buf]
  | afterHash =>
    rw [exec_decodes_afterHash hi hp] at h
    cases h
    exact s.read_reconstructFinish_outside (hnw hp) (by omega)

/-- A command whose checks have passed once its request is answered writes in its write set only. -/
theorem exec_buf_outside_writeSetOf {i : Instr} (hpass : s.point = .afterHash → ChecksPassed s i)
    (h : exec i s = .next t) (ha : a ∉ s.writeSetOf i) : t.buf.read a = s.buf.read a := by
  cases i with
  | nop => cases h; rfl
  | romchk => cases h; rfl
  | clear => exact exec_clear_buf h ha
  | brev => exact exec_brev_buf h ha
  | bitx rj ord => exact exec_bitx_buf h ha
  | dword => exact exec_dword_buf h ha
  | dindex => exact exec_dindex_buf h ha
  | encode => exact exec_encode_buf h ha
  | decode => exact exec_decodes_buf (.inl rfl) (fun hp => (hpass hp).2) h ha
  | decidx => exact exec_decodes_buf (.inr rfl) hpass h ha

end

/-- Settles O52: the invariant says that a codec command past its acknowledge has passed its checks. -/
theorem commandsWriteOnlyTheirWriteSet : Obligations.CommandsWriteOnlyTheirWriteSet := by
  intro s t i a hinv hp hd h ha
  rw [State.writeSet_of_decoded (.inl hp) hd] at ha
  exact exec_buf_outside_writeSetOf
    (fun hpt => (codecReady_iff hd).1 (hinv.waitingIsCodec (.inr ⟨hp, hpt⟩))) h ha

end Sys2Proof.Machine
